-- ==== Sys2Proof/Word.lean ====
section
/-!
DEFINITION. The two units of the block: a byte is 8 bits, a word is 16 bits (00_scope section 6.1).
-/
namespace Sys2Proof

/-- A byte: 8 bits (00_scope section 6.1). -/
abbrev Byte := BitVec 8

/-- A word: 16 bits, the width of a chip register and of a patch word (00_scope section 5.1). -/
abbrev Word := BitVec 16

end Sys2Proof
end

