-- ==== Sys2Proof/Config.lean ====
section
/-!
DEFINITION. What an implementation fixes (the parameters of 00_scope section 5.2) and the free values the
spec leaves to the chip, to reset and to chance. Nothing here is computed by a step.
-/
namespace Sys2Proof

/-- The four operating modes (10_state R11). No claim may depend on their numbering (D5). -/
inductive Mode where
  | notActive | output | input | midi
  deriving DecidableEq, Repr, Inhabited

/-- The chip family tag (00_scope R7, 10_state R18, D35). -/
inductive Family where
  | unknown | familyA | familyB
  deriving DecidableEq, Repr, Inhabited

/-- The input source of a recording: microphone (0) or auxiliary (1) (10_state R22). -/
inductive Source where
  | mic | aux
  deriving DecidableEq, Repr, Inhabited

/-- A non-negative rational `num / den`, kept unreduced (45 R121: exact rationals, D18; log 24). -/
structure Frac where
  num : Nat
  den : Nat
  deriving DecidableEq, Repr, Inhabited

/-- The sixteen chip registers by the names of 10_state R24. -/
inductive RegName where
  | modeR | status | bass | clockf | decodeTime | audata | wram | wramAddr
  | hdat0 | hdat1 | aiAddr | vol | aiCtrl0 | aiCtrl1 | aiCtrl2 | aiCtrl3
  deriving DecidableEq, Repr, Inhabited

/-- Parameter `REGMAP`: the number 0x0 to 0xF of each named register (10_state R24). -/
structure RegMap where
  modeR : BitVec 4
  status : BitVec 4
  bass : BitVec 4
  clockf : BitVec 4
  decodeTime : BitVec 4
  audata : BitVec 4
  wram : BitVec 4
  wramAddr : BitVec 4
  hdat0 : BitVec 4
  hdat1 : BitVec 4
  aiAddr : BitVec 4
  vol : BitVec 4
  aiCtrl0 : BitVec 4
  aiCtrl1 : BitVec 4
  aiCtrl2 : BitVec 4
  aiCtrl3 : BitVec 4
  deriving DecidableEq, Repr, Inhabited

/-- The number of a named register under a register map. -/
def RegMap.num (m : RegMap) : RegName → BitVec 4
  | .modeR => m.modeR
  | .status => m.status
  | .bass => m.bass
  | .clockf => m.clockf
  | .decodeTime => m.decodeTime
  | .audata => m.audata
  | .wram => m.wram
  | .wramAddr => m.wramAddr
  | .hdat0 => m.hdat0
  | .hdat1 => m.hdat1
  | .aiAddr => m.aiAddr
  | .vol => m.vol
  | .aiCtrl0 => m.aiCtrl0
  | .aiCtrl1 => m.aiCtrl1
  | .aiCtrl2 => m.aiCtrl2
  | .aiCtrl3 => m.aiCtrl3

/-- The sixteen numbers in the order of the names. -/
def RegMap.numbers (m : RegMap) : List (BitVec 4) :=
  [m.modeR, m.status, m.bass, m.clockf, m.decodeTime, m.audata, m.wram, m.wramAddr,
   m.hdat0, m.hdat1, m.aiAddr, m.vol, m.aiCtrl0, m.aiCtrl1, m.aiCtrl2, m.aiCtrl3]

/-- The order in which two bytes of a 16-bit quantity are stored: parameters `CAP_BYTE_ORDER` and
`PATCH_BYTE_ORDER` (00_scope section 5.2). -/
inductive ByteOrder where
  | lowFirst | highFirst
  deriving DecidableEq, Repr, Inhabited

/-- Parameter `MULT_ENC`: the clock-register bits of each of the seven solver multipliers `k = 0 .. 6`
(00_scope section 5.2, 44 R105). -/
structure MultEnc where
  k0 : Word
  k1 : Word
  k2 : Word
  k3 : Word
  k4 : Word
  k5 : Word
  k6 : Word
  deriving DecidableEq, Repr, Inhabited

/-- Parameter `B_AICTRL_MAP` with `LINEAR_PCM` and `chsel` (44 R113): which audio-interface control
register takes which recording option on Family B, the linear-PCM mask, and the channel-selection code of
each channel count and source. -/
structure CaptureMapB where
  rateReg : RegName
  gainReg : RegName
  agcReg : RegName
  selReg : RegName
  linearPcm : Word
  chselMonoMic : Word
  chselMonoAux : Word
  chselStereoMic : Word
  chselStereoAux : Word
  deriving DecidableEq, Repr, Inhabited

/-- The five patch tables (43 R92); their content is opaque to the block. -/
structure Tables where
  patch : List Word
  capA : List Word
  capB : List Word
  midiA : List Word
  midiB : List Word
  deriving DecidableEq, Repr, Inhabited

/-- The model's configuration: one field per parameter of 00_scope section 5.2 (log 2). `VOLMAP` is the one
parameter that is a function; it is `Sys2Proof.Machine.volmap` (log 18). The self-test strides are positive
(log 27): the loop has a bounded iteration count (00_scope R9). -/
structure Config where
  /-- `BASE_CLOCK`, Hz. -/
  baseClock : Nat
  /-- `REGMAP`. -/
  regMap : RegMap
  /-- `HAS_RST`. -/
  hasRst : Bool
  /-- `RST_ACTIVE`. -/
  rstActive : Bool
  /-- `CLK_SLOW`, Hz. -/
  clkSlow : Nat
  /-- `CLK_FAST`, Hz. -/
  clkFast : Nat
  /-- `STARTUP_POLLS`. -/
  startupPolls : Nat
  /-- `ST_REG`. -/
  stReg : RegName
  /-- `ST_LIMIT`. -/
  stLimit : Nat
  /-- `ST_STEP[1]`. -/
  stStep1 : ℕ+
  /-- `ST_STEP[2]`. -/
  stStep2 : ℕ+
  /-- `ST_MAXFAIL`. -/
  stMaxFail : Nat
  /-- `T_RST_LOW`, milliseconds. -/
  tRstLow : Nat
  /-- `T_RST_HIGH`, milliseconds. -/
  tRstHigh : Nat
  /-- `CLOCKF_INIT`. -/
  clockfInit : Word
  /-- `AUDATA_INIT`. -/
  audataInit : Word
  /-- `VER_HI`, a bit number of the status register. -/
  verHi : Fin 16
  /-- `VER_LO`, a bit number of the status register. -/
  verLo : Fin 16
  /-- `VER_A`. -/
  verA : Word
  /-- `VER_B`. -/
  verB : Word
  /-- `ENDFILL_ADDR`. -/
  endFillAddr : Word
  /-- `PRIME_LEN`. -/
  primeLen : Nat
  /-- `LOAD_PATCH`. -/
  loadPatch : Bool
  /-- `MIDI_ENTRY_A`. -/
  midiEntryA : Word
  /-- `MIDI_ENTRY_B`. -/
  midiEntryB : Word
  /-- `MIDI_VERIFY_REG`. -/
  midiVerifyReg : RegName
  /-- `MIDI_VERIFY_VAL`. -/
  midiVerifyVal : Word
  /-- `CAP_ENTRY_A`. -/
  capEntryA : Word
  /-- `CLOCKF_BASE_A`. -/
  clockfBaseA : Word
  /-- `MULT_ENC`. -/
  multEnc : MultEnc
  /-- `BIT_REC`. -/
  bitRec : Fin 16
  /-- `BIT_LINE`. -/
  bitLine : Fin 16
  /-- `BIT_RESET`. -/
  bitReset : Fin 16
  /-- `B_AICTRL_MAP`. -/
  captureMapB : CaptureMapB
  /-- `A_DIV_REG`. -/
  aDivReg : RegName
  /-- `A_GAIN_REG`. -/
  aGainReg : RegName
  /-- `CAP_BYTE_ORDER`. -/
  capByteOrder : ByteOrder
  /-- `END_CLEARS_MODE`. -/
  endClearsMode : Bool
  /-- `PATCH_BYTE_ORDER`: for a host that stores a table as bytes; no rule of the block reads it
  (20_memory R45, D10). -/
  patchByteOrder : ByteOrder
  /-- `TABLES`. -/
  tables : Tables
  deriving DecidableEq, Repr, Inhabited

/-- What the spec says of every configuration: `REGMAP` is injective (10_state R24), the version field is
a field of the status register, and the two families have two numbers (44 R99). -/
def Config.valid (c : Config) : Bool :=
  decide c.regMap.numbers.Nodup && decide (c.verLo ≤ c.verHi) && decide (c.verA ≠ c.verB)

/-- The register numbers of 10_state R24's last column, general knowledge and not the source (GK1). PRESUMED,
unsafe if a claim rested on it; none does (log 32). -/
def RegMap.suggested : RegMap :=
  { modeR := 0x0, status := 0x1, bass := 0x2, clockf := 0x3, decodeTime := 0x4, audata := 0x5,
    wram := 0x6, wramAddr := 0x7, hdat0 := 0x8, hdat1 := 0x9, aiAddr := 0xA, vol := 0xB,
    aiCtrl0 := 0xC, aiCtrl1 := 0xD, aiCtrl2 := 0xE, aiCtrl3 := 0xF }

/-- The defaults 00_scope section 5.2 suggests to a simulator; an `OPEN` parameter is 0, false or empty here.
PRESUMED, unsafe if a claim rested on it; none does (log 32). It serves tests, and `Config.params` as the
configuration known to be valid. -/
def Config.suggested : Config :=
  { baseClock := 12288000, regMap := RegMap.suggested, hasRst := false, rstActive := false,
    clkSlow := 200000, clkFast := 4000000, startupPolls := 1, stReg := .vol, stLimit := 0xFFFF,
    stStep1 := 300, stStep2 := 3, stMaxFail := 20, tRstLow := 0, tRstHigh := 0, clockfInit := 0,
    audataInit := 0, verHi := 7, verLo := 4, verA := 3, verB := 4, endFillAddr := 0x1E06, primeLen := 10,
    loadPatch := false, midiEntryA := 0x30, midiEntryB := 0x50, midiVerifyReg := .audata,
    midiVerifyVal := 0xAC45, capEntryA := 0x0030, clockfBaseA := 0,
    multEnc := { k0 := 0x2000, k1 := 0x4000, k2 := 0x6000, k3 := 0x8000, k4 := 0xA000, k5 := 0xC000,
                 k6 := 0xE000 },
    bitRec := 12, bitLine := 14, bitReset := 2,
    captureMapB := { rateReg := .aiCtrl0, gainReg := .aiCtrl1, agcReg := .aiCtrl2, selReg := .aiCtrl3,
                     linearPcm := 0x0004, chselMonoMic := 2, chselMonoAux := 2, chselStereoMic := 0,
                     chselStereoAux := 0 },
    aDivReg := .aiCtrl0, aGainReg := .aiCtrl1, capByteOrder := .lowFirst, endClearsMode := false,
    patchByteOrder := .highFirst,
    tables := { patch := [], capA := [], capB := [], midiA := [], midiB := [] } }

/-- The configuration of the machine: an open value (log 2). DESIGN CHOICE, safe. -/
opaque Config.drawn : Config

/-- The configuration the machine has at reset: the open value where it is valid, so that every valid
configuration is possible and no invalid one is (log 2). -/
def Config.params : Config := if Config.drawn.valid then Config.drawn else Config.suggested

/-- One value for each field whose reset value is "unspecified" in 10_state R27. -/
structure ResetDraw where
  cs : Bool
  dcs : Bool
  rst : Bool
  busClk : Nat
  volume : Nat
  balance : Int
  endFill : Byte
  version : Word
  bassF : Nat
  bassA : Nat
  trebF : Nat
  trebA : Nat
  recRate : Nat
  recCh : Nat
  recGain : Nat
  recAgc : Nat
  recSrc : Source
  /-- 17 bits (10_state R22). -/
  recAchieved : BitVec 17
  /-- 32 bits (10_state R14). -/
  pIdx : BitVec 32
  pLen : BitVec 32
  pAddr : Word
  pCnt : Word
  pVal : Word
  /-- 32 bits (10_state R15). -/
  sPos : BitVec 32
  sRem : BitVec 32
  bestDiff : Frac
  bestK : Fin 7
  bestDiv : Nat
  bestFound : Bool
  deriving DecidableEq, Repr, Inhabited

/-- The draw at reset of 10_state R27 and D6: one value each, of which nothing is known (log 1). DESIGN CHOICE,
safe. -/
opaque Config.resetDraw : ResetDraw

/-- The level one sample of the ready-signal reads, by the draw's number (00_scope R4, D39; log 3). -/
opaque Config.readySample : Nat → Bool

/-- How many samples of one wait read low before the first that reads high, by the draw's number; `none` is a
ready-signal that never reads high again (00_scope R8, 60 R150; log 3). -/
opaque Config.waitLows : Nat → Option Nat

/-- The byte the chip drives in one bidirectional transfer, by the draw's number (00_scope R4; log 4). -/
opaque Config.chipByte : Nat → Byte

/-- `MODE` after a failed `beginMidi` verification, by the draw's number (44 R102, D14; log 19). -/
opaque Config.modeDraw : Nat → Mode

/-- The value of each channel at balance 0, by volume: the part of `VOLMAP` its law 2 speaks of (46 R134; log 18). -/
opaque Config.volFlat : Nat → Byte

/-- The volume word at a volume and a balance other than 0 (46 R134; log 18). -/
opaque Config.volSkew : Nat → Int → Word

end Sys2Proof
end

