-- ==== Sys2Proof/Syntax.lean ====
section
/-!
DEFINITION. The instructions: one constructor of `Instr` per row of opcode_table.json (30_encoding), and the
five formats the rows are written in.
-/
namespace Sys2Proof

/-- The formats of opcode_table.json: wire frames, data-stream bytes, patch records, register values and host
operations (30_encoding sections 1 to 4). -/
inductive Format where
  | frame | stream | patch | regValue | host
  deriving DecidableEq, Repr

/-- The Recording Options, the operand of `beginInput` (10_state R22, 44 R103). -/
structure RecOptions where
  rate : Nat
  channels : Nat
  gain : Int
  agc : Int
  source : Source
  keepHeader : Bool
  deriving DecidableEq, Repr

/-- The field selector of `getState` (46 R137), in the order the rule lists the fields. -/
inductive Selector where
  | volume | balance | bassA | bassF | trebA | trebF | mode | version | family | initOk | recAchieved
  deriving DecidableEq, Repr

/-- One constructor per row of opcode_table.json, in the table's order. -/
inductive Instr where
  /-- `WR_FRAME`: address, value (30 R46). -/
  | wrFrame (a : Byte) (v : Word)
  /-- `RD_FRAME`: address (30 R47). -/
  | rdFrame (a : Byte)
  /-- `DATA_CHUNK`: 1 to 32 payload bytes (30 R59, 42 R75). -/
  | dataChunk (ds : List Byte)
  /-- `PATCH_RLE`: address word, repeat count, the one value word (30 R50). -/
  | patchRle (a : Word) (n : BitVec 15) (v : Word)
  /-- `PATCH_COPY`: address word, the value words; the count is their number (30 R51). -/
  | patchCopy (a : Word) (vs : List Word)
  /-- `EQ_WORD`: treble amplitude, treble frequency, bass amplitude, bass frequency (30 R53). -/
  | eqWord (ta tf ba bf : BitVec 4)
  /-- `controlModeOn`, internal (40 R60). -/
  | controlModeOn
  /-- `controlModeOff`, internal (40 R61). -/
  | controlModeOff
  /-- `dataModeOn`, internal (40 R62). -/
  | dataModeOn
  /-- `dataModeOff`, internal (40 R63). -/
  | dataModeOff
  /-- `waitReady`, internal (40 R65). -/
  | waitReady
  /-- `readRegister`: frame address (41 R67). -/
  | readRegister (a : Byte)
  /-- `writeRegister`: frame address, value (41 R68). -/
  | writeRegister (a : Byte) (v : Word)
  /-- `wramWrite`: chip RAM address, datum (41 R70). -/
  | wramWrite (addr v : Word)
  /-- `wramRead`: chip RAM address (41 R71). -/
  | wramRead (addr : Word)
  /-- `sendBuffer`: payload, length (42 R75). -/
  | sendBuffer (data : List Byte) (len : Nat)
  /-- `sendFillers`: number of filler bytes (42 R76). -/
  | sendFillers (len : Nat)
  /-- `writeAudio`: payload, length (42 R80). -/
  | writeAudio (data : List Byte) (len : Nat)
  /-- `sendMidiMessage`: message length, the message bytes (42 R81). -/
  | sendMidiMessage (n b0 b1 b2 : Byte)
  /-- `loadUserCode`: patch table, number of words (43 R85). -/
  | loadUserCode (words : List Word) (plen : Nat)
  /-- `chipInit` (44 R96). -/
  | chipInit
  /-- `beginOutput` (44 R101). -/
  | beginOutput
  /-- `beginMidi` (44 R102). -/
  | beginMidi
  /-- `beginInput`: recording options (44 R103). -/
  | beginInput (o : RecOptions)
  /-- `end` (44 R108). -/
  | endOp
  /-- `available` (44 R110). -/
  | available
  /-- `readBytes`: where the caller's buffer begins in the payload buffer space, its size (44 R111). -/
  | readBytes (buf n : Nat)
  /-- `softReset` (44 R112). -/
  | softReset
  /-- `solveRate`: target rate (45 R122). -/
  | solveRate (target : Nat)
  /-- `setBassAmplitude` (46 R130). -/
  | setBassAmplitude (a : Int)
  /-- `setBassFrequencyLimit` (46 R131). -/
  | setBassFrequencyLimit (f : Int)
  /-- `setTrebleAmplitude` (46 R132). -/
  | setTrebleAmplitude (a : Int)
  /-- `setTrebleFrequencyLimit` (46 R133). -/
  | setTrebleFrequencyLimit (f : Int)
  /-- `setVolume` (46 R135). -/
  | setVolume (v : Int)
  /-- `setBalance` (46 R136). -/
  | setBalance (b : Int)
  /-- `getState`: field selector (46 R137). -/
  | getState (sel : Selector)
  deriving DecidableEq, Repr

/-- The format of each row (opcode_table.json, "format"). -/
def Instr.format : Instr → Format
  | .wrFrame _ _ => .frame
  | .rdFrame _ => .frame
  | .dataChunk _ => .stream
  | .patchRle _ _ _ => .patch
  | .patchCopy _ _ => .patch
  | .eqWord _ _ _ _ => .regValue
  | .controlModeOn => .host
  | .controlModeOff => .host
  | .dataModeOn => .host
  | .dataModeOff => .host
  | .waitReady => .host
  | .readRegister _ => .host
  | .writeRegister _ _ => .host
  | .wramWrite _ _ => .host
  | .wramRead _ => .host
  | .sendBuffer _ _ => .host
  | .sendFillers _ => .host
  | .writeAudio _ _ => .host
  | .sendMidiMessage _ _ _ _ => .host
  | .loadUserCode _ _ => .host
  | .chipInit => .host
  | .beginOutput => .host
  | .beginMidi => .host
  | .beginInput _ => .host
  | .endOp => .host
  | .available => .host
  | .readBytes _ _ => .host
  | .softReset => .host
  | .solveRate _ => .host
  | .setBassAmplitude _ => .host
  | .setBassFrequencyLimit _ => .host
  | .setTrebleAmplitude _ => .host
  | .setTrebleFrequencyLimit _ => .host
  | .setVolume _ => .host
  | .setBalance _ => .host
  | .getState _ => .host

end Sys2Proof
end

