-- ==== Sys2Proof/WellFormed.lean ====
section
/-!
DEFINITION. Which instructions can be written down: every operand fits the field the encoding gives it, a
payload or a table has exactly the length it is presented with, a chunk has 1 to 32 bytes.
-/
namespace Sys2Proof

/-- A length, a position or a rate fits its 32-bit field (42 R75: 0 to 2^32-1; log 7). -/
def fits32 (n : Nat) : Bool := decide (n < 2 ^ 32)

/-- An integer operand fits its 32-bit two's complement field (log 7). -/
def fitsInt32 (v : Int) : Bool := decide (-(2 ^ 31) ≤ v) && decide (v < 2 ^ 31)

/-- Every operand of the recording options fits its field; the channel count is one byte (log 7). -/
def RecOptions.wellFormed (o : RecOptions) : Bool :=
  fits32 o.rate && decide (o.channels < 256) && fitsInt32 o.gain && fitsInt32 o.agc

/-- The instruction can be encoded. Bit-vector operands always fit; the rest are checked. -/
def Instr.wellFormed : Instr → Bool
  | .wrFrame _ _ => true
  | .rdFrame _ => true
  | .dataChunk ds => decide (1 ≤ ds.length) && decide (ds.length ≤ 32)
  | .patchRle _ _ _ => true
  | .patchCopy _ vs => decide (vs.length < 2 ^ 15)
  | .eqWord _ _ _ _ => true
  | .controlModeOn => true
  | .controlModeOff => true
  | .dataModeOn => true
  | .dataModeOff => true
  | .waitReady => true
  | .readRegister _ => true
  | .writeRegister _ _ => true
  | .wramWrite _ _ => true
  | .wramRead _ => true
  | .sendBuffer data len => decide (data.length = len) && fits32 len
  | .sendFillers len => fits32 len
  | .writeAudio data len => decide (data.length = len) && fits32 len
  | .sendMidiMessage _ _ _ _ => true
  | .loadUserCode words plen => decide (words.length = plen) && fits32 plen
  | .chipInit => true
  | .beginOutput => true
  | .beginMidi => true
  | .beginInput o => o.wellFormed
  | .endOp => true
  | .available => true
  | .readBytes buf n => fits32 buf && fits32 n
  | .softReset => true
  | .solveRate target => fits32 target
  | .setBassAmplitude a => fitsInt32 a
  | .setBassFrequencyLimit f => fitsInt32 f
  | .setTrebleAmplitude a => fitsInt32 a
  | .setTrebleFrequencyLimit f => fitsInt32 f
  | .setVolume v => fitsInt32 v
  | .setBalance b => fitsInt32 b
  | .getState _ => true

end Sys2Proof
end

