-- ==== Sys2Proof/Decode.lean ====
section
/-!
DEFINITION. From bytes to instructions and back. The wire frames, the patch records, the equalizer word and the
8-bit operation codes are the spec's (30_encoding); the byte form of the host operands is the model's own
(log 7): every number high byte first, the one 16-bit order the spec states (20_memory R30).
-/
namespace Sys2Proof

/-- The byte a 16-bit quantity puts on the wire first (20_memory R30). -/
def hiByte (w : Word) : Byte := w.extractLsb' 8 8

/-- The byte a 16-bit quantity puts on the wire second (20_memory R30). -/
def loByte (w : Word) : Byte := w.extractLsb' 0 8

/-- The word whose high byte is `hi` and whose low byte is `lo` (20_memory R30: `value = b1 ++ b0`). -/
def joinBytes (hi lo : Byte) : Word := hi ++ lo

/-- The two bytes of a word, high byte first. -/
def wordBytes (w : Word) : List Byte := [hiByte w, loByte w]

/-- The words of a table as bytes, each word high byte first. -/
def wordsBytes : List Word → List Byte
  | [] => []
  | w :: ws => hiByte w :: loByte w :: wordsBytes ws

/-- The first `n` words of a byte list, each word high byte first. -/
def wordsOf : Nat → List Byte → List Word
  | n + 1, hi :: lo :: rest => joinBytes hi lo :: wordsOf n rest
  | _, _ => []

/-- The four bytes of a 32-bit number, most significant first (log 7). -/
def quadBytes (q : BitVec 32) : List Byte :=
  [q.extractLsb' 24 8, q.extractLsb' 16 8, q.extractLsb' 8 8, q.extractLsb' 0 8]

/-- The 32-bit number of four bytes, most significant first (log 7). -/
def joinQuad (b3 b2 b1 b0 : Byte) : BitVec 32 := b3 ++ b2 ++ b1 ++ b0

/-- Why a byte list is no instruction of its format. -/
inductive DecodeError where
  /-- The bytes end before the instruction does. -/
  | truncated
  /-- A host operation code outside the table of 30 R55. -/
  | noOperation (opc : Byte)
  /-- A frame operation byte other than 0x02 and 0x03 (30 R56). -/
  | noFrame (op : Byte)
  /-- A read frame whose data byte-times are not 0xFF, 0xFF (30 R47). -/
  | readFill
  /-- A chunk of no byte or of more than 32 (42 R75). -/
  | chunkLength
  /-- A selector byte that names no field (log 7). -/
  | operandRange
  deriving DecidableEq, Repr

/-- What decoding answers: an instruction and the bytes after it, or a rejection by name. -/
inductive Decoded where
  | ok (i : Instr) (rest : List Byte)
  | rejected (why : DecodeError)
  deriving DecidableEq, Repr

/-- Takes one byte. -/
def readByte (bs : List Byte) (k : Byte → List Byte → Decoded) : Decoded :=
  match bs with
  | b :: rest => k b rest
  | [] => .rejected .truncated

/-- Takes one word, high byte first. -/
def readWord (bs : List Byte) (k : Word → List Byte → Decoded) : Decoded :=
  match bs with
  | hi :: lo :: rest => k (joinBytes hi lo) rest
  | _ => .rejected .truncated

/-- Takes a 32-bit number. -/
def readQuad (bs : List Byte) (k : BitVec 32 → List Byte → Decoded) : Decoded :=
  match bs with
  | b3 :: b2 :: b1 :: b0 :: rest => k (joinQuad b3 b2 b1 b0) rest
  | _ => .rejected .truncated

/-- Takes an unsigned operand. -/
def readNat (bs : List Byte) (k : Nat → List Byte → Decoded) : Decoded :=
  readQuad bs fun q rest => k q.toNat rest

/-- Takes an integer operand, two's complement. -/
def readInt (bs : List Byte) (k : Int → List Byte → Decoded) : Decoded :=
  readQuad bs fun q rest => k q.toInt rest

/-- Takes `n` bytes. -/
def readMany (n : Nat) (bs : List Byte) (k : List Byte → List Byte → Decoded) : Decoded :=
  if bs.length < n then .rejected .truncated else k (bs.take n) (bs.drop n)

/-- Takes `n` words. -/
def readWords (n : Nat) (bs : List Byte) (k : List Word → List Byte → Decoded) : Decoded :=
  if bs.length < 2 * n then .rejected .truncated else k (wordsOf n bs) (bs.drop (2 * n))

/-- A wire frame (30 R46, R47): four bytes, operation, address, data. -/
def decodeFrame (bs : List Byte) : Decoded :=
  readByte bs fun op rest =>
  readByte rest fun a rest =>
  readWord rest fun v rest =>
  if op = 0x02 then .ok (.wrFrame a v) rest
  else if op = 0x03 then (if v = 0xFFFF then .ok (.rdFrame a) rest else .rejected .readFill)
  else .rejected (.noFrame op)

/-- A chunk of the data stream: all the bytes there are, 1 to 32 (30 R59, 42 R75). -/
def decodeStream (bs : List Byte) : Decoded :=
  if 1 ≤ bs.length ∧ bs.length ≤ 32 then .ok (.dataChunk bs) [] else .rejected .chunkLength

/-- A patch record (30 R49 to R52): bit 15 of the count word tells the two records apart. -/
def decodePatch (bs : List Byte) : Decoded :=
  readWord bs fun a rest =>
  readWord rest fun count rest =>
  if count.getLsbD 15 then readWord rest fun v rest => .ok (.patchRle a (count.extractLsb' 0 15) v) rest
  else readWords (count.extractLsb' 0 15).toNat rest fun vs rest => .ok (.patchCopy a vs) rest

/-- The equalizer word (30 R53): four nibbles from bit 15 down. -/
def decodeRegValue (bs : List Byte) : Decoded :=
  readWord bs fun w rest =>
  .ok (.eqWord (w.extractLsb' 12 4) (w.extractLsb' 8 4) (w.extractLsb' 4 4) (w.extractLsb' 0 4)) rest

/-- The input source of a byte, clamped to the one bit of the option: 0 is the microphone, anything above 0 the
auxiliary (10_state R22; 30 R56). -/
def sourceOf (b : Byte) : Source := if b = 0 then .mic else .aux

/-- The recording options of `beginInput` (log 7): rate, channels, gain, auto-gain, source, keep-header. No value is
rejected: the two one-bit options are clamped to 0 and 1 here, the others where they are stored (30 R56, 44 R104). -/
def decodeOptions (bs : List Byte) (k : RecOptions → List Byte → Decoded) : Decoded :=
  readNat bs fun rate rest =>
  readByte rest fun channels rest =>
  readInt rest fun gain rest =>
  readInt rest fun agc rest =>
  readByte rest fun source rest =>
  readByte rest fun keep rest =>
  k { rate := rate, channels := channels.toNat, gain := gain, agc := agc,
      source := sourceOf source, keepHeader := decide (keep ≠ 0) } rest

/-- The number of a selector: its place in 46 R137's list (log 7). -/
def Selector.code : Selector → Byte
  | .volume => 0
  | .balance => 1
  | .bassA => 2
  | .bassF => 3
  | .trebA => 4
  | .trebF => 5
  | .mode => 6
  | .version => 7
  | .family => 8
  | .initOk => 9
  | .recAchieved => 10

/-- The selector of a number, if any. -/
def selectorOf (b : Byte) : Option Selector :=
  match b.toNat with
  | 0 => some .volume
  | 1 => some .balance
  | 2 => some .bassA
  | 3 => some .bassF
  | 4 => some .trebA
  | 5 => some .trebF
  | 6 => some .mode
  | 7 => some .version
  | 8 => some .family
  | 9 => some .initOk
  | 10 => some .recAchieved
  | _ => none

/-- A host operation (30 R55): an 8-bit code and the operands its rule lists. -/
def decodeHost (bs : List Byte) : Decoded :=
  readByte bs fun opc rest =>
  match opc.toNat with
  | 0x10 => .ok .controlModeOn rest
  | 0x11 => .ok .controlModeOff rest
  | 0x12 => .ok .dataModeOn rest
  | 0x13 => .ok .dataModeOff rest
  | 0x14 => .ok .waitReady rest
  | 0x20 => readByte rest fun a rest => .ok (.readRegister a) rest
  | 0x21 => readByte rest fun a rest => readWord rest fun v rest => .ok (.writeRegister a v) rest
  | 0x22 => readWord rest fun addr rest => readWord rest fun v rest => .ok (.wramWrite addr v) rest
  | 0x23 => readWord rest fun addr rest => .ok (.wramRead addr) rest
  | 0x30 => readNat rest fun len rest => readMany len rest fun data rest => .ok (.sendBuffer data len) rest
  | 0x31 => readNat rest fun len rest => .ok (.sendFillers len) rest
  | 0x32 => readNat rest fun len rest => readMany len rest fun data rest => .ok (.writeAudio data len) rest
  | 0x33 =>
    readByte rest fun n rest => readByte rest fun b0 rest => readByte rest fun b1 rest =>
    readByte rest fun b2 rest => .ok (.sendMidiMessage n b0 b1 b2) rest
  | 0x40 => readNat rest fun plen rest => readWords plen rest fun words rest => .ok (.loadUserCode words plen) rest
  | 0x50 => .ok .chipInit rest
  | 0x51 => .ok .beginOutput rest
  | 0x52 => .ok .beginMidi rest
  | 0x53 => decodeOptions rest fun o rest => .ok (.beginInput o) rest
  | 0x54 => .ok .endOp rest
  | 0x55 => .ok .available rest
  | 0x56 => readNat rest fun buf rest => readNat rest fun n rest => .ok (.readBytes buf n) rest
  | 0x57 => .ok .softReset rest
  | 0x60 => readNat rest fun target rest => .ok (.solveRate target) rest
  | 0x70 => readInt rest fun a rest => .ok (.setBassAmplitude a) rest
  | 0x71 => readInt rest fun f rest => .ok (.setBassFrequencyLimit f) rest
  | 0x72 => readInt rest fun a rest => .ok (.setTrebleAmplitude a) rest
  | 0x73 => readInt rest fun f rest => .ok (.setTrebleFrequencyLimit f) rest
  | 0x74 => readInt rest fun v rest => .ok (.setVolume v) rest
  | 0x75 => readInt rest fun b rest => .ok (.setBalance b) rest
  | 0x76 =>
    readByte rest fun sel rest =>
    match selectorOf sel with
    | some s => .ok (.getState s) rest
    | none => .rejected .operandRange
  | _ => .rejected (.noOperation opc)

/-- Decoding, total on any bytes. The format is not in the bytes: control mode, data mode, the patch port and
the host port each carry one format (20_memory R31). -/
def decode (f : Format) (bs : List Byte) : Decoded :=
  match f with
  | .frame => decodeFrame bs
  | .stream => decodeStream bs
  | .patch => decodePatch bs
  | .regValue => decodeRegValue bs
  | .host => decodeHost bs

/-- The four bytes of an unsigned operand (log 7). -/
def natBytes (n : Nat) : List Byte := quadBytes (BitVec.ofNat 32 n)

/-- The four bytes of an integer operand, two's complement (log 7). -/
def intBytes (v : Int) : List Byte := quadBytes (BitVec.ofInt 32 v)

/-- The byte of an input source: microphone 0, auxiliary 1 (10_state R22). -/
def sourceByte : Source → Byte
  | .mic => 0
  | .aux => 1

/-- The bytes of the recording options (log 7). -/
def optionBytes (o : RecOptions) : List Byte :=
  natBytes o.rate ++ (BitVec.ofNat 8 o.channels :: (intBytes o.gain ++ (intBytes o.agc ++
    [sourceByte o.source, BitVec.ofNat 8 o.keepHeader.toNat])))

/-- The bytes of a well-formed instruction, in its own format (`Instr.format`). -/
def encode : Instr → List Byte
  | .wrFrame a v => 0x02 :: a :: wordBytes v
  | .rdFrame a => [0x03, a, 0xFF, 0xFF]
  | .dataChunk ds => ds
  | .patchRle a n v => wordBytes a ++ wordBytes (1#1 ++ n) ++ wordBytes v
  | .patchCopy a vs => wordBytes a ++ wordBytes (0#1 ++ BitVec.ofNat 15 vs.length) ++ wordsBytes vs
  | .eqWord ta tf ba bf => wordBytes (ta ++ tf ++ ba ++ bf)
  | .controlModeOn => [0x10]
  | .controlModeOff => [0x11]
  | .dataModeOn => [0x12]
  | .dataModeOff => [0x13]
  | .waitReady => [0x14]
  | .readRegister a => [0x20, a]
  | .writeRegister a v => 0x21 :: a :: wordBytes v
  | .wramWrite addr v => 0x22 :: (wordBytes addr ++ wordBytes v)
  | .wramRead addr => 0x23 :: wordBytes addr
  | .sendBuffer data len => 0x30 :: (natBytes len ++ data)
  | .sendFillers len => 0x31 :: natBytes len
  | .writeAudio data len => 0x32 :: (natBytes len ++ data)
  | .sendMidiMessage n b0 b1 b2 => [0x33, n, b0, b1, b2]
  | .loadUserCode words plen => 0x40 :: (natBytes plen ++ wordsBytes words)
  | .chipInit => [0x50]
  | .beginOutput => [0x51]
  | .beginMidi => [0x52]
  | .beginInput o => 0x53 :: optionBytes o
  | .endOp => [0x54]
  | .available => [0x55]
  | .readBytes buf n => 0x56 :: (natBytes buf ++ natBytes n)
  | .softReset => [0x57]
  | .solveRate target => 0x60 :: natBytes target
  | .setBassAmplitude a => 0x70 :: intBytes a
  | .setBassFrequencyLimit f => 0x71 :: intBytes f
  | .setTrebleAmplitude a => 0x72 :: intBytes a
  | .setTrebleFrequencyLimit f => 0x73 :: intBytes f
  | .setVolume v => 0x74 :: intBytes v
  | .setBalance b => 0x75 :: intBytes b
  | .getState sel => [0x76, sel.code]

/-- The low `8 * k` bits of a number as `k` bytes, most significant first. -/
def bigEndian : Nat → Nat → List Byte
  | 0, _ => []
  | k + 1, w => BitVec.ofNat 8 (w / 256 ^ k) :: bigEndian k w

/-- The format and the bytes of an opcode-table word (log 26). The table numbers a frame, a record header and
a whole RLE record with their first byte most significant (30 section 1); bits above `nbits` are 0, so operands
the table gives no bits are zero bytes. Eight bits are a host code, or a chunk of one byte where no operation has that
code. Sixteen bits are a copy header's count word when bit 15 is 0, an
equalizer word when it is 1. -/
def tableLayout (nbits w : Nat) : Format × List Byte :=
  if nbits = 8 then
    match decode .host (bigEndian 1 w ++ List.replicate 15 0) with
    | .ok _ _ => (.host, bigEndian 1 w ++ List.replicate 15 0)
    | .rejected _ => (.stream, bigEndian 1 w)
  else if nbits = 16 then
    if w.testBit 15 then (.regValue, bigEndian 2 w)
    else (.patch, [0, 0] ++ bigEndian 2 w ++ List.replicate (2 * (w % 2 ^ 15)) 0)
  else if nbits = 32 then
    if w / 2 ^ 24 % 256 = 2 ∨ w / 2 ^ 24 % 256 = 3 then (.frame, bigEndian 4 w)
    else if w.testBit 31 then (.patch, [0, 0] ++ bigEndian 4 w)
    else if w.testBit 15 then (.patch, bigEndian 4 w ++ [0, 0])
    else (.patch, bigEndian 4 w ++ List.replicate (2 * (w % 2 ^ 15)) 0)
  else if nbits = 48 then (.patch, bigEndian 6 w)
  else (.stream, bigEndian (nbits / 8) w)

/-- The instruction the decoder reads from an opcode-table word. -/
def decodeTableWord (nbits w : Nat) : Option Instr :=
  match decode (tableLayout nbits w).1 (tableLayout nbits w).2 with
  | .ok i _ => some i
  | .rejected _ => none

end Sys2Proof
end

