-- ==== Sys2Proof/Machine/State.lean ====
section
/-!
DEFINITION. The state of the machine as plain data, what an operation answers, what it emits, and the state at
reset. The fields follow 10_state sections 2 to 4; what is the model's own is said field by field.
-/
namespace Sys2Proof.Machine

/-- The two defects of 60 R141 (codes 16 and 17), as `S.FAULT` records them (10_state R21). -/
inductive FaultCode where
  | patchMalformed | nestedTxn
  deriving DecidableEq, Repr

/-- Why a patch table is malformed (60 R141). -/
inductive PatchReason where
  | outOfBounds | addressTooWide
  deriving DecidableEq, Repr

/-- What a fault carries to the operation's result: for a malformed table the word index and the reason. -/
inductive FaultInfo where
  | patchMalformed (index : Nat) (reason : PatchReason)
  | nestedTxn
  deriving DecidableEq, Repr

/-- The failures reported by value, codes 1 to 7 of 60 R141. -/
inductive FailCode where
  | connectivityFailure | selfTestFailure | unsupportedFamily | guardViolation | solverMiss
  | midiVerifyFailure | badOp
  deriving DecidableEq, Repr

/-- The `st` of a result record (00_scope section 6.4). -/
inductive Status where
  | ok
  | fail (code : FailCode)
  | fault (info : FaultInfo)
  deriving DecidableEq, Repr

/-- The `val` of a result record: absent, a register word, a number (a count, a rate, a cached value, the
sentinel -1), or one of the cached tags `getState` returns (46 R137). -/
inductive Val where
  | absent
  | word (w : Word)
  | num (n : Int)
  | mode (m : Mode)
  | family (f : Family)
  | flag (b : Bool)
  deriving DecidableEq, Repr

/-- The result record `(st, val)` of a host operation (00_scope section 6.4). -/
structure Result where
  st : Status
  val : Val
  deriving DecidableEq, Repr

/-- The pins of the block (10_state R10, C4): chip-select, data-select, ready-signal, reset. -/
inductive Pin where
  | cs | dcs | dreq | rst
  deriving DecidableEq, Repr

/-- The direction a pin is set to (00_scope section 6.3, `PinMode`). -/
inductive Direction where
  | input | output
  deriving DecidableEq, Repr

/-- The severity of a log event (60 R154). -/
inductive Severity where
  | warning | error
  deriving DecidableEq, Repr

/-- The log identifiers of 60 R154. -/
inductive LogId where
  | midiGuard
  | connect
  | selfTest (phase count : Nat)
  | family
  | solver
  | midiVerify
  deriving DecidableEq, Repr

/-- The primitives of 00_scope section 6.3, each an output event of the block. -/
inductive Prim where
  | beginTxn
  | endTxn
  | setClock (hz : Nat)
  | write8 (b : Byte)
  /-- The byte clocked out and the byte captured. -/
  | xfer8 (out captured : Byte)
  | write16 (w : Word)
  | writeBulk (bs : List Byte)
  | pinWrite (p : Pin) (level : Bool)
  /-- A sample of the ready-signal and the level it read. -/
  | sampleDreq (level : Bool)
  | pinMode (p : Pin) (d : Direction)
  | delayMs (n : Nat)
  | yield
  | log (severity : Severity) (id : LogId)
  deriving DecidableEq, Repr

/-- An event of the trace: a primitive with the levels of the two select lines (00_scope section 6.3; log 21). -/
structure Event where
  prim : Prim
  cs : Bool
  dcs : Bool
  deriving DecidableEq, Repr

/-- Bytes by address, sparse: addresses strictly rising (`Memory.wf`). An address not listed holds no value
(log 16). -/
abbrev Memory := List Host.Cell

/-- Words by address, sparse in the same form; the ideal chip's arrays (D28). -/
abbrev WordStore := List (Nat × Word)

/-- The ideal-chip oracle of D28, a test device: its registers and its RAM; an unlisted word is 0 (log 25). -/
structure IdealChip where
  regs : WordStore
  ram : WordStore
  deriving DecidableEq, Repr

/-- What the ready-signal reads once the samples written out in `Env.ready` are used up (log 3). -/
inductive ReadyAfter where
  | high | low | free
  deriving DecidableEq, Repr

/-- The inputs of the block: everything the chip answers (00_scope R4). The model's own field, no state of the
block (10_state section 1). -/
structure Env where
  /-- The ready-signal's coming samples (D39; log 3). -/
  ready : List Bool
  /-- What follows them (log 3). -/
  readyAfter : ReadyAfter
  /-- The bytes coming bidirectional transfers return; then free values (log 4). -/
  miso : List Byte
  /-- How many free values have been taken; the next one's number (log 4). -/
  draws : Nat
  /-- The ideal chip, where a test wants one (D28; log 25). -/
  chip : Option IdealChip
  deriving DecidableEq, Repr

/-- Who presents an operation: the host, or one of the block's own sequences (30 R55, "vis"; log 8). -/
inductive Presenter where
  | host | block
  deriving DecidableEq, Repr

/-- One operation at the port: who presents it, in which format, its bytes (30 R55; log 7, log 8). -/
structure Presented where
  presenter : Presenter
  format : Format
  bytes : List Byte
  deriving DecidableEq, Repr

/-- Why the machine stops with a Lean fault. Every fault of the spec (60 R141) is a result of an operation and a
next state, never one of these. -/
inductive Fault where
  /-- Raised by `sendBuffer` and `writeAudio` when the host's payload has fewer bytes than `length`, a breach of
  its duty to keep `data[0..length-1]` readable (70 R175). Safe: the model stops (log 17). -/
  | payloadUnreadable
  /-- Raised by `loadUserCode` when the host's table has fewer words than `plen`, outside what 20_memory R35
  defines `PW` on. Safe: the model stops (log 17). -/
  | tableUnreadable
  /-- Raised by a `DATA_CHUNK` of no byte or of more than 32, which `WriteBulk` does not take (00_scope section
  6.3). Safe: the model stops (log 12). -/
  | chunkLength
  /-- Raised by a `PATCH_COPY` of more value words than its 15-bit count can say (30 R49). Safe: the model stops
  (log 13). -/
  | recordLength
  deriving DecidableEq, Repr

/-- Why the machine refuses. -/
inductive Refusal where
  /-- An instruction without a meaning yet, raised by no arm of this model. Safe. -/
  | notModelled (mnemonic : String)
  /-- `controlModeOff` or `dataModeOff` with no bracket open: "a model refuses it" (40 R61, R63). Safe (log 10). -/
  | offWithoutBracket
  /-- `sendBuffer`, `sendFillers` or `writeAudio` presented by the host in mode NotActive or Input: the port
  refuses it (42 R82, D17, U1). Safe (log 9). -/
  | streamingOutsideOutput
  deriving DecidableEq, Repr

end Sys2Proof.Machine

namespace Sys2Proof.Machine

/-- The state of the machine: the Device Handle of 10_state R10, the configuration, what the host and the chip
hold towards the block, and what the block has put out. -/
structure State where
  /-- The parameters of 00_scope section 5.2; no step writes them (log 2). -/
  cfg : Config
  /-- `MODE` (10_state R11). -/
  mode : Mode
  /-- `CS`, the chip-select latch (10_state R12); true is high. -/
  cs : Bool
  /-- `DCS`, the data-select latch (10_state R12); true is high. -/
  dcs : Bool
  /-- `RST`, the latch of the optional reset line (10_state R12). -/
  rst : Bool
  /-- `BUS_OWNED` (10_state R13). -/
  busOwned : Bool
  /-- `BUSCLK`, Hz (10_state R13). -/
  busClk : Nat
  /-- `FAULT`, sticky (10_state R21). -/
  fault : Option FaultCode
  /-- `INIT_OK` (10_state R29). -/
  initOk : Bool
  /-- `STFAIL1` (10_state R29). -/
  stFail1 : Nat
  /-- `STFAIL2` (10_state R29). -/
  stFail2 : Nat
  /-- `VOLUME`, 7 bits, 0 to 100 (10_state R16). -/
  volume : Nat
  /-- `BALANCE`, 8 bits, -100 to 100 (10_state R16). -/
  balance : Int
  /-- `ENDFILL` (10_state R17). -/
  endFill : Byte
  /-- `VERSION`, the status register's version field, `VER_HI - VER_LO + 1` bits (10_state R18; log 28). -/
  version : Word
  /-- `FAMILY` (10_state R18). -/
  family : Family
  /-- `CHMULT`, 2 bits; read by no rule (10_state R19, C14). -/
  chMult : Nat
  /-- `BASS_F`, Hz, 14 bits, 0 to 15000 (10_state R20). -/
  bassF : Nat
  /-- `BASS_A`, 7 bits, 0 to 100 (10_state R20). -/
  bassA : Nat
  /-- `TREB_F`, Hz, 14 bits, 0 to 15000 (10_state R20). -/
  trebF : Nat
  /-- `TREB_A`, 7 bits, 0 to 100 (10_state R20). -/
  trebA : Nat
  /-- `REC_RATE`, Hz, 16 bits, 8000 to 48000 (10_state R22). -/
  recRate : Nat
  /-- `REC_CH`, 2 bits, 1 or 2 (10_state R22). -/
  recCh : Nat
  /-- `REC_GAIN`, 7 bits, 0 to 100 (10_state R22). -/
  recGain : Nat
  /-- `REC_AGC`, 7 bits, 0 to 100 (10_state R22). -/
  recAgc : Nat
  /-- `REC_SRC` (10_state R22). -/
  recSrc : Source
  /-- `REC_KEEPHDR` (10_state R22). -/
  recKeepHdr : Bool
  /-- `REC_ACHIEVED`, 17 bits (10_state R22). -/
  recAchieved : Nat
  /-- `PIDX`, the patch program counter, an unbounded integer (10_state R14, D5; log 15); between operations what the
  last one left (log 33). -/
  pIdx : Nat
  /-- `PLEN` (10_state R14; log 15, log 33). -/
  pLen : Nat
  /-- `PADDR` (10_state R14; log 33). -/
  pAddr : Word
  /-- `PCNT` (10_state R14; log 33). -/
  pCnt : Word
  /-- `PVAL` (10_state R14; log 33). -/
  pVal : Word
  /-- `SPOS` (10_state R15; log 15, log 33). -/
  sPos : Nat
  /-- `SREM` (10_state R15; log 15, log 33). -/
  sRem : Nat
  /-- `BEST_DIFF` (10_state R28; log 24). -/
  bestDiff : Frac
  /-- `BEST_K` (10_state R28). -/
  bestK : Nat
  /-- `BEST_DIV` (10_state R28). -/
  bestDiv : Nat
  /-- `BEST_FOUND` (10_state R28). -/
  bestFound : Bool
  /-- The host's payload buffer space BUF, which `readBytes` writes (20_memory R31; log 16). -/
  buf : Memory
  /-- The event trace, oldest first (00_scope section 6.3, D1; log 30). -/
  trace : List Event
  /-- The result record of the last operation that returned (00_scope section 6.4; log 31). -/
  result : Option Result
  /-- The model's own: an operation is in a wait that the ready-signal never ends (60 R150; log 5). -/
  waiting : Bool
  /-- The operations presented and not taken yet, first first (00_scope R1; log 6). -/
  pending : List Presented
  /-- The model's own: the chip's answers to come (00_scope R4; log 3, log 4). -/
  env : Env
  deriving DecidableEq, Repr

/-- Reset is the construction of the Device Handle (70 R160): the stated values of 10_state R27's table, one draw
for every field it calls unspecified, kept inside the field's width and range (10_state R14 to R16, R18, R20, R22,
R28; log 1), no hardware touched (R161), nothing presented. -/
def State.reset : State :=
  let c := Config.params
  let d := Config.resetDraw
  { cfg := c
    mode := .notActive
    cs := d.cs
    dcs := d.dcs
    rst := d.rst
    busOwned := false
    busClk := d.busClk
    fault := none
    initOk := false
    stFail1 := 0
    stFail2 := 0
    volume := min d.volume 100
    balance := max (-100) (min d.balance 100)
    endFill := d.endFill
    version := (d.version.setWidth (c.verHi.val - c.verLo.val + 1)).setWidth 16
    family := .unknown
    chMult := 1
    bassF := min d.bassF 15000
    bassA := min d.bassA 100
    trebF := min d.trebF 15000
    trebA := min d.trebA 100
    recRate := max 8000 (min d.recRate 48000)
    recCh := max 1 (min d.recCh 2)
    recGain := min d.recGain 100
    recAgc := min d.recAgc 100
    recSrc := d.recSrc
    recKeepHdr := false
    recAchieved := d.recAchieved.toNat
    pIdx := d.pIdx.toNat
    pLen := d.pLen.toNat
    pAddr := d.pAddr
    pCnt := d.pCnt
    pVal := d.pVal
    sPos := d.sPos.toNat
    sRem := d.sRem.toNat
    bestDiff := { num := d.bestDiff.num, den := max 1 d.bestDiff.den }
    bestK := d.bestK.val
    bestDiv := max 4 (min d.bestDiv 126)
    bestFound := d.bestFound
    buf := []
    trace := []
    result := none
    waiting := false
    pending := []
    env := { ready := [], readyAfter := .free, miso := [], draws := 0, chip := none } }

end Sys2Proof.Machine
end

