-- ==== Sys2Proof/Machine/Operands.lean ====
section
/-!
DEFINITION. Operand forms: clamps, scalings, packed words, expanded samples, bit fields. Pure functions, no I/O.
-/
namespace Sys2Proof.Machine

/-- `clamp(v, lo, hi) = min(max(v, lo), hi)` (00_scope section 6.1). -/
def clamp (v lo hi : Int) : Int := min (max v lo) hi

/-- Amplitude 0 to 100 on the scale 0 to 15, floor (46 R128). -/
def amp4 (a : Int) : BitVec 4 := BitVec.ofNat 4 ((clamp a 0 100).toNat * 15 / 100)

/-- Treble frequency limit in units of 1000 Hz, at most 15 (46 R129). -/
def tfreq4 (f : Int) : BitVec 4 := BitVec.ofNat 4 (min ((clamp f 0 15000).toNat / 1000) 15)

/-- Bass frequency limit in units of 10 Hz, at most 15 (46 R129). -/
def bfreq4 (f : Int) : BitVec 4 := BitVec.ofNat 4 (min ((clamp f 0 15000).toNat / 10) 15)

/-- The equalizer word of four nibbles (30 R53). -/
def packEq (ta tf ba bf : BitVec 4) : Word := ta ++ tf ++ ba ++ bf

/-- `eqWord()` (46 R130): the packed word of the stored equalizer values. -/
def State.eqWord (s : State) : Word := packEq (amp4 s.trebA) (tfreq4 s.trebF) (amp4 s.bassA) (bfreq4 s.bassF)

/-- Recording gain 0 to 100 on the scale 0 to 1024, floor (44 R104). -/
def gain1024 (g : Nat) : Word := BitVec.ofNat 16 (g * 1024 / 100)

/-- Auto-gain 0 to 100 on the scale 0 to 65535, floor (44 R104). -/
def agc65535 (g : Nat) : Word := BitVec.ofNat 16 (g * 65535 / 100)

/-- The volume word before law 1 is looked at: equal channels at balance 0, so that law 2 holds (46 R134; log 18). -/
def volmapBase (v : Nat) (b : Int) : Word :=
  if b = 0 then joinBytes (Config.volFlat v) (Config.volFlat v) else Config.volSkew v b

/-- `VOLMAP` (46 R134): an open function that satisfies the rule's two laws and of which nothing else is known.
Where the open values make volume 0 and volume 100 equal, the word at 100 is complemented (log 18). -/
def volmap (v : Nat) (b : Int) : Word :=
  if v = 100 ∧ volmapBase 100 b = volmapBase 0 b then ~~~volmapBase 100 b else volmapBase v b

/-- The MIDI-mode expansion: each payload byte becomes the bytes 0x00 and itself (30 R54, D12). -/
def expandMidi : List Byte → List Byte
  | [] => []
  | b :: bs => 0x00 :: b :: expandMidi bs

/-- The message bytes in use: the first `n` of three (42 R81). -/
def midiBytes (n b0 b1 b2 : Byte) : List Byte := [b0, b1, b2].take n.toNat

/-- The largest chunk of the streaming engine, `CHUNK` (00_scope section 5.1). -/
def chunkMax : Nat := 32

/-- The words of the capture header, `HDR_LEN / 2` (44 R107). -/
def headerWords : Nat := 22

/-- A word with one bit set. -/
def withBit (m : Word) (i : Fin 16) : Word := m ||| (1#16 <<< i.val)

/-- A word with one bit cleared. -/
def withoutBit (m : Word) (i : Fin 16) : Word := m &&& ~~~(1#16 <<< i.val)

/-- `MULT_ENC(k)` (44 R105). -/
def multBits (e : MultEnc) (k : Nat) : Word :=
  match k with
  | 0 => e.k0
  | 1 => e.k1
  | 2 => e.k2
  | 3 => e.k3
  | 4 => e.k4
  | 5 => e.k5
  | _ => e.k6

/-- `chsel(channels, source)` (44 R113). -/
def chsel (m : CaptureMapB) (channels : Nat) (source : Source) : Word :=
  match decide (channels = 1), source with
  | true, .mic => m.chselMonoMic
  | true, .aux => m.chselMonoAux
  | false, .mic => m.chselStereoMic
  | false, .aux => m.chselStereoAux

/-- The frame address of a named register: its number in the 8-bit address field (10_state R24, 30 R48). -/
def State.regAddr (s : State) (r : RegName) : Byte := (s.cfg.regMap.num r).zeroExtend 8

/-- The two bytes of a captured word in the order `CAP_BYTE_ORDER` (44 R111). -/
def captureBytes (o : ByteOrder) (w : Word) : Byte × Byte :=
  match o with
  | .lowFirst => (loByte w, hiByte w)
  | .highFirst => (hiByte w, loByte w)

end Sys2Proof.Machine
end

