-- ==== Sys2Proof/Machine/Flags.lean ====
section
/-!
DEFINITION. The one-bit and tag values that steer the block. There are no condition codes (10_state section 2):
what takes their place is the version field, the family tag, the plausibility of the status word, and the
guards on `MODE`.
-/
namespace Sys2Proof.Machine

/-- `st[VER_HI:VER_LO]`, zero-extended (44 R96; log 28). -/
def versionField (c : Config) (st : Word) : Word :=
  (st.extractLsb' c.verLo.val (c.verHi.val - c.verLo.val + 1)).setWidth 16

/-- `family(v)` (44 R99). -/
def familyOf (c : Config) (v : Word) : Family :=
  if v = c.verA then .familyA else if v = c.verB then .familyB else .unknown

/-- The status half of the connectivity check: neither all-zero nor all-ones (44 R97). -/
def statusPlausible (st : Word) : Bool := decide (st ≠ 0x0000) && decide (st ≠ 0xFFFF)

/-- The mode the host must have set before it streams: Output or Midi (42 R82, C6). -/
def streamingMode (m : Mode) : Bool :=
  match m with
  | .output => true
  | .midi => true
  | .notActive => false
  | .input => false

/-- The codes of 60 R141 for the failures. -/
def FailCode.number : FailCode → Nat
  | .connectivityFailure => 1
  | .selfTestFailure => 2
  | .unsupportedFamily => 3
  | .guardViolation => 4
  | .solverMiss => 5
  | .midiVerifyFailure => 6
  | .badOp => 7

/-- The codes of 60 R141 for the faults. -/
def FaultCode.number : FaultCode → Nat
  | .patchMalformed => 16
  | .nestedTxn => 17

/-- The fault code `S.FAULT` takes for a fault (10_state R21). -/
def FaultInfo.code : FaultInfo → FaultCode
  | .patchMalformed _ _ => .patchMalformed
  | .nestedTxn => .nestedTxn

/-- The severity of each log identifier (60 R154). -/
def LogId.severity : LogId → Severity
  | .midiGuard => .warning
  | .connect => .error
  | .selfTest _ _ => .error
  | .family => .error
  | .solver => .error
  | .midiVerify => .error

/-- The number of a mode (10_state R11). -/
def modeNumber : Mode → Nat
  | .notActive => 0
  | .output => 1
  | .input => 2
  | .midi => 3

end Sys2Proof.Machine
end

