-- ==== Sys2Proof/Machine/Ops.lean ====
section
/-!
DEFINITION. The named operations over the state: the sparse stores, the chip's answers, the primitives of
00_scope section 6.3 with the events they emit, the ready-signal wait, raising a fault, and running an operation
to its result record.
-/
namespace Sys2Proof.Machine

/-! ### Sparse stores -/

/-- The value listed at an address, if any. -/
def lookupCell {α : Type} : List (Nat × α) → Nat → Option α
  | [], _ => none
  | (b, w) :: rest, a => if a = b then some w else lookupCell rest a

/-- Writes one cell and keeps the addresses strictly rising. -/
def storeCell {α : Type} : List (Nat × α) → Nat → α → List (Nat × α)
  | [], a, v => [(a, v)]
  | (b, w) :: rest, a, v =>
    if a < b then (a, v) :: (b, w) :: rest
    else if a = b then (a, v) :: rest
    else (b, w) :: storeCell rest a v

/-- The canonical form of a store: addresses strictly rising. -/
def risingCells {α : Type} : List (Nat × α) → Bool
  | [] => true
  | [_] => true
  | (a, _) :: (b, w) :: rest => decide (a < b) && risingCells ((b, w) :: rest)

/-- The canonical form of the payload buffer space. An unlisted address holds no value (log 16), so no entry can
equal what an unlisted address reads as. -/
def Memory.wf (m : Memory) : Bool := risingCells m

/-- One byte of the payload buffer space; `none` where nothing has been written (log 16). -/
def Memory.read (m : Memory) (a : Nat) : Option Byte := lookupCell m a

/-- Writes one byte of the payload buffer space. -/
def Memory.write (m : Memory) (a : Nat) (v : Byte) : Memory := storeCell m a v

/-! ### Operations -/

/-- How an operation ends early: a fault is raised (00_scope section 6.3), or a wait never ends (60 R150). -/
inductive Stop where
  | raised (info : FaultInfo)
  | hung
  deriving DecidableEq, Repr

/-- A sequence of primitives: a function of the state that returns a value or ends early, and keeps the effects
already performed either way (00_scope section 6.3). -/
abbrev Op (α : Type) := EStateM Stop State α

/-- One output event, carrying the levels of the select lines (00_scope section 6.3; log 21). -/
def State.event (s : State) (p : Prim) : Event := { prim := p, cs := s.cs, dcs := s.dcs }

/-- The state with one event appended to the trace. -/
def State.emit (s : State) (p : Prim) : State := { s with trace := s.trace ++ [s.event p] }

/-- Emits one event and changes nothing else. -/
def emit (p : Prim) : Op Unit := fun s => .ok () (s.emit p)

/-- `Log(severity, id)` (00_scope R5, 60 R154). -/
def logEvent (id : LogId) : Op Unit := emit (.log id.severity id)

/-- `S.FAULT` records a fault's code (10_state R21); a later fault writes its own code (log 22). -/
def State.recordFault (s : State) (info : FaultInfo) : State := { s with fault := some info.code }

/-- Taking a fault, the block's exception entry (00_scope section 6.3, 60 R140, R148, R149): the operation stops
here, `S.FAULT` records the code, effects already performed stay, nothing is saved and control goes nowhere else
(60 R153). -/
def raise {α : Type} (info : FaultInfo) : Op α := fun s => .error (.raised info) (s.recordFault info)

/-! ### Transactions, pins, clock -/

/-- `BeginTxn()`: acquires the bus, or raises `NestedTxn` and does nothing else (00_scope section 6.3, 60 R149;
log 20). -/
def beginTxn : Op Unit := fun s =>
  if s.busOwned then raise .nestedTxn s else .ok () ({ s with busOwned := true }.emit .beginTxn)

/-- `EndTxn()`. -/
def endTxn : Op Unit := fun s => .ok () ({ s with busOwned := false }.emit .endTxn)

/-- `SetClock(hz)`. -/
def setClock (hz : Nat) : Op Unit := fun s => .ok () ({ s with busClk := hz }.emit (.setClock hz))

/-- The state with one output latch driven; the ready-signal is an input and has no latch (10_state R12, R23). -/
def State.drive (s : State) (p : Pin) (level : Bool) : State :=
  match p with
  | .cs => { s with cs := level }
  | .dcs => { s with dcs := level }
  | .rst => { s with rst := level }
  | .dreq => s

/-- `PinWrite(p, level)`; the event carries the levels after the write (log 21). -/
def pinWrite (p : Pin) (level : Bool) : Op Unit := fun s => .ok () ((s.drive p level).emit (.pinWrite p level))

/-! ### The chip's answers -/

/-- The level one sample of the ready-signal reads, and the inputs after it (00_scope R4; log 3). -/
def Env.sample (e : Env) : Bool × Env :=
  match e.ready with
  | level :: rest => (level, { e with ready := rest })
  | [] =>
    match e.readyAfter with
    | .high => (true, e)
    | .low => (false, e)
    | .free => (Config.readySample e.draws, { e with draws := e.draws + 1 })

/-- How many samples read low before the first that reads high, and the samples after that one; `none` where the
list has no high sample. -/
def lowRun : List Bool → Nat × Option (List Bool)
  | [] => (0, none)
  | true :: rest => (0, some rest)
  | false :: rest => ((lowRun rest).1 + 1, (lowRun rest).2)

/-- What a wait meets: how many samples read low, and the inputs after the one that read high; `none` where no
sample ever does (00_scope R8, 60 R150; log 3). -/
def Env.wait (e : Env) : Nat × Option Env :=
  match lowRun e.ready with
  | (n, some rest) => (n, some { e with ready := rest })
  | (n, none) =>
    match e.readyAfter with
    | .high => (n, some { e with ready := [] })
    | .low => (n, none)
    | .free =>
      match Config.waitLows e.draws with
      | some m => (n + m, some { e with ready := [], draws := e.draws + 1 })
      | none => (n, none)

/-- The inputs of an operation that hangs: the ready-signal reads low for ever (60 R150; log 5). -/
def Env.stuck (e : Env) : Env := { e with ready := [], readyAfter := .low }

/-- The word an ideal chip holds at a frame address; a read of `WRAM` returns the RAM word at the address held in
`WRAMADDR` (D28; log 25). -/
def IdealChip.answer (c : IdealChip) (m : RegMap) (a : Byte) : Word :=
  if a = (m.num .wram).zeroExtend 8 then
    (lookupCell c.ram ((lookupCell c.regs (m.num .wramAddr).toNat).getD 0).toNat).getD 0
  else (lookupCell c.regs a.toNat).getD 0

/-- An ideal chip after a write frame (D28; log 25). -/
def IdealChip.take (c : IdealChip) (m : RegMap) (a : Byte) (v : Word) : IdealChip :=
  if a = (m.num .wram).zeroExtend 8 then
    { c with ram := storeCell c.ram ((lookupCell c.regs (m.num .wramAddr).toNat).getD 0).toNat v }
  else { c with regs := storeCell c.regs a.toNat v }

/-- The byte one bidirectional transfer returns, and the inputs after it: the next byte written out, else a free
value (00_scope R4; log 4). -/
def Env.byte (e : Env) : Byte × Env :=
  match e.miso with
  | b :: rest => (b, { e with miso := rest })
  | [] => (Config.chipByte e.draws, { e with draws := e.draws + 1 })

/-- The two bytes the data byte-times of a read frame capture, first byte first, and the inputs after them. -/
def Env.answer (e : Env) (m : RegMap) (a : Byte) : Byte × Byte × Env :=
  match e.chip with
  | some c => (hiByte (c.answer m a), loByte (c.answer m a), e)
  | none => (e.byte.1, e.byte.2.byte.1, e.byte.2.byte.2)

/-- The inputs after a write frame: only an ideal chip changes (D28). -/
def Env.take (e : Env) (m : RegMap) (a : Byte) (v : Word) : Env :=
  match e.chip with
  | some c => { e with chip := some (c.take m a v) }
  | none => e

/-- `SampleDREQ()`. -/
def sampleDreq : Op Bool := fun s =>
  .ok s.env.sample.1 ({ s with env := s.env.sample.2 }.emit (.sampleDreq s.env.sample.1))

/-- The events of `n` samples that read low, each followed by a yield (40 R65, 70 R173). -/
def State.lowPolls (s : State) : Nat → List Event
  | 0 => []
  | n + 1 => s.event (.sampleDreq false) :: s.event .yield :: s.lowPolls n

/-- The state after a wait that met `n` low samples and then a high one. -/
def State.waited (s : State) (n : Nat) (e : Env) : State :=
  { s with env := e, trace := s.trace ++ (s.lowPolls n ++ [s.event (.sampleDreq true)]) }

/-- The state in which a wait goes on for ever, after the `n` low samples written out and one more: the mark that an
operation hangs (60 R150; log 5). -/
def State.hanging (s : State) (n : Nat) : State :=
  { s with env := s.env.stuck, trace := s.trace ++ s.lowPolls (n + 1), waiting := true }

/-- `WaitReady()` (00_scope section 6.3, R8; 40 R65): no bound and no timeout; it passes only on a high sample. -/
def waitReady : Op Unit := fun s =>
  match s.env.wait with
  | (n, some e) => .ok () (s.waited n e)
  | (n, none) => .error .hung (s.hanging n)

/-- One more poll of an operation that hangs (60 R150). -/
def State.keepPolling (s : State) : State := { s with trace := s.trace ++ s.lowPolls 1 }

/-! ### Running an operation -/

/-- The state after an operation: its result record, none where it hangs (00_scope section 6.4, 70 R174; log 5,
log 31). -/
def runOp (op : Op Result) (s : State) : State :=
  match op s with
  | .ok r t => { t with result := some r }
  | .error (.raised info) t => { t with result := some { st := .fault info, val := .absent } }
  | .error .hung t => { t with result := none }

/-- The return of an operation without a value, `(OK)` (00_scope section 6.4). -/
def okResult : Result := { st := .ok, val := .absent }

/-- `(OK, v)` with a register word. -/
def okWord (w : Word) : Result := { st := .ok, val := .word w }

/-- `(OK, n)` with a number. -/
def okNum (n : Int) : Result := { st := .ok, val := .num n }

/-- `FAIL(code)` without a value. -/
def failResult (c : FailCode) : Result := { st := .fail c, val := .absent }

/-- `FAIL(BadOp)` from the port: no event, no other change (30 R56). -/
def State.badOp (s : State) : State := { s with result := some (failResult .badOp) }

end Sys2Proof.Machine
end

