-- ==== Sys2Proof/Machine/Transport.lean ====
section
/-!
DEFINITION. The transport session (40_transport_session): the bus bracket and the two select lines.
-/
namespace Sys2Proof.Machine

/-- `controlModeOn` (40 R60): data-select high, then chip-select low. -/
def controlModeOn : Op Unit := do
  beginTxn
  pinWrite .dcs true
  pinWrite .cs false

/-- `controlModeOff` (40 R61): both lines high, then the bus is released. -/
def controlModeOff : Op Unit := do
  pinWrite .cs true
  pinWrite .dcs true
  endTxn

/-- `dataModeOn` (40 R62): chip-select high, then data-select low. -/
def dataModeOn : Op Unit := do
  beginTxn
  pinWrite .cs true
  pinWrite .dcs false

/-- `dataModeOff` (40 R63): both lines high, then the bus is released. -/
def dataModeOff : Op Unit := do
  pinWrite .dcs true
  pinWrite .cs true
  endTxn

/-- The meaning of `controlModeOn` (40 R60). -/
def execControlModeOn (s : State) : Host.Outcome State Fault Refusal :=
  .next (runOp (do controlModeOn; return okResult) s)

/-- The meaning of `controlModeOff` (40 R61). With no bracket open "a model refuses it" (log 10). -/
def execControlModeOff (s : State) : Host.Outcome State Fault Refusal :=
  if s.busOwned then .next (runOp (do controlModeOff; return okResult) s) else .refused .offWithoutBracket

/-- The meaning of `dataModeOn` (40 R62). -/
def execDataModeOn (s : State) : Host.Outcome State Fault Refusal :=
  .next (runOp (do dataModeOn; return okResult) s)

/-- The meaning of `dataModeOff` (40 R63). With no bracket open a model refuses it, as 40 R61 says (log 10). -/
def execDataModeOff (s : State) : Host.Outcome State Fault Refusal :=
  if s.busOwned then .next (runOp (do dataModeOff; return okResult) s) else .refused .offWithoutBracket

/-- The meaning of `waitReady` (40 R65). -/
def execWaitReady (s : State) : Host.Outcome State Fault Refusal :=
  .next (runOp (do waitReady; return okResult) s)

end Sys2Proof.Machine
end

