-- ==== Sys2Proof/Machine/Register.lean ====
section
/-!
DEFINITION. The register protocol (41_register_protocol) and the two wire frames (30_encoding R46, R47).
-/
namespace Sys2Proof.Machine

/-- The four data byte-times of a write frame after the wait is left out: operation, address, value (30 R46). -/
def writeFrameBytes (a : Byte) (v : Word) : Op Unit := do
  emit (.write8 0x02)
  emit (.write8 a)
  emit (.write16 v)

/-- What a write frame does to the inputs: nothing, but for an ideal chip (D28; log 25). -/
def chipTakes (a : Byte) (v : Word) : Op Unit := fun s => .ok () { s with env := s.env.take s.cfg.regMap a v }

/-- The four byte-times of a read frame: operation, address, and two bidirectional transfers of 0xFF that capture
the value, high byte first (30 R47). -/
def readFrameBytes (a : Byte) : Op Word := fun s =>
  let (hi, lo, e) := s.env.answer s.cfg.regMap a
  .ok (joinBytes hi lo)
    (((({ s with env := e }.emit (.write8 0x03)).emit (.write8 a)).emit (.xfer8 0xFF hi)).emit (.xfer8 0xFF lo))

/-- `writeRegister(a, v)` (41 R68): one bracket, one frame, one wait before release (R69). -/
def writeRegister (a : Byte) (v : Word) : Op Unit := do
  controlModeOn
  writeFrameBytes a v
  chipTakes a v
  waitReady
  controlModeOff

/-- `readRegister(a)` (41 R67). -/
def readRegister (a : Byte) : Op Word := do
  controlModeOn
  let v ← readFrameBytes a
  waitReady
  controlModeOff
  return v

/-- A write to a named register (10_state R24). -/
def writeNamed (r : RegName) (v : Word) : Op Unit := do
  let s ← get
  writeRegister (s.regAddr r) v

/-- A read of a named register (10_state R24). -/
def readNamed (r : RegName) : Op Word := do
  let s ← get
  readRegister (s.regAddr r)

/-- `wramWrite(addr, v)` (41 R70): two brackets. -/
def wramWrite (addr v : Word) : Op Unit := do
  writeNamed .wramAddr addr
  writeNamed .wram v

/-- `wramRead(addr)` (41 R71): a write frame, then a read frame (C8). -/
def wramRead (addr : Word) : Op Word := do
  writeNamed .wramAddr addr
  readNamed .wram

/-- The meaning of `WR_FRAME`: the write frame in its bracket, as 41 R68 sends it (log 11). -/
def execWrFrame (a : Byte) (v : Word) (s : State) : Host.Outcome State Fault Refusal :=
  .next (runOp (do writeRegister a v; return okResult) s)

/-- The meaning of `RD_FRAME`: the read frame in its bracket, as 41 R67 sends it (log 11). -/
def execRdFrame (a : Byte) (s : State) : Host.Outcome State Fault Refusal :=
  .next (runOp (do let v ← readRegister a; return okWord v) s)

/-- The meaning of `readRegister` (41 R67, R73). -/
def execReadRegister (a : Byte) (s : State) : Host.Outcome State Fault Refusal :=
  .next (runOp (do let v ← readRegister a; return okWord v) s)

/-- The meaning of `writeRegister` (41 R68, R73). -/
def execWriteRegister (a : Byte) (v : Word) (s : State) : Host.Outcome State Fault Refusal :=
  .next (runOp (do writeRegister a v; return okResult) s)

/-- The meaning of `wramWrite` (41 R70, R72). -/
def execWramWrite (addr v : Word) (s : State) : Host.Outcome State Fault Refusal :=
  .next (runOp (do wramWrite addr v; return okResult) s)

/-- The meaning of `wramRead` (41 R71, R72). -/
def execWramRead (addr : Word) (s : State) : Host.Outcome State Fault Refusal :=
  .next (runOp (do let v ← wramRead addr; return okWord v) s)

end Sys2Proof.Machine
end

