-- ==== Sys2Proof/Machine/Equalizer.lean ====
section
/-!
DEFINITION. The equalizer codec, volume, balance and the cached getters (46_equalizer_volume).
-/
namespace Sys2Proof.Machine

/-- The register write every equalizer setter makes after storing: the packed word, at once (46 R130). -/
def writeEq : Op Unit := do
  let s ← get
  writeNamed .bass s.eqWord

/-- The register write of the volume and balance setters (46 R135, R136). -/
def writeVolume : Op Unit := do
  let s ← get
  writeNamed .vol (volmap s.volume s.balance)

/-- `S.sel`, the cached field a selector names (46 R137). -/
def State.selected (s : State) : Selector → Val
  | .volume => .num s.volume
  | .balance => .num s.balance
  | .bassA => .num s.bassA
  | .bassF => .num s.bassF
  | .trebA => .num s.trebA
  | .trebF => .num s.trebF
  | .mode => .mode s.mode
  | .version => .word s.version
  | .family => .family s.family
  | .initOk => .flag s.initOk
  | .recAchieved => .num s.recAchieved

/-- The meaning of `EQ_WORD`: the value carried to the bass register by a write frame; no cached field changes
(30 R53, 41 R68; log 14). -/
def execEqWord (ta tf ba bf : BitVec 4) (s : State) : Host.Outcome State Fault Refusal :=
  .next (runOp (do writeNamed .bass (packEq ta tf ba bf); return okResult) s)

/-- The meaning of `setBassAmplitude` (46 R130). -/
def execSetBassAmplitude (a : Int) (s : State) : Host.Outcome State Fault Refusal :=
  .next (runOp (do
    modify fun t => { t with bassA := (clamp a 0 100).toNat }
    writeEq
    return okResult) s)

/-- The meaning of `setBassFrequencyLimit` (46 R131). -/
def execSetBassFrequencyLimit (f : Int) (s : State) : Host.Outcome State Fault Refusal :=
  .next (runOp (do
    modify fun t => { t with bassF := (clamp f 0 15000).toNat }
    writeEq
    return okResult) s)

/-- The meaning of `setTrebleAmplitude` (46 R132). -/
def execSetTrebleAmplitude (a : Int) (s : State) : Host.Outcome State Fault Refusal :=
  .next (runOp (do
    modify fun t => { t with trebA := (clamp a 0 100).toNat }
    writeEq
    return okResult) s)

/-- The meaning of `setTrebleFrequencyLimit` (46 R133). -/
def execSetTrebleFrequencyLimit (f : Int) (s : State) : Host.Outcome State Fault Refusal :=
  .next (runOp (do
    modify fun t => { t with trebF := (clamp f 0 15000).toNat }
    writeEq
    return okResult) s)

/-- The meaning of `setVolume` (46 R135, D33). -/
def execSetVolume (v : Int) (s : State) : Host.Outcome State Fault Refusal :=
  .next (runOp (do
    modify fun t => { t with volume := (clamp v 0 100).toNat }
    writeVolume
    return okResult) s)

/-- The meaning of `setBalance` (46 R136, D33). -/
def execSetBalance (b : Int) (s : State) : Host.Outcome State Fault Refusal :=
  .next (runOp (do
    modify fun t => { t with balance := clamp b (-100) 100 }
    writeVolume
    return okResult) s)

/-- The meaning of `getState` (46 R137): the cached field, no bus event. -/
def execGetState (sel : Selector) (s : State) : Host.Outcome State Fault Refusal :=
  .next (runOp (do
    let t ← get
    return { st := .ok, val := t.selected sel }) s)

end Sys2Proof.Machine
end

