-- ==== Sys2Proof/Machine/Stream.lean ====
section
/-!
DEFINITION. The streaming engine (42_streaming_engine): chunks of at most 32 bytes, one wait before each, one
bracket around all; fillers, output writes and MIDI messages.
-/
namespace Sys2Proof.Machine

/-- One chunk of the engine's loop after its wait: `c` bytes out, the cursor moved by `c` (42 R75, 10_state R15). -/
def sendChunk (ds : List Byte) (c : Nat) : Op Unit := do
  emit (.writeBulk ds)
  modify fun s => { s with sPos := s.sPos + c, sRem := s.sRem - c }

/-- The loop of `sendBuffer` (42 R75): test, wait, chunk. The first argument bounds the chunks; the length of the
payload is enough. -/
def sendLoop (data : List Byte) : Nat → Op Unit
  | 0 => pure ()
  | fuel + 1 => do
    let s ← get
    if s.sRem = 0 then pure () else do
      waitReady
      sendChunk ((data.drop s.sPos).take (min s.sRem chunkMax)) (min s.sRem chunkMax)
      sendLoop data fuel

/-- `sendBuffer(data, length)` (42 R75, R83). Between operations the cursor keeps what the last one left (log 33). -/
def sendBuffer (data : List Byte) (len : Nat) : Op Unit := do
  modify fun s => { s with sPos := 0, sRem := len }
  dataModeOn
  sendLoop data len
  dataModeOff

/-- The loop of `sendFillers` (42 R76). -/
def fillLoop : Nat → Op Unit
  | 0 => pure ()
  | fuel + 1 => do
    let s ← get
    if s.sRem = 0 then pure () else do
      waitReady
      emit (.writeBulk (List.replicate (min s.sRem chunkMax) s.endFill))
      modify fun t => { t with sRem := t.sRem - min s.sRem chunkMax }
      fillLoop fuel

/-- `sendFillers(length)` (42 R76): every byte is the cached end-fill byte. -/
def sendFillers (len : Nat) : Op Unit := do
  modify fun s => { s with sRem := len }
  dataModeOn
  fillLoop len
  dataModeOff

/-- `writeAudio(data, length)` (42 R80): expanded in Midi mode, unchanged in every other mode. -/
def writeAudio (data : List Byte) (len : Nat) : Op Unit := do
  let s ← get
  if s.mode = .midi then sendBuffer (expandMidi (data.take len)) (2 * len) else sendBuffer data len

/-- `sendMidiMessage` (42 R81): a message length outside 1 to 3 is refused by value before the guard is reached
(30 R56, D13); outside Midi mode one warning is logged and nothing else happens (60 R145). -/
def sendMidiMessage (n b0 b1 b2 : Byte) : Op Result := do
  if n.toNat < 1 ∨ 3 < n.toNat then return failResult .badOp
  else do
    let s ← get
    if s.mode = .midi then do
      sendBuffer (expandMidi (midiBytes n b0 b1 b2)) (2 * n.toNat)
      return okResult
    else do
      logEvent .midiGuard
      return failResult .guardViolation

/-- A bracket is open in data mode (40 R62). -/
def State.inDataMode (s : State) : Bool := s.busOwned && s.cs && !s.dcs

/-- The meaning of `DATA_CHUNK`: inside an open data-mode bracket the next chunk of the run, wait first (42 R75,
R77); otherwise a run of its own (log 12). -/
def execDataChunk (ds : List Byte) (s : State) : Host.Outcome State Fault Refusal :=
  if ds.length < 1 ∨ chunkMax < ds.length then .fault .chunkLength
  else if s.inDataMode then .next (runOp (do waitReady; sendChunk ds ds.length; return okResult) s)
  else .next (runOp (do sendBuffer ds ds.length; return okResult) s)

/-- The meaning of `sendBuffer` (42 R75). The port has its own rule about the mode (42 R82; log 9). -/
def execSendBuffer (data : List Byte) (len : Nat) (s : State) : Host.Outcome State Fault Refusal :=
  if data.length < len then .fault .payloadUnreadable
  else .next (runOp (do sendBuffer data len; return okResult) s)

/-- The meaning of `sendFillers` (42 R76). -/
def execSendFillers (len : Nat) (s : State) : Host.Outcome State Fault Refusal :=
  .next (runOp (do sendFillers len; return okResult) s)

/-- The meaning of `writeAudio` (42 R80). -/
def execWriteAudio (data : List Byte) (len : Nat) (s : State) : Host.Outcome State Fault Refusal :=
  if data.length < len then .fault .payloadUnreadable
  else .next (runOp (do writeAudio data len; return okResult) s)

/-- The meaning of `sendMidiMessage` (42 R81). -/
def execSendMidiMessage (n b0 b1 b2 : Byte) (s : State) : Host.Outcome State Fault Refusal :=
  .next (runOp (sendMidiMessage n b0 b1 b2) s)

end Sys2Proof.Machine
end

