-- ==== Sys2Proof/Machine/Patch.lean ====
section
/-!
DEFINITION. The patch loader (43_patch_loader): an interpreter of two records whose program counter is `PIDX` and
whose only effect is register writes.
-/
namespace Sys2Proof.Machine

/-- `PW(i)` (20_memory R35): the `i`-th word of the table, or `PatchMalformed(i, OutOfBounds)`. -/
def patchWord (words : List Word) (i : Nat) : Op Word := fun s =>
  if i < s.pLen then .ok (words.getD i 0) s else raise (.patchMalformed i .outOfBounds) s

/-- `PADDR <- a`, and the fault on an address above 0xFF, before the count word is read (43 R89). -/
def takeAddress (a : Word) : Op Unit := do
  modify fun s => { s with pAddr := a }
  let s ← get
  if hiByte a = 0 then pure () else raise (.patchMalformed s.pIdx .addressTooWide)

/-- `PCNT <- count`, and the cursor past the two header words (43 R85). -/
def takeCount (count : Word) : Op Unit := modify fun s => { s with pCnt := count, pIdx := s.pIdx + 2 }

/-- `PVAL <- v`, and the cursor past the value word (43 R86, R87). -/
def takeValue (v : Word) : Op Unit := modify fun s => { s with pVal := v, pIdx := s.pIdx + 1 }

/-- `writeRegister(PADDR[7:0], PVAL)`: one whole frame (43 R93). -/
def writeValue : Op Unit := do
  let s ← get
  writeRegister (loByte s.pAddr) s.pVal

/-- The `n` writes of an RLE record (43 R86). -/
def repeatWrite : Nat → Op Unit
  | 0 => pure ()
  | n + 1 => do
    writeValue
    repeatWrite n

/-- `exec_rle(n)` (43 R86): the value word is read once. -/
def loadRle (words : List Word) (n : Nat) : Op Unit := do
  let s ← get
  let v ← patchWord words s.pIdx
  takeValue v
  repeatWrite n

/-- `exec_copy(n)` (43 R87): each value is read just before it is written. -/
def loadCopy (words : List Word) : Nat → Op Unit
  | 0 => pure ()
  | n + 1 => do
    let s ← get
    let v ← patchWord words s.pIdx
    takeValue v
    writeValue
    loadCopy words n

/-- One record at `PIDX` (43 R85). -/
def loadRecord (words : List Word) : Op Unit := do
  let s ← get
  let a ← patchWord words s.pIdx
  takeAddress a
  let count ← patchWord words (s.pIdx + 1)
  takeCount count
  if count.getLsbD 15 then loadRle words (count.extractLsb' 0 15).toNat
  else loadCopy words (count.extractLsb' 0 15).toNat

/-- The loop of `loadUserCode` (43 R85). The second argument bounds the records; the length of the table is
enough, since a record takes two words at least. -/
def loadLoop (words : List Word) : Nat → Op Unit
  | 0 => pure ()
  | fuel + 1 => do
    let s ← get
    if s.pIdx < s.pLen then do
      loadRecord words
      loadLoop words fuel
    else pure ()

/-- `loadUserCode(words, plen)` (43 R85). Between loads the loader's registers keep what the last load left, a choice of
the model where 10_state R14 calls their values unspecified (log 33). -/
def loadUserCode (words : List Word) (plen : Nat) : Op Unit := do
  modify fun s => { s with pLen := plen, pIdx := 0 }
  loadLoop words plen

/-- The load of a whole table (44 R117: `loadUserCode(T, len(T))`). -/
def loadTable (words : List Word) : Op Unit := loadUserCode words words.length

/-- The values of a copy record presented on its own (43 R87; log 13). -/
def copyValues : List Word → Op Unit
  | [] => pure ()
  | v :: vs => do
    takeValue v
    writeValue
    copyValues vs

/-- The meaning of `PATCH_RLE` (43 R86, R89, R90): the record's words come with it, the cursor moves by 3
(log 13). -/
def execPatchRle (a : Word) (n : BitVec 15) (v : Word) (s : State) : Host.Outcome State Fault Refusal :=
  .next (runOp (do
    takeAddress a
    takeCount (1#1 ++ n)
    takeValue v
    repeatWrite n.toNat
    return okResult) s)

/-- The meaning of `PATCH_COPY` (43 R87, R89, R90): the cursor moves by 2 and the number of values (log 13). -/
def execPatchCopy (a : Word) (vs : List Word) (s : State) : Host.Outcome State Fault Refusal :=
  if vs.length < 2 ^ 15 then
    .next (runOp (do
      takeAddress a
      takeCount (0#1 ++ BitVec.ofNat 15 vs.length)
      copyValues vs
      return okResult) s)
  else .fault .recordLength

/-- The meaning of `loadUserCode` (43 R85). -/
def execLoadUserCode (words : List Word) (plen : Nat) (s : State) : Host.Outcome State Fault Refusal :=
  if words.length < plen then .fault .tableUnreadable
  else .next (runOp (do loadUserCode words plen; return okResult) s)

end Sys2Proof.Machine
end

