-- ==== Sys2Proof/Machine/Solver.lean ====
section
/-!
DEFINITION. The sample-rate solver (45_sample_rate_solver): 7 multipliers crossed with dividers 4 to 126, exact
rationals, first best from above.
-/
namespace Sys2Proof.Machine

/-- `rate(k, div)` (45 R121). -/
def solverRate (base k div : Nat) : Frac := { num := (k + 4) * base, den := 512 * div }

/-- `f < g` for rationals with positive denominators. -/
def fracLess (f g : Frac) : Bool := decide (f.num * g.den < g.num * f.den)

/-- `f < t` for a rational with a positive denominator and a whole number. -/
def fracBelow (f : Frac) (t : Nat) : Bool := decide (f.num < t * f.den)

/-- `r - target`, for a rate not below the target (45 R122). -/
def excess (r : Frac) (target : Nat) : Frac := { num := r.num - target * r.den, den := r.den }

/-- The best point so far (10_state R28). -/
structure SolverBest where
  diff : Frac
  k : Nat
  div : Nat
  found : Bool
  deriving DecidableEq, Repr

/-- The update of the best at one candidate: strictly smaller only (45 R122, R124). -/
def betterOf (best : SolverBest) (d : Frac) (k div : Nat) : SolverBest :=
  if fracLess d best.diff then { diff := d, k := k, div := div, found := true } else best

/-- One multiplier's scan of `n` dividers from `div` up: the best after it, and the point of an exact match where
one ended the whole search (45 R122, R123, R125). With base clock 0 and target 0 the first point is such a match
(log 34). -/
def scanDividers (base target k : Nat) : Nat → Nat → SolverBest → SolverBest × Option (Nat × Nat)
  | 0, _, best => (best, none)
  | n + 1, div, best =>
    if fracBelow (solverRate base k div) target then (best, none)
    else if (excess (solverRate base k div) target).num = 0 then
      (betterOf best (excess (solverRate base k div) target) k div, some (k, div))
    else
      scanDividers base target k n (div + 1) (betterOf best (excess (solverRate base k div) target) k div)

/-- The scan of `n` multipliers from `k` up, each over the 123 dividers 4 to 126 (45 R120, R122). -/
def scanMultipliers (base target : Nat) : Nat → Nat → SolverBest → SolverBest × Option (Nat × Nat)
  | 0, _, best => (best, none)
  | n + 1, k, best =>
    match scanDividers base target k 123 4 best with
    | (best', some point) => (best', some point)
    | (best', none) => scanMultipliers base target n (k + 1) best'

/-- The point a finished search answers: the exact match, else the best found, else none (45 R122). -/
def answerOf (out : SolverBest × Option (Nat × Nat)) : Option (Nat × Nat) :=
  match out with
  | (_, some point) => some point
  | (best, none) => if best.found then some (best.k, best.div) else none

/-- The whole search from the starting bound, the distance from the target to zero (45 R122). `k0`, `div0` are what
the scratch fields hold before. -/
def searchFrom (base target k0 div0 : Nat) : SolverBest × Option (Nat × Nat) :=
  scanMultipliers base target 7 0 { diff := { num := target, den := 1 }, k := k0, div := div0, found := false }

/-- The answer of `solve(target)`: `(k, div)`, or nothing (45 R122). It does not depend on the scratch fields. -/
def solverPoint (base target : Nat) : Option (Nat × Nat) := answerOf (searchFrom base target 0 0)

/-- The reported rate: the floor of the exact rational (45 R127). -/
def achievedRate (base k div : Nat) : Nat := (solverRate base k div).num / (solverRate base k div).den

/-- `solve(target)`: writes the scratch fields of 10_state R28 and nothing else (45 R122; log 24). -/
def solve (target : Nat) : Op (Option (Nat × Nat)) := fun s =>
  let out := searchFrom s.cfg.baseClock target s.bestK s.bestDiv
  .ok (answerOf out)
    { s with bestDiff := out.1.diff, bestK := out.1.k, bestDiv := out.1.div, bestFound := out.1.found }

/-- A solver miss: `FAIL(SolverMiss)` with the sentinel -1 (45 R122, 60 R147). -/
def solverMiss : Result := { st := .fail .solverMiss, val := .num (-1) }

/-- The meaning of `solveRate` (45 R122). -/
def execSolveRate (target : Nat) (s : State) : Host.Outcome State Fault Refusal :=
  .next (runOp (do
    let point ← solve target
    match point with
    | some (k, div) => return okNum (achievedRate s.cfg.baseClock k div)
    | none => return solverMiss) s)

end Sys2Proof.Machine
end

