-- ==== Sys2Proof/Machine/ModeMachine.lean ====
section
/-!
DEFINITION. The mode state machine (44_mode_state_machine): chip initialisation, the three begin-calls, the exit,
the soft reset and the guarded capture reads.
-/
namespace Sys2Proof.Machine

/-! ### Chip initialisation -/

/-- Step 1 of `chipInit`: the pins and the optional reset pulse (44 R96). The delays are recorded only (70 R166). -/
def resetPins : Op Unit := do
  emit (.pinMode .dreq .input)
  emit (.pinMode .cs .output)
  emit (.pinMode .dcs .output)
  pinWrite .cs true
  pinWrite .dcs true
  let s ← get
  if s.cfg.hasRst then do
    emit (.pinMode .rst .output)
    pinWrite .rst s.cfg.rstActive
    emit (.delayMs s.cfg.tRstLow)
    pinWrite .rst (!s.cfg.rstActive)
    emit (.delayMs s.cfg.tRstHigh)
  else pure ()

/-- The ready-signal half of the connectivity check: at most `n` samples (44 R97, D23). -/
def connectivityCheck : Nat → Op Bool
  | 0 => return false
  | n + 1 => do
    let level ← sampleDreq
    if level then return true
    else do
      emit .yield
      connectivityCheck n

/-- The loop of one self-test phase (44 R98): `i` is the pattern, `fails` the mismatches so far; the first argument
bounds the iterations, and `ST_LIMIT` is enough because a stride is positive (log 27). -/
def selfTestLoop (stride : ℕ+) : Nat → Nat → Nat → Op Nat
  | 0, _, fails => return fails
  | fuel + 1, i, fails => do
    let s ← get
    if i < s.cfg.stLimit ∧ fails < s.cfg.stMaxFail then do
      writeNamed s.cfg.stReg (BitVec.ofNat 16 i)
      let r ← readNamed s.cfg.stReg
      selfTestLoop stride fuel (i + stride) (if r ≠ BitVec.ofNat 16 i then fails + 1 else fails)
    else return fails

/-- `selfTest(p)` (44 R98): the mismatches of phase `p`, logged where there are any. -/
def selfTest (phase : Nat) (stride : ℕ+) : Op Nat := do
  let s ← get
  let fails ← selfTestLoop stride s.cfg.stLimit 0 0
  if 0 < fails then do
    logEvent (.selfTest phase fails)
    return fails
  else return fails

/-- Steps 2 and 3 of `chipInit`: the speed ramp with a self-test phase at each speed, and the ready-signal check
(44 R96, R97, R98). -/
def probeBus : Op Bool := do
  let s ← get
  setClock s.cfg.clkSlow
  let c ← connectivityCheck s.cfg.startupPolls
  let fails1 ← selfTest 1 s.cfg.stStep1
  modify fun t => { t with stFail1 := fails1 }
  setClock s.cfg.clkFast
  let fails2 ← selfTest 2 s.cfg.stStep2
  modify fun t => { t with stFail2 := fails2 }
  return c

/-- Steps 4 and 5 of `chipInit` and the end-fill byte (44 R96, R99, R100): the clock and sample-rate registers, the
family from the status word, the low byte of the RAM word. It answers the status word. -/
def programChip : Op Word := do
  let s ← get
  writeNamed .clockf s.cfg.clockfInit
  writeNamed .audata s.cfg.audataInit
  let st ← readNamed .status
  modify fun t => { t with version := versionField t.cfg st, family := familyOf t.cfg (versionField t.cfg st) }
  let w ← wramRead s.cfg.endFillAddr
  modify fun t => { t with endFill := loByte w }
  return st

/-- The result of `chipInit` (44 R96): a failed connectivity check comes before a failed self-test (60 R152). -/
def initVerdict (connected : Bool) : Op Result := do
  modify fun t => { t with initOk := connected && decide (t.stFail1 = 0) && decide (t.stFail2 = 0) }
  let t ← get
  if connected then
    if 0 < t.stFail1 ∨ 0 < t.stFail2 then return failResult .selfTestFailure else return okResult
  else do
    logEvent .connect
    return failResult .connectivityFailure

/-- `chipInit()` (44 R96): every step runs whatever the checks found. -/
def chipInit : Op Result := do
  resetPins
  let ready ← probeBus
  let st ← programChip
  initVerdict (ready && statusPlausible st)

/-! ### Entry operations -/

/-- `beginOutput()` (44 R101, D15): the mode is set whatever `chipInit` answered, the fillers go out before the
optional patch. -/
def beginOutput : Op Result := do
  let r ← chipInit
  modify fun t => { t with mode := .output }
  let s ← get
  sendFillers s.cfg.primeLen
  if s.family = .familyB ∧ s.cfg.loadPatch = true then do
    loadTable s.cfg.tables.patch
    return r
  else return r

/-- A failed `beginMidi` verification "leaves Mode unresolved": a free value over the four modes (44 R102, D14;
log 19). -/
def drawMode : Op Unit :=
  modify fun s => { s with mode := Config.modeDraw s.env.draws, env := { s.env with draws := s.env.draws + 1 } }

/-- `beginMidi()` from the family's table and entry point on (44 R102). -/
def startMidi (table : List Word) (entry : Word) : Op Result := do
  loadTable table
  writeNamed .aiAddr entry
  let s ← get
  let v ← readNamed s.cfg.midiVerifyReg
  if v = s.cfg.midiVerifyVal then do
    modify fun t => { t with mode := .midi }
    return okResult
  else do
    logEvent .midiVerify
    drawMode
    return failResult .midiVerifyFailure

/-- A begin-call on a family that is neither of the two: one log event, nothing programmed (60 R144). -/
def unsupported : Op Result := do
  logEvent .family
  return failResult .unsupportedFamily

/-- `beginMidi()` (44 R102): the family test comes before the load. -/
def beginMidi : Op Result := do
  let _ ← chipInit
  let s ← get
  match s.family with
  | .unknown => unsupported
  | .familyA => startMidi s.cfg.tables.midiA s.cfg.midiEntryA
  | .familyB => startMidi s.cfg.tables.midiB s.cfg.midiEntryB

/-- `storeOptions(o)` (44 R104). The channel count is clamped to the two values admitted (30 R56; log 23). -/
def State.withOptions (s : State) (o : RecOptions) : State :=
  { s with
    recRate := (clamp o.rate 8000 48000).toNat
    recCh := (clamp o.channels 1 2).toNat
    recGain := (clamp o.gain 0 100).toNat
    recAgc := (clamp o.agc 0 100).toNat
    recSrc := o.source
    recKeepHdr := o.keepHeader }

/-- Sets a bit of the mode register by read-modify-write, its other bits kept (44 R105, D25). -/
def setModeBits (f : Word → Word) : Op Unit := do
  let m ← readNamed .modeR
  writeNamed .modeR (f m)

/-- Family A input setup from the solved point on (44 R105). -/
def programCaptureA (k div : Nat) : Op Unit := do
  let s ← get
  writeNamed .clockf (s.cfg.clockfBaseA ||| multBits s.cfg.multEnc k)
  writeNamed s.cfg.aDivReg (BitVec.ofNat 16 div)
  writeNamed s.cfg.aGainReg (gain1024 s.recGain)
  setModeBits fun m => withBit m s.cfg.bitRec
  writeNamed .aiAddr s.cfg.capEntryA
  modify fun t => { t with recAchieved := achievedRate t.cfg.baseClock k div }

/-- `inputSetupA()` (44 R105): microcode, solver, registers; a miss aborts before the clock register (60 R147). -/
def inputSetupA : Op Result := do
  let s ← get
  loadTable s.cfg.tables.capA
  let point ← solve s.recRate
  match point with
  | some (k, div) => do
    programCaptureA k div
    return okResult
  | none => do
    logEvent .solver
    return solverMiss

/-- `stripHeader()` (44 R107): reads of the stream data register, values discarded. -/
def stripHeader : Nat → Op Unit
  | 0 => pure ()
  | n + 1 => do
    let _ ← readNamed .hdat0
    stripHeader n

/-- The header strip of Family B capture, unless the header is kept (44 R107). -/
def skipHeader (keep : Bool) : Op Unit := if keep then pure () else stripHeader headerWords

/-- The mode register bits of Family B capture: recording-active, and line-input for the auxiliary source (44 R106). -/
def State.captureBitsB (s : State) (m : Word) : Word :=
  match s.recSrc with
  | .mic => withBit m s.cfg.bitRec
  | .aux => withBit (withBit m s.cfg.bitRec) s.cfg.bitLine

/-- `inputSetupB()` (44 R106, R113): registers, mode bits, then the microcode, then the header strip. -/
def inputSetupB : Op Result := do
  let s ← get
  writeNamed s.cfg.captureMapB.rateReg (BitVec.ofNat 16 s.recRate)
  writeNamed s.cfg.captureMapB.gainReg (gain1024 s.recGain)
  writeNamed s.cfg.captureMapB.agcReg (agc65535 s.recAgc)
  writeNamed s.cfg.captureMapB.selReg (chsel s.cfg.captureMapB s.recCh s.recSrc ||| s.cfg.captureMapB.linearPcm)
  setModeBits s.captureBitsB
  loadTable s.cfg.tables.capB
  skipHeader s.recKeepHdr
  modify fun t => { t with recAchieved := t.recRate }
  return okResult

/-- The end of `beginInput`: on success the mode is Input and the achieved rate is the value (44 R103). -/
def enterInput (r : Result) : Op Result := do
  if r.st = .ok then do
    modify fun t => { t with chMult := t.recCh, mode := .input }
    let t ← get
    return okNum t.recAchieved
  else return r

/-- `beginInput(options)` (44 R103). -/
def beginInput (o : RecOptions) : Op Result := do
  modify fun s => s.withOptions o
  let _ ← chipInit
  let s ← get
  match s.family with
  | .unknown => unsupported
  | .familyA => do
    let r ← inputSetupA
    enterInput r
  | .familyB => do
    let r ← inputSetupB
    enterInput r

/-! ### Exit, soft reset, capture reads -/

/-- `softReset()` (44 R112). -/
def softReset : Op Unit := do
  let s ← get
  setModeBits fun m => withBit m s.cfg.bitReset

/-- `end()` (44 R108): `MODE` changes only under `END_CLEARS_MODE` (C7, D16). -/
def endSession : Op Unit := do
  let s ← get
  setModeBits fun m => withoutBit m s.cfg.bitRec
  softReset
  if s.cfg.endClearsMode then modify fun t => { t with mode := .notActive } else pure ()

/-- `available()` in Input mode: the fill level in words, doubled (44 R110). -/
def fillLevel : Op Nat := do
  let w ← readNamed .hdat1
  return 2 * w.toNat

/-- `available()` (44 R110, 60 R146): zero and no event outside Input mode. -/
def available : Op Nat := do
  let s ← get
  if s.mode = .input then fillLevel else return 0

/-- Stores one captured word in the caller's buffer, at `CAP_BYTE_ORDER` (44 R111; log 16). -/
def storeWord (at_ : Nat) (w : Word) : Op Unit :=
  modify fun s =>
    { s with buf := (s.buf.write at_ (captureBytes s.cfg.capByteOrder w).1).write (at_ + 1)
                      (captureBytes s.cfg.capByteOrder w).2 }

/-- The words of a capture read, from address `at_` of the payload buffer space up (44 R111). -/
def readLoop : Nat → Nat → Op Unit
  | 0, _ => pure ()
  | n + 1, at_ => do
    let w ← readNamed .hdat0
    storeWord at_ w
    readLoop n (at_ + 2)

/-- `readBytes(buf, n)` (44 R111, 60 R146): whole words only, as many as fit and are there. -/
def readBytes (buf n : Nat) : Op Nat := do
  let s ← get
  if s.mode = .input then do
    let a ← available
    readLoop (min n a / 2) buf
    return 2 * (min n a / 2)
  else return 0

/-! ### Meanings -/

/-- The meaning of `chipInit` (44 R96). -/
def execChipInit (s : State) : Host.Outcome State Fault Refusal := .next (runOp chipInit s)

/-- The meaning of `beginOutput` (44 R101). -/
def execBeginOutput (s : State) : Host.Outcome State Fault Refusal := .next (runOp beginOutput s)

/-- The meaning of `beginMidi` (44 R102). -/
def execBeginMidi (s : State) : Host.Outcome State Fault Refusal := .next (runOp beginMidi s)

/-- The meaning of `beginInput` (44 R103). -/
def execBeginInput (o : RecOptions) (s : State) : Host.Outcome State Fault Refusal := .next (runOp (beginInput o) s)

/-- The meaning of `end` (44 R108). -/
def execEnd (s : State) : Host.Outcome State Fault Refusal := .next (runOp (do endSession; return okResult) s)

/-- The meaning of `available` (44 R110). -/
def execAvailable (s : State) : Host.Outcome State Fault Refusal :=
  .next (runOp (do let n ← available; return okNum n) s)

/-- The meaning of `readBytes` (44 R111). -/
def execReadBytes (buf n : Nat) (s : State) : Host.Outcome State Fault Refusal :=
  .next (runOp (do let k ← readBytes buf n; return okNum k) s)

/-- The meaning of `softReset` (44 R112). -/
def execSoftReset (s : State) : Host.Outcome State Fault Refusal :=
  .next (runOp (do softReset; return okResult) s)

end Sys2Proof.Machine
end

