-- ==== Sys2Proof/Machine/Dispatch.lean ====
section
/-!
DEFINITION. One arm per instruction, each one call of its meaning.
-/
namespace Sys2Proof.Machine

/-- What each instruction does. -/
def exec (i : Instr) (s : State) : Host.Outcome State Fault Refusal :=
  match i with
  -- wire frames, data stream, patch records, register value (30_encoding sections 1 to 3)
  | .wrFrame a v => Sys2Proof.Machine.execWrFrame a v s
  | .rdFrame a => Sys2Proof.Machine.execRdFrame a s
  | .dataChunk ds => Sys2Proof.Machine.execDataChunk ds s
  | .patchRle a n v => Sys2Proof.Machine.execPatchRle a n v s
  | .patchCopy a vs => Sys2Proof.Machine.execPatchCopy a vs s
  | .eqWord ta tf ba bf => Sys2Proof.Machine.execEqWord ta tf ba bf s
  -- transport session (40)
  | .controlModeOn => Sys2Proof.Machine.execControlModeOn s
  | .controlModeOff => Sys2Proof.Machine.execControlModeOff s
  | .dataModeOn => Sys2Proof.Machine.execDataModeOn s
  | .dataModeOff => Sys2Proof.Machine.execDataModeOff s
  | .waitReady => Sys2Proof.Machine.execWaitReady s
  -- register protocol (41)
  | .readRegister a => Sys2Proof.Machine.execReadRegister a s
  | .writeRegister a v => Sys2Proof.Machine.execWriteRegister a v s
  | .wramWrite addr v => Sys2Proof.Machine.execWramWrite addr v s
  | .wramRead addr => Sys2Proof.Machine.execWramRead addr s
  -- streaming engine (42)
  | .sendBuffer data len => Sys2Proof.Machine.execSendBuffer data len s
  | .sendFillers len => Sys2Proof.Machine.execSendFillers len s
  | .writeAudio data len => Sys2Proof.Machine.execWriteAudio data len s
  | .sendMidiMessage n b0 b1 b2 => Sys2Proof.Machine.execSendMidiMessage n b0 b1 b2 s
  -- patch loader (43)
  | .loadUserCode words plen => Sys2Proof.Machine.execLoadUserCode words plen s
  -- mode state machine (44)
  | .chipInit => Sys2Proof.Machine.execChipInit s
  | .beginOutput => Sys2Proof.Machine.execBeginOutput s
  | .beginMidi => Sys2Proof.Machine.execBeginMidi s
  | .beginInput o => Sys2Proof.Machine.execBeginInput o s
  | .endOp => Sys2Proof.Machine.execEnd s
  | .available => Sys2Proof.Machine.execAvailable s
  | .readBytes buf n => Sys2Proof.Machine.execReadBytes buf n s
  | .softReset => Sys2Proof.Machine.execSoftReset s
  -- sample-rate solver (45)
  | .solveRate target => Sys2Proof.Machine.execSolveRate target s
  -- equalizer codec, volume, balance, getters (46)
  | .setBassAmplitude a => Sys2Proof.Machine.execSetBassAmplitude a s
  | .setBassFrequencyLimit f => Sys2Proof.Machine.execSetBassFrequencyLimit f s
  | .setTrebleAmplitude a => Sys2Proof.Machine.execSetTrebleAmplitude a s
  | .setTrebleFrequencyLimit f => Sys2Proof.Machine.execSetTrebleFrequencyLimit f s
  | .setVolume v => Sys2Proof.Machine.execSetVolume v s
  | .setBalance b => Sys2Proof.Machine.execSetBalance b s
  | .getState sel => Sys2Proof.Machine.execGetState sel s

end Sys2Proof.Machine
end

