-- ==== Sys2Proof/Machine/Port.lean ====
section
/-!
DEFINITION. The operation port (30_encoding section 4): who may present what, and how the next operation is
fetched.
-/
namespace Sys2Proof.Machine

/-- Whether 30 R55 lets the host present the instruction ("vis" is `host`). Frames, chunks, patch records and the
equalizer word are no host operations. -/
def hostVisible : Instr → Bool
  | .wrFrame _ _ => false
  | .rdFrame _ => false
  | .dataChunk _ => false
  | .patchRle _ _ _ => false
  | .patchCopy _ _ => false
  | .eqWord _ _ _ _ => false
  | .controlModeOn => false
  | .controlModeOff => false
  | .dataModeOn => false
  | .dataModeOff => false
  | .waitReady => false
  | .readRegister _ => true
  | .writeRegister _ _ => true
  | .wramWrite _ _ => true
  | .wramRead _ => true
  | .sendBuffer _ _ => true
  | .sendFillers _ => true
  | .writeAudio _ _ => true
  | .sendMidiMessage _ _ _ _ => true
  | .loadUserCode _ _ => true
  | .chipInit => true
  | .beginOutput => true
  | .beginMidi => true
  | .beginInput _ => true
  | .endOp => true
  | .available => true
  | .readBytes _ _ => true
  | .softReset => true
  | .solveRate _ => true
  | .setBassAmplitude _ => true
  | .setBassFrequencyLimit _ => true
  | .setTrebleAmplitude _ => true
  | .setTrebleFrequencyLimit _ => true
  | .setVolume _ => true
  | .setBalance _ => true
  | .getState _ => true

/-- The output streaming operations of 42 R82. -/
def outputStreaming : Instr → Bool
  | .wrFrame _ _ => false
  | .rdFrame _ => false
  | .dataChunk _ => false
  | .patchRle _ _ _ => false
  | .patchCopy _ _ => false
  | .eqWord _ _ _ _ => false
  | .controlModeOn => false
  | .controlModeOff => false
  | .dataModeOn => false
  | .dataModeOff => false
  | .waitReady => false
  | .readRegister _ => false
  | .writeRegister _ _ => false
  | .wramWrite _ _ => false
  | .wramRead _ => false
  | .sendBuffer _ _ => true
  | .sendFillers _ => true
  | .writeAudio _ _ => true
  | .sendMidiMessage _ _ _ _ => false
  | .loadUserCode _ _ => false
  | .chipInit => false
  | .beginOutput => false
  | .beginMidi => false
  | .beginInput _ => false
  | .endOp => false
  | .available => false
  | .readBytes _ _ => false
  | .softReset => false
  | .solveRate _ => false
  | .setBassAmplitude _ => false
  | .setBassFrequencyLimit _ => false
  | .setTrebleAmplitude _ => false
  | .setTrebleFrequencyLimit _ => false
  | .setVolume _ => false
  | .setBalance _ => false
  | .getState _ => false

/-- What the port says to a decoded operation. -/
inductive Verdict where
  /-- It runs. -/
  | run
  /-- It answers `FAIL(BadOp)` and nothing happens (30 R56). -/
  | badOp
  /-- The port does not accept it and no claim is made about it (42 R82, D17, U1; log 9). -/
  | refuse
  deriving DecidableEq, Repr

/-- The port's rule (30 R55, R56; 42 R82; log 8, log 9). The block's own sequences may present anything. -/
def verdict (p : Presenter) (i : Instr) (s : State) : Verdict :=
  match p with
  | .block => .run
  | .host =>
    if hostVisible i then
      if outputStreaming i ∧ streamingMode s.mode = false then .refuse else .run
    else .badOp

/-- The instruction a presentation holds: its bytes decode, and they are exactly one instruction (log 8). -/
def Presented.instr (p : Presented) : Option Instr :=
  match decode p.format p.bytes with
  | .ok i [] => some i
  | .ok _ (_ :: _) => none
  | .rejected _ => none

/-- What the next step has to do. -/
inductive Fetched where
  /-- An operation hangs: poll again (60 R150). -/
  | poll
  /-- Nothing is presented: idle (70 R160, R174). -/
  | idle
  /-- The presentation is no operation: `FAIL(BadOp)` (30 R56). -/
  | badOp (rest : List Presented)
  /-- The port refuses the operation (42 R82). -/
  | refuse
  /-- The instruction to run, and the presentations left. -/
  | run (i : Instr) (rest : List Presented)
  deriving DecidableEq, Repr

/-- Fetching: an operation in progress goes first (00_scope R1, D40); else the first presentation is taken. -/
def State.fetch (s : State) : Fetched :=
  if s.waiting then .poll
  else
    match s.pending with
    | [] => .idle
    | p :: rest =>
      match p.instr with
      | none => .badOp rest
      | some i =>
        match verdict p.presenter i s with
        | .run => .run i rest
        | .badOp => .badOp rest
        | .refuse => .refuse

/-- The state with the first presentations taken off the port. -/
def State.withPending (s : State) (rest : List Presented) : State := { s with pending := rest }

/-- The presentation of an opcode-table word (log 6, log 26): exactly the bytes of the instruction it decodes to,
presented by the host where the port lets the host present it in this state, else by the block's own sequences. -/
def presentTableWord (s : State) (nbits w : Nat) : Presented :=
  let layout := tableLayout nbits w
  match decode layout.1 layout.2 with
  | .ok i rest =>
    { presenter := if verdict .host i s = .run then .host else .block
      format := layout.1
      bytes := layout.2.take (layout.2.length - rest.length) }
  | .rejected _ => { presenter := .host, format := layout.1, bytes := layout.2 }

end Sys2Proof.Machine
end

