-- ==== Sys2Proof/Machine/Step.lean ====
section
/-!
DEFINITION. One step of the machine: the next operation at the port, whole, from its first primitive to its result
(00_scope R1).
-/
namespace Sys2Proof.Machine

/-- One step: an operation that hangs polls once more (60 R150), an idle block stays idle, a presentation that is no
operation answers `FAIL(BadOp)` (30 R56), and an operation runs. -/
def step (s : State) : Host.Outcome State Fault Refusal :=
  match s.fetch with
  | .poll => .next s.keepPolling
  | .idle => .next s
  | .badOp rest => .next (s.withPending rest).badOp
  | .refuse => .refused .streamingOutsideOutput
  | .run i rest => exec i (s.withPending rest)

/-- The state with an opcode-table word presented as the next operation (log 6). Fetching needs no operation to be in
progress. -/
def State.withFetchWord (s : State) (nbits w : Nat) : State :=
  { s with waiting := false, pending := presentTableWord s nbits w :: s.pending }

end Sys2Proof.Machine
end

