-- ==== Sys2Proof/Safety.lean ====
section
/-!
DEFINITION. The terms claims are stated in: the invariant of the machine, the premises on the chip's answers, and
the event lists of a frame, a chunk and a bracket as 95_test_vectors writes them out.
-/
namespace Sys2Proof.Machine

/-! ### The invariant -/

/-- A bus transfer: the events of 40 R64 (a). -/
def Prim.isTransfer : Prim → Bool
  | .write8 _ => true
  | .xfer8 _ _ => true
  | .write16 _ => true
  | .writeBulk _ => true
  | .beginTxn => false
  | .endTxn => false
  | .setClock _ => false
  | .pinWrite _ _ => false
  | .sampleDreq _ => false
  | .pinMode _ _ => false
  | .delayMs _ => false
  | .yield => false
  | .log _ _ => false

/-- A transfer is made with exactly one select line low: control mode or data mode, never both or none (40 R64 (b)). -/
def Event.selected (e : Event) : Bool := !e.prim.isTransfer || (e.cs != e.dcs)

/-- Every transfer in the trace was made in control mode or in data mode (40 R64 (b)). -/
def traceSelected (t : List Event) : Bool := t.all Event.selected

/-- An event in the middle of a register frame: the select line may not be released yet (41 R69). -/
def Prim.isFrameByte : Prim → Bool
  | .write8 _ => true
  | .xfer8 _ _ => true
  | .write16 _ => true
  | .writeBulk _ => false
  | .beginTxn => false
  | .endTxn => false
  | .setClock _ => false
  | .pinWrite _ _ => false
  | .sampleDreq _ => false
  | .pinMode _ _ => false
  | .delayMs _ => false
  | .yield => false
  | .log _ _ => false

/-- A sample of the ready-signal, whatever it read. -/
def Prim.isSample : Prim → Bool
  | .sampleDreq _ => true
  | _ => false

/-- A chunk on the data stream. -/
def Prim.isChunk : Prim → Bool
  | .writeBulk _ => true
  | _ => false

/-- What may follow what (41 R69, 42 R77, 70 R173): after a frame byte comes a frame byte or a sample; a chunk comes
right after a sample that read high; after a sample that read low comes a yield. -/
def mayFollow (first second : Prim) : Bool :=
  (!first.isFrameByte || second.isFrameByte || second.isSample) &&
  (!second.isChunk || decide (first = .sampleDreq true)) &&
  (decide (first ≠ .sampleDreq false) || decide (second = .yield))

/-- Every two neighbouring events of a trace may follow each other. -/
def disciplined : List Event → Bool
  | [] => true
  | [_] => true
  | e :: f :: rest => mayFollow e.prim f.prim && disciplined (f :: rest)

/-- No low sample stands at the end of a trace without its yield (70 R173). -/
def yielded (t : List Event) : Bool :=
  match t.getLast? with
  | none => true
  | some e => decide (e.prim ≠ .sampleDreq false)

/-- No frame byte stands at the end of a trace without the sample that has to follow it (41 R69). -/
def frameClosed (t : List Event) : Bool :=
  match t.getLast? with
  | none => true
  | some e => !e.prim.isFrameByte

/-- Where a trace stands with its bus bracket (40 R64, 41 R69). -/
inductive Bracket where
  /-- No bracket is open: the bus is not owned. -/
  | closed
  /-- A bracket is open and may be closed: no frame byte has gone out in it since a sample read high. -/
  | opened
  /-- A bracket is open, frame bytes have gone out, and no sample has read high since. -/
  | sent
  /-- A select line moved while a frame waited for its high sample: no event closes this bracket. -/
  | cut
  deriving DecidableEq, Repr

/-- A bracket is open. -/
def Bracket.isOpen : Bracket → Bool
  | .closed => false
  | .opened => true
  | .sent => true
  | .cut => true

/-- A frame in the bracket still waits for a sample that reads high. -/
def Bracket.unready : Bracket → Bool
  | .closed => false
  | .opened => false
  | .sent => true
  | .cut => true

/-- A write to one of the two select lines. -/
def Prim.isSelect : Prim → Bool
  | .pinWrite .cs _ => true
  | .pinWrite .dcs _ => true
  | _ => false

/-- The bracket after one event; `none` where the event may not stand there. `BeginTxn` needs a bus that is not owned,
a transfer needs one that is (40 R64 (a), (c)); `EndTxn` needs an open bracket in which, after the last frame byte, a
sample read high before either select line moved (41 R69). -/
def Bracket.next (b : Bracket) (p : Prim) : Option Bracket :=
  if p = .beginTxn then (if b = .closed then some .opened else none)
  else if p = .endTxn then (if b = .opened then some .closed else none)
  else if p.isFrameByte then (if b = .opened ∨ b = .sent then some .sent else none)
  else if p.isChunk then (if b = .opened then some .opened else none)
  else if p = .sampleDreq true then (if b = .sent then some .opened else some b)
  else if p.isSelect then (if b = .sent then some .cut else some b)
  else some b

/-- The bracket after a list of events; `none` where one of them may not stand where it stands. -/
def bracketAfter : Bracket → List Event → Option Bracket
  | b, [] => some b
  | b, e :: rest =>
    match b.next e.prim with
    | some c => bracketAfter c rest
    | none => none

/-- The cached fields lie in the ranges of 10_state R16, R20 and R22, the channel multiplier is 1 or 2 (R19), the
achieved rate has 17 bits (R22) and the version fits its field of the status register (R18). -/
def State.inRange (s : State) : Prop :=
  s.volume ≤ 100 ∧ -100 ≤ s.balance ∧ s.balance ≤ 100 ∧
  s.bassA ≤ 100 ∧ s.trebA ≤ 100 ∧ s.bassF ≤ 15000 ∧ s.trebF ≤ 15000 ∧
  8000 ≤ s.recRate ∧ s.recRate ≤ 48000 ∧ 1 ≤ s.recCh ∧ s.recCh ≤ 2 ∧
  s.recGain ≤ 100 ∧ s.recAgc ≤ 100 ∧ 1 ≤ s.chMult ∧ s.chMult ≤ 2 ∧
  s.recAchieved < 2 ^ 17 ∧ s.version.toNat < 2 ^ (s.cfg.verHi.val - s.cfg.verLo.val + 1)

/-- While the bus is owned the select lines are not both low (10_state R12: `(0,0)` is never produced). -/
def State.linesLegal (s : State) : Prop := s.busOwned = true → s.cs = true ∨ s.dcs = true

/-- The discipline of the trace (41 R69, 42 R77, 70 R173): neighbours may follow each other, the last low sample has
its yield, and no frame is cut off before its sample. -/
def State.traceDisciplined (s : State) : Prop :=
  disciplined s.trace = true ∧ yielded s.trace = true ∧ frameClosed s.trace = true

/-- The brackets of the trace (40 R64 (a), (c); 41 R69): the bus is acquired and released alternately, every transfer is
made while it is owned, no release comes before the high sample after the last frame byte; `BUS_OWNED` says whether a
bracket is open, and a frame that still waits for its high sample is an operation that hangs (60 R150). -/
def State.bracketed (s : State) : Prop :=
  ∃ b, bracketAfter .closed s.trace = some b ∧ b.isOpen = s.busOwned ∧ (b.unready = true → s.waiting = true)

/-- The invariant of the machine: fields in range, select lines legal, every transfer made while selected, the trace
disciplined, its brackets whole, the capture buffer's memory in canonical form. -/
def State.Inv (s : State) : Prop :=
  s.inRange ∧ s.linesLegal ∧ traceSelected s.trace = true ∧ s.traceDisciplined ∧ s.bracketed ∧ Memory.wf s.buf = true

/-! ### Premises on the chip's answers -/

/-- Every wait ends: after the samples written out, the ready-signal reads high (60 R150's fairness premise). -/
def State.waitsEnd (s : State) : Prop := s.env.readyAfter = .high

/-- Every wait ends at its first sample. -/
def State.readyAtOnce (s : State) : Prop := s.env.ready = [] ∧ s.env.readyAfter = .high

/-! ### Event lists -/

/-- The samples and yields of a wait that meets `n` low samples and then a high one (40 R65). -/
def waitEvents (cs dcs : Bool) (n : Nat) : List Event :=
  (List.replicate n [Event.mk (.sampleDreq false) cs dcs, Event.mk .yield cs dcs]).flatten ++
    [Event.mk (.sampleDreq true) cs dcs]

/-- The events of `controlModeOn` from the given levels (40 R60). -/
def controlOnEvents (cs dcs : Bool) : List Event :=
  [⟨.beginTxn, cs, dcs⟩, ⟨.pinWrite .dcs true, cs, true⟩, ⟨.pinWrite .cs false, false, true⟩]

/-- The events of `controlModeOff` in control mode (40 R61). -/
def controlOffEvents : List Event :=
  [⟨.pinWrite .cs true, true, true⟩, ⟨.pinWrite .dcs true, true, true⟩, ⟨.endTxn, true, true⟩]

/-- The events of `dataModeOn` from the given levels (40 R62). -/
def dataOnEvents (cs dcs : Bool) : List Event :=
  [⟨.beginTxn, cs, dcs⟩, ⟨.pinWrite .cs true, true, dcs⟩, ⟨.pinWrite .dcs false, true, false⟩]

/-- The events of `dataModeOff` in data mode (40 R63). -/
def dataOffEvents : List Event :=
  [⟨.pinWrite .dcs true, true, true⟩, ⟨.pinWrite .cs true, true, true⟩, ⟨.endTxn, true, true⟩]

/-- One write frame `W(a, v)` with a wait of `n` low samples (95_test_vectors conventions, 41 R68). -/
def writeFrameEvents (cs dcs : Bool) (a : Byte) (v : Word) (n : Nat) : List Event :=
  controlOnEvents cs dcs ++
  [⟨.write8 0x02, false, true⟩, ⟨.write8 a, false, true⟩, ⟨.write16 v, false, true⟩] ++
  waitEvents false true n ++ controlOffEvents

/-- One read frame `R(a) -> hi ++ lo` with a wait of `n` low samples (95_test_vectors conventions, 41 R67). -/
def readFrameEvents (cs dcs : Bool) (a hi lo : Byte) (n : Nat) : List Event :=
  controlOnEvents cs dcs ++
  [⟨.write8 0x03, false, true⟩, ⟨.write8 a, false, true⟩, ⟨.xfer8 0xFF hi, false, true⟩,
   ⟨.xfer8 0xFF lo, false, true⟩] ++
  waitEvents false true n ++ controlOffEvents

/-- The chunks of a payload of `len` bytes: `ceil(len / 32)` of them, the `j`-th from byte `32 j` on (42 R78). -/
def chunksOf (data : List Byte) (len : Nat) : List (List Byte) :=
  (List.range ((len + 31) / 32)).map fun j => (data.drop (32 * j)).take (min 32 (len - 32 * j))

/-- A streaming run in which every wait ends at once: one bracket, one high sample before each chunk (42 R75, R77). -/
def streamEvents (cs dcs : Bool) (chunks : List (List Byte)) : List Event :=
  dataOnEvents cs dcs ++
  (chunks.map fun c => [Event.mk (.sampleDreq true) true false, Event.mk (.writeBulk c) true false]).flatten ++
  dataOffEvents

/-- Write frames in order, each with a wait that ends at once; the first from the given levels, the others from the
idle levels (43 R93). -/
def writesEvents (cs dcs : Bool) : List (Byte × Word) → List Event
  | [] => []
  | (a, v) :: rest => writeFrameEvents cs dcs a v 0 ++ writesEvents true true rest

/-- The payload bytes a trace put on the data stream, in order. -/
def streamedBytes : List Event → List Byte
  | [] => []
  | e :: rest =>
    match e.prim with
    | .writeBulk bs => bs ++ streamedBytes rest
    | _ => streamedBytes rest

/-! ### States after a frame -/

/-- The state after a completed write frame: lines high, bus released, its events, nothing else (41 R68). -/
def State.afterWrite (s : State) (a : Byte) (v : Word) (n : Nat) (e : Env) : State :=
  { s with busOwned := false, cs := true, dcs := true, env := e
           trace := s.trace ++ writeFrameEvents s.cs s.dcs a v n }

/-- The state after a completed read frame that captured `hi` and `lo` (41 R67). -/
def State.afterRead (s : State) (a hi lo : Byte) (n : Nat) (e : Env) : State :=
  { s with busOwned := false, cs := true, dcs := true, env := e
           trace := s.trace ++ readFrameEvents s.cs s.dcs a hi lo n }

/-- The state with a result record. -/
def State.returns (s : State) (r : Result) : State := { s with result := some r }

/-- The state after a write frame whose wait ends at once (41 R68). -/
def State.wrote (s : State) (a : Byte) (v : Word) : State := s.afterWrite a v 0 (s.env.take s.cfg.regMap a v)

/-- The word a read frame captures, high byte first (41 R67). -/
def State.answered (s : State) (a : Byte) : Word :=
  joinBytes (s.env.answer s.cfg.regMap a).1 (s.env.answer s.cfg.regMap a).2.1

/-- The state after a read frame whose wait ends at once (41 R67). -/
def State.didRead (s : State) (a : Byte) : State :=
  s.afterRead a (s.env.answer s.cfg.regMap a).1 (s.env.answer s.cfg.regMap a).2.1 0 (s.env.answer s.cfg.regMap a).2.2

/-- The state after `n` read frames of one register, each wait ending at once (44 R107). -/
def State.didReads (s : State) (a : Byte) : Nat → State
  | 0 => s
  | n + 1 => (s.didRead a).didReads a n

/-- The state after a read-modify-write of the mode register, each wait ending at once (44 R105, R108, R112). -/
def State.modeBitsSet (s : State) (f : Word → Word) : State :=
  (s.didRead (s.regAddr .modeR)).wrote (s.regAddr .modeR) (f (s.answered (s.regAddr .modeR)))

/-- The state after a capture read of `n` words to address `at_` on, each wait ending at once (44 R111): a read frame of
the stream data register, then its two bytes at the next two addresses. -/
def State.captured (s : State) : Nat → Nat → State
  | 0, _ => s
  | n + 1, at_ =>
    let bytes := captureBytes s.cfg.capByteOrder (s.answered (s.regAddr .hdat0))
    let t := s.didRead (s.regAddr .hdat0)
    { t with buf := (s.buf.write at_ bytes.1).write (at_ + 1) bytes.2 }.captured n (at_ + 2)

/-- The solver's scratch fields after a search, nothing else changed (45 R122). -/
def State.searched (s : State) (target : Nat) : State :=
  let best := (searchFrom s.cfg.baseClock target s.bestK s.bestDiv).1
  { s with bestDiff := best.diff, bestK := best.k, bestDiv := best.div, bestFound := best.found }

/-! ### Chip initialisation, step by step -/

/-- The events of step 1 of `chipInit` from the given levels (44 R96). -/
def pinEvents (c : Config) (cs dcs : Bool) : List Event :=
  [⟨.pinMode .dreq .input, cs, dcs⟩, ⟨.pinMode .cs .output, cs, dcs⟩, ⟨.pinMode .dcs .output, cs, dcs⟩,
   ⟨.pinWrite .cs true, true, dcs⟩, ⟨.pinWrite .dcs true, true, true⟩] ++
  if c.hasRst then
    [⟨.pinMode .rst .output, true, true⟩, ⟨.pinWrite .rst c.rstActive, true, true⟩, ⟨.delayMs c.tRstLow, true, true⟩,
     ⟨.pinWrite .rst (!c.rstActive), true, true⟩, ⟨.delayMs c.tRstHigh, true, true⟩]
  else []

/-- The state after the pins, the slow clock and a connectivity check that met `n` low samples and then, where it still
sampled, a high one (44 R96, R97). -/
def State.probed (s : State) (n : Nat) : State :=
  { s with
    cs := true
    dcs := true
    rst := if s.cfg.hasRst then !s.cfg.rstActive else s.rst
    busClk := s.cfg.clkSlow
    env := { s.env with ready := [] }
    trace := s.trace ++ pinEvents s.cfg s.cs s.dcs ++ [⟨.setClock s.cfg.clkSlow, true, true⟩] ++
      (List.replicate n [Event.mk (.sampleDreq false) true true, Event.mk .yield true true]).flatten ++
      if n < s.cfg.startupPolls then [⟨.sampleDreq true, true, true⟩] else [] }

/-- The patterns of a self-test phase: the multiples of its step below `ST_LIMIT` (44 R98). -/
def patterns (limit step : Nat) : List Nat := (List.range ((limit + step - 1) / step)).map (step * ·)

/-- The state after the write and the read of each pattern, each wait ending at once, and the mismatches among them:
those before, one more for each word read that is not the word written, no pattern once they reach the maximum
(44 R98). -/
def State.tested (s : State) (a : Byte) (maxFail : Nat) : List Nat → Nat → State × Nat
  | [], fails => (s, fails)
  | i :: rest, fails =>
    if fails < maxFail then
      State.tested ((s.wrote a (BitVec.ofNat 16 i)).didRead a) a maxFail rest
        (if (s.wrote a (BitVec.ofNat 16 i)).answered a = BitVec.ofNat 16 i then fails else fails + 1)
    else (s, fails)

/-- The state after a self-test phase and its mismatches; where there are any, they are logged with their count
(44 R98). -/
def State.selfTested (s : State) (phase : Nat) (step : ℕ+) : State × Nat :=
  let t := s.tested (s.regAddr s.cfg.stReg) s.cfg.stMaxFail (patterns s.cfg.stLimit step) 0
  if 0 < t.2 then
    ({ t.1 with trace := t.1.trace ++ [⟨.log .error (.selfTest phase t.2), t.1.cs, t.1.dcs⟩] }, t.2)
  else t

/-! ### Patch programs -/

/-- The words of a record in the table (30 R50, R51). -/
def recordWords : Instr → List Word
  | .patchRle a n v => [a, 1#1 ++ n, v]
  | .patchCopy a vs => a :: (0#1 ++ BitVec.ofNat 15 vs.length) :: vs
  | _ => []

/-- The register writes of a record, in order (43 R86, R87). -/
def recordWrites : Instr → List (Byte × Word)
  | .patchRle a n v => List.replicate n.toNat (loByte a, v)
  | .patchCopy a vs => vs.map fun v => (loByte a, v)
  | _ => []

/-- A record the loader takes: RLE or copy, its address at most 0xFF, its count in 15 bits (43 R89, 30 R49). -/
def isRecord : Instr → Bool
  | .patchRle a _ _ => decide (hiByte a = 0)
  | .patchCopy a vs => decide (hiByte a = 0) && decide (vs.length < 2 ^ 15)
  | _ => false

/-! ### The solver's grid -/

/-- A point of the search space: 7 multipliers, dividers 4 to 126 (45 R120). -/
def onGrid (k div : Nat) : Prop := k ≤ 6 ∧ 4 ≤ div ∧ div ≤ 126

/-- `rate(k, div) >= target`, exactly (45 R121). -/
def rateAtLeast (base target k div : Nat) : Prop := target * (512 * div) ≤ (k + 4) * base

/-- `rate(k, div) < 2 * target`, exactly (45 R126). -/
def rateUnderDouble (base target k div : Nat) : Prop := (k + 4) * base < 2 * target * (512 * div)

/-- `rate(k, div) <= rate(k', div')`, exactly (45 R121). -/
def rateLe (k div k' div' : Nat) : Prop := (k + 4) * (512 * div') ≤ (k' + 4) * (512 * div)

end Sys2Proof.Machine
end

