-- ==== Sys2Proof/Certificates/Slice0/Obligations.lean ====
section
/-!
DEFINITION. The statements for the provers. Each says in its docstring which rules of spec/ it formalises.
-/

open Sys2Proof Sys2Proof.Machine

/-! ### Encoding -/

/-- Decoding undoes encoding, for every well-formed instruction (30 R46, R47, R49 to R53, R55, R59). The byte form of
the host operands (log 7) and the byte order of patch words (log 26; 20_memory R45, D10 and N7 leave it open) are the
model's own. A data stream has no end marker (R59), so a chunk is read from exactly
its bytes; every other instruction is read whatever follows it. -/
def Obligations.DecodeUndoesEncode : Prop :=
  ∀ i : Instr, i.wellFormed = true →
    decode i.format (encode i) = .ok i [] ∧
    (i.format ≠ .stream → ∀ rest, decode i.format (encode i ++ rest) = .ok i rest)

/-- Words written out from the spec's encodings decode to the instructions they stand for (30 R46, R47, R50, R51, R53,
R55; 95_test_vectors 1.1, 1.2, 2.2). Two byte orders are the model's choices: the words of a patch record high byte first
(log 26; 20_memory R45, D10 and N7 leave the order open), the operands of a host operation high byte first (log 7). -/
def Obligations.SpecWordsDecode : Prop :=
  decode .frame [0x02, 0x0B, 0x20, 0x20] = .ok (.wrFrame 0x0B 0x2020) [] ∧
  decode .frame [0x03, 0x01, 0xFF, 0xFF] = .ok (.rdFrame 0x01) [] ∧
  decode .patch [0x00, 0x10, 0x80, 0x03, 0x55, 0xAA] = .ok (.patchRle 0x0010 3 0x55AA) [] ∧
  decode .patch [0x00, 0x20, 0x00, 0x02, 0x11, 0x11, 0x22, 0x22] = .ok (.patchCopy 0x0020 [0x1111, 0x2222]) [] ∧
  decode .regValue [0x7A, 0xFF] = .ok (.eqWord 7 10 15 15) [] ∧
  decode .host [0x21, 0x0B, 0x20, 0x20] = .ok (.writeRegister 0x0B 0x2020) [] ∧
  decode .host [0x15] = .rejected (.noOperation 0x15)

/-- The length of a patch record comes from its count word alone (30 R52): three words with bit 15 set, whatever
follows; two and the count with bit 15 clear. That the words lie in the bytes high byte first is the model's choice
(log 26; 20_memory R45, D10 and N7 leave the order open). -/
def Obligations.RecordLengthFromCount : Prop :=
  ∀ (a count : Word) (rest : List Byte),
    (count.getLsbD 15 = true → ∀ v : Word,
      decode .patch (wordBytes a ++ wordBytes count ++ wordBytes v ++ rest) =
        .ok (.patchRle a (count.extractLsb' 0 15) v) rest) ∧
    (count.getLsbD 15 = false → ∀ vs : List Word, vs.length = (count.extractLsb' 0 15).toNat →
      decode .patch (wordBytes a ++ wordBytes count ++ wordsBytes vs ++ rest) = .ok (.patchCopy a vs) rest)

/-! ### The transport session -/

/-- `controlModeOn` (40 R60) and `dataModeOn` (40 R62): they open the bracket and select control mode or data mode; with a
bracket open they raise `NestedTxn` and write no pin; that the failed `BeginTxn` emits no event either is the model's
reading (log 20). Codes 0x10 and 0x12, internal. -/
def Obligations.ModeOnOpensBracket : Prop :=
  ∀ s : State,
    (s.busOwned = false → exec .controlModeOn s =
      .next ({ s with busOwned := true, dcs := true, cs := false,
                      trace := s.trace ++ [Event.mk .beginTxn s.cs s.dcs, Event.mk (.pinWrite .dcs true) s.cs true,
                        Event.mk (.pinWrite .cs false) false true] }.returns okResult)) ∧
    (s.busOwned = false → exec .dataModeOn s =
      .next ({ s with busOwned := true, cs := true, dcs := false,
                      trace := s.trace ++ [Event.mk .beginTxn s.cs s.dcs, Event.mk (.pinWrite .cs true) true s.dcs,
                        Event.mk (.pinWrite .dcs false) true false] }.returns okResult)) ∧
    (s.busOwned = true →
      exec .controlModeOn s =
        .next ({ s with fault := some .nestedTxn }.returns { st := .fault .nestedTxn, val := .absent }) ∧
      exec .dataModeOn s =
        .next ({ s with fault := some .nestedTxn }.returns { st := .fault .nestedTxn, val := .absent })) ∧
    decode .host [0x10] = .ok .controlModeOn [] ∧ verdict .host .controlModeOn s = .badOp ∧
    decode .host [0x12] = .ok .dataModeOn [] ∧ verdict .host .dataModeOn s = .badOp

/-- `controlModeOff` (40 R61) and `dataModeOff` (40 R63): both lines high, then the bus is released; with no bracket open
a model refuses them (log 10, DEDUCED for `dataModeOff`). The order of the two pin writes is the spec's own (D2: a claim
must not depend on it), and so are the codes 0x11 and 0x13 (D7), internal. -/
def Obligations.ModeOffClosesBracket : Prop :=
  ∀ s : State,
    (s.busOwned = true → exec .controlModeOff s =
      .next ({ s with cs := true, dcs := true, busOwned := false,
                      trace := s.trace ++ [Event.mk (.pinWrite .cs true) true s.dcs, Event.mk (.pinWrite .dcs true) true true,
                        Event.mk .endTxn true true] }.returns okResult)) ∧
    (s.busOwned = true → exec .dataModeOff s =
      .next ({ s with cs := true, dcs := true, busOwned := false,
                      trace := s.trace ++ [Event.mk (.pinWrite .dcs true) s.cs true, Event.mk (.pinWrite .cs true) true true,
                        Event.mk .endTxn true true] }.returns okResult)) ∧
    (s.busOwned = false → exec .controlModeOff s = .refused .offWithoutBracket ∧
      exec .dataModeOff s = .refused .offWithoutBracket) ∧
    decode .host [0x11] = .ok .controlModeOff [] ∧ verdict .host .controlModeOff s = .badOp ∧
    decode .host [0x13] = .ok .dataModeOff [] ∧ verdict .host .dataModeOff s = .badOp

/-- Nested acquisition (60 R149, D30): a register frame begun inside an open bracket raises `NestedTxn`, records it and
does nothing else; that the failed `BeginTxn` emits no event is the model's reading (log 20). `WR_FRAME` and `RD_FRAME`
do the same because they open a bracket of their own, the model's choice (log 11). -/
def Obligations.FrameInsideBracketFaults : Prop :=
  ∀ (s : State) (a : Byte) (v : Word), s.busOwned = true →
    exec (.readRegister a) s =
      .next ({ s with fault := some .nestedTxn }.returns { st := .fault .nestedTxn, val := .absent }) ∧
    exec (.writeRegister a v) s =
      .next ({ s with fault := some .nestedTxn }.returns { st := .fault .nestedTxn, val := .absent }) ∧
    exec (.rdFrame a) s =
      .next ({ s with fault := some .nestedTxn }.returns { st := .fault .nestedTxn, val := .absent }) ∧
    exec (.wrFrame a v) s =
      .next ({ s with fault := some .nestedTxn }.returns { st := .fault .nestedTxn, val := .absent })

/-- `waitReady` (40 R65): `n` samples that read low, each followed by a yield, then one that reads high; nothing else
changes. Where no sample reads high it never returns (log 5: the step shows one low sample beyond those written out).
Code 0x14, internal. -/
def Obligations.WaitPollsUntilHigh : Prop :=
  ∀ (s : State) (n : Nat),
    (∀ rest, s.env.ready = List.replicate n false ++ true :: rest → exec .waitReady s =
      .next ({ s with env := { s.env with ready := rest }
                      trace := s.trace ++
                        ((List.replicate n [Event.mk (.sampleDreq false) s.cs s.dcs, Event.mk .yield s.cs s.dcs]).flatten ++
                         [Event.mk (.sampleDreq true) s.cs s.dcs]) }.returns okResult)) ∧
    (s.env.ready = List.replicate n false → s.env.readyAfter = .low →
      ∃ t, exec .waitReady s = .next t ∧ t.waiting = true ∧ t.result = none ∧
        t.trace = s.trace ++
          (List.replicate (n + 1) [Event.mk (.sampleDreq false) s.cs s.dcs, Event.mk .yield s.cs s.dcs]).flatten) ∧
    decode .host [0x14] = .ok .waitReady [] ∧ verdict .host .waitReady s = .badOp

/-- A hang (60 R150): when the ready-signal reads low at every sample, a register frame never returns; the bracket stays
open and the chip stays selected, and each further step is one more sample and yield. -/
def Obligations.StuckFrameHangs : Prop :=
  ∀ (s : State) (a : Byte) (v : Word) (n : Nat), s.busOwned = false →
    s.env.ready = List.replicate n false → s.env.readyAfter = .low →
    (∃ t, exec (.writeRegister a v) s = .next t ∧ t.waiting = true ∧ t.result = none ∧
      t.busOwned = true ∧ t.cs = false ∧ t.dcs = true ∧
      step t = .next { t with trace := t.trace ++ [Event.mk (.sampleDreq false) false true, Event.mk .yield false true] }) ∧
    (∃ t, exec (.readRegister a) s = .next t ∧ t.waiting = true ∧ t.result = none ∧
      t.busOwned = true ∧ t.cs = false ∧ t.dcs = true ∧
      step t = .next { t with trace := t.trace ++ [Event.mk (.sampleDreq false) false true, Event.mk .yield false true] })

/-! ### The register protocol -/

/-- A write frame (30 R46; 41 R68, R69): its four bytes are 02, the address, the value high byte first; `writeRegister` puts
them on the bus in one bracket as `Write8(02)`, `Write8(a)`, `Write16(v)`, the address unchanged, then waits, then
releases; nothing else changes. The order of the pin writes (D2), no wait before the frame (D4) and the value as one
`Write16` event (D29) are the spec's own decisions. -/
def Obligations.WriteRegisterSendsFrame : Prop :=
  ∀ (s : State) (a : Byte) (v : Word),
    encode (.wrFrame a v) = [0x02, a, v.extractLsb' 8 8, v.extractLsb' 0 8] ∧
    ∀ (n : Nat) (e : Env), s.busOwned = false → (s.env.take s.cfg.regMap a v).wait = (n, some e) →
      exec (.writeRegister a v) s = .next ((s.afterWrite a v n e).returns okResult) ∧
      (s.afterWrite a v n e).trace = s.trace ++ controlOnEvents s.cs s.dcs ++
        [Event.mk (.write8 0x02) false true, Event.mk (.write8 a) false true, Event.mk (.write16 v) false true] ++
        waitEvents false true n ++ controlOffEvents

/-- A read frame (30 R47; 41 R67, R69): in one bracket the bytes 03, the address unchanged, two transfers of FF that
capture the value high byte first, then the wait, then release; nothing else changes. -/
def Obligations.ReadRegisterReturnsCapture : Prop :=
  ∀ (s : State) (a hi lo : Byte) (n : Nat) (e e' : Env), s.busOwned = false →
    s.env.answer s.cfg.regMap a = (hi, lo, e') → e'.wait = (n, some e) →
    exec (.readRegister a) s = .next ((s.afterRead a hi lo n e).returns (okWord (hi ++ lo)))

/-- `WR_FRAME` and `RD_FRAME` presented on their own run as whole frames, bracket and wait included (log 11, the model's
choice), with the effects of 41 R67 and R68. -/
def Obligations.FramesRunWhole : Prop :=
  ∀ (s : State) (a hi lo : Byte) (v : Word) (n : Nat) (e e' : Env), s.busOwned = false →
    ((s.env.take s.cfg.regMap a v).wait = (n, some e) →
      exec (.wrFrame a v) s = .next ((s.afterWrite a v n e).returns okResult)) ∧
    (s.env.answer s.cfg.regMap a = (hi, lo, e') → e'.wait = (n, some e) →
      exec (.rdFrame a) s = .next ((s.afterRead a hi lo n e).returns (okWord (hi ++ lo))))

/-- The RAM compounds (41 R70, R71, R72; 30 R58): the address to `WRAMADDR` in one bracket, the datum to or from `WRAM` in
a second. -/
def Obligations.RamCompoundsAreTwoFrames : Prop :=
  ∀ (s : State) (addr v : Word), s.busOwned = false → s.readyAtOnce →
    exec (.wramWrite addr v) s =
      .next (((s.wrote (s.regAddr .wramAddr) addr).wrote (s.regAddr .wram) v).returns okResult) ∧
    exec (.wramRead addr) s =
      .next (((s.wrote (s.regAddr .wramAddr) addr).didRead (s.regAddr .wram)).returns
        (okWord ((s.wrote (s.regAddr .wramAddr) addr).answered (s.regAddr .wram))))

/-- Operations of several frames complete whenever every wait ends, whatever low samples come in between (41 R70, R71; 44
R108, R112). -/
def Obligations.CompoundsComplete : Prop :=
  ∀ (s : State) (addr v : Word), s.busOwned = false → s.waitsEnd →
    (∃ t, exec (.wramWrite addr v) s = .next t ∧ t.result = some okResult ∧ t.waiting = s.waiting ∧ t.busOwned = false) ∧
    (∃ t w, exec (.wramRead addr) s = .next t ∧ t.result = some (okWord w) ∧ t.waiting = s.waiting ∧
      t.busOwned = false) ∧
    (∃ t, exec .softReset s = .next t ∧ t.result = some okResult ∧ t.waiting = s.waiting ∧ t.busOwned = false) ∧
    (∃ t, exec .endOp s = .next t ∧ t.result = some okResult ∧ t.waiting = s.waiting ∧ t.busOwned = false)

/-- Register operations touch no field of the Device Handle but the transport's own, in every state and however they end
(41 R67, R68; 44 R110, R112). That `EQ_WORD` changes no cached equalizer field is the model's choice (log 14). -/
def Obligations.RegisterOpsFrame : Prop :=
  ∀ (s t : State) (i : Instr),
    (∃ a v, i = .wrFrame a v) ∨ (∃ a, i = .rdFrame a) ∨ (∃ a, i = .readRegister a) ∨ (∃ a v, i = .writeRegister a v) ∨
      (∃ a v, i = .wramWrite a v) ∨ (∃ a, i = .wramRead a) ∨ i = .softReset ∨ i = .available ∨
      (∃ ta tf ba bf, i = .eqWord ta tf ba bf) ∨ i = .controlModeOn ∨ i = .controlModeOff ∨ i = .dataModeOn ∨
      i = .dataModeOff ∨ i = .waitReady →
    exec i s = .next t →
    t = { s with cs := t.cs, dcs := t.dcs, busOwned := t.busOwned, fault := t.fault, trace := t.trace, env := t.env,
                 result := t.result, waiting := t.waiting }

/-! ### The streaming engine -/

/-- `sendBuffer` (42 R75, R77, R78, R83): one data-mode bracket, `ceil(len/32)` chunks in order, one completed wait before
each; nothing else changes. With length 0 the bracket is empty. That the cursor stays at the end of the payload once the
operation has ended is the model's choice (log 33). -/
def Obligations.SendBufferSendsChunks : Prop :=
  ∀ (s : State) (data : List Byte) (len : Nat), s.busOwned = false → s.readyAtOnce → len ≤ data.length →
    exec (.sendBuffer data len) s =
      .next ({ s with busOwned := false, cs := true, dcs := true, sPos := len, sRem := 0,
                      trace := s.trace ++ streamEvents s.cs s.dcs (chunksOf data len) }.returns okResult)

/-- `sendBuffer` under backpressure (42 R75, R79; 20_memory R36): whatever low samples come, if every wait ends the payload
goes out whole, in order, once. The cursor after the operation: log 33, the model's choice. -/
def Obligations.SendBufferDeliversPayload : Prop :=
  ∀ (s : State) (data : List Byte) (len : Nat), s.busOwned = false → s.waitsEnd → len ≤ data.length →
    ∃ t, exec (.sendBuffer data len) s = .next t ∧ t.result = some okResult ∧ t.waiting = s.waiting ∧
      t.busOwned = false ∧ t.cs = true ∧ t.dcs = true ∧ t.sPos = len ∧ t.sRem = 0 ∧
      streamedBytes t.trace = streamedBytes s.trace ++ data.take len

/-- The empty payload (42 R83): `sendBuffer(data, 0)` and `sendFillers(0)` enter data mode and leave it, with no sample and
no transfer between. The cursor after the operation: log 33, the model's choice. -/
def Obligations.EmptyPayloadEmptyBracket : Prop :=
  ∀ (s : State) (data : List Byte), s.busOwned = false →
    exec (.sendBuffer data 0) s =
      .next ({ s with busOwned := false, cs := true, dcs := true, sPos := 0, sRem := 0,
                      trace := s.trace ++ [Event.mk .beginTxn s.cs s.dcs, Event.mk (.pinWrite .cs true) true s.dcs,
                        Event.mk (.pinWrite .dcs false) true false, Event.mk (.pinWrite .dcs true) true true,
                        Event.mk (.pinWrite .cs true) true true, Event.mk .endTxn true true] }.returns okResult) ∧
    exec (.sendFillers 0) s =
      .next ({ s with busOwned := false, cs := true, dcs := true, sRem := 0,
                      trace := s.trace ++ [Event.mk .beginTxn s.cs s.dcs, Event.mk (.pinWrite .cs true) true s.dcs,
                        Event.mk (.pinWrite .dcs false) true false, Event.mk (.pinWrite .dcs true) true true,
                        Event.mk (.pinWrite .cs true) true true, Event.mk .endTxn true true] }.returns okResult)

/-- `sendFillers` (42 R76, 30 R58): the chunks of a payload of `len` cached end-fill bytes. That `SPOS` is not touched and
`SREM` stays 0 after the operation is the model's choice (log 33). -/
def Obligations.SendFillersSendsEndFill : Prop :=
  ∀ (s : State) (len : Nat), s.busOwned = false → s.readyAtOnce →
    exec (.sendFillers len) s =
      .next ({ s with busOwned := false, cs := true, dcs := true, sRem := 0,
                      trace := s.trace ++ streamEvents s.cs s.dcs (chunksOf (List.replicate len s.endFill) len) }.returns
        okResult)

/-- `DATA_CHUNK` (42 R75, R77; log 12): in an open data-mode bracket the wait, then the chunk, and the cursor moves by its
length; with no bracket open it is a run of its own. -/
def Obligations.DataChunkWaitsThenSends : Prop :=
  ∀ (s : State) (ds : List Byte), 1 ≤ ds.length → ds.length ≤ 32 →
    (∀ n e, s.busOwned = true → s.cs = true → s.dcs = false → s.env.wait = (n, some e) → exec (.dataChunk ds) s =
      .next ({ s with env := e, sPos := s.sPos + ds.length, sRem := s.sRem - ds.length,
                      trace := s.trace ++ (waitEvents true false n ++ [Event.mk (.writeBulk ds) true false]) }.returns
        okResult)) ∧
    (s.busOwned = false → s.readyAtOnce → exec (.dataChunk ds) s =
      .next ({ s with busOwned := false, cs := true, dcs := true, sPos := ds.length, sRem := 0,
                      trace := s.trace ++ streamEvents s.cs s.dcs [ds] }.returns okResult))

/-- `writeAudio` (42 R80, 30 R54): in Midi mode every payload byte goes out after a 0x00, before chunking; in every other
mode the payload goes out unchanged. -/
def Obligations.WriteAudioExpandsInMidi : Prop :=
  ∀ (s : State) (data : List Byte) (len : Nat), s.busOwned = false → s.readyAtOnce → len ≤ data.length →
    (s.mode = .midi → exec (.writeAudio data len) s =
      .next ({ s with busOwned := false, cs := true, dcs := true, sPos := 2 * len, sRem := 0,
                      trace := s.trace ++ streamEvents s.cs s.dcs
                        (chunksOf ((data.take len).map fun b => [0x00, b]).flatten (2 * len)) }.returns okResult)) ∧
    (s.mode ≠ .midi → exec (.writeAudio data len) s =
      .next ({ s with busOwned := false, cs := true, dcs := true, sPos := len, sRem := 0,
                      trace := s.trace ++ streamEvents s.cs s.dcs (chunksOf data len) }.returns okResult))

/-- The guard on MIDI send (60 R145, 42 R81): outside Midi mode exactly one warning, no transport call, no state change,
`FAIL(GuardViolation)`. -/
def Obligations.MidiSendGuarded : Prop :=
  ∀ (s : State) (n b0 b1 b2 : Byte), 1 ≤ n.toNat → n.toNat ≤ 3 → s.mode ≠ .midi →
    exec (.sendMidiMessage n b0 b1 b2) s =
      .next ({ s with trace := s.trace ++ [Event.mk (.log .warning .midiGuard) s.cs s.dcs] }.returns
        { st := .fail .guardViolation, val := .absent })

/-- `sendMidiMessage` in Midi mode (42 R81): the first `n` bytes, each after a 0x00, in one chunk of one bracket; a length
outside 1 to 3 is refused by value and nothing happens (30 R56). -/
def Obligations.MidiSendFramesMessage : Prop :=
  ∀ (s : State) (n b0 b1 b2 : Byte),
    (1 ≤ n.toNat → n.toNat ≤ 3 → s.mode = .midi → s.busOwned = false → s.readyAtOnce →
      exec (.sendMidiMessage n b0 b1 b2) s =
        .next ({ s with busOwned := false, cs := true, dcs := true, sPos := 2 * n.toNat, sRem := 0,
                        trace := s.trace ++ streamEvents s.cs s.dcs
                          [(([b0, b1, b2].take n.toNat).map fun b => [0x00, b]).flatten] }.returns okResult)) ∧
    (n.toNat = 0 ∨ 3 < n.toNat → exec (.sendMidiMessage n b0 b1 b2) s =
      .next (s.returns { st := .fail .badOp, val := .absent }))

/-- Streaming operations touch no field of the Device Handle but the cursor and the transport's own, in every state and
however they end (42 R75, R76, R80, R81). -/
def Obligations.StreamOpsFrame : Prop :=
  ∀ (s t : State) (i : Instr),
    (∃ ds, i = .dataChunk ds) ∨ (∃ data len, i = .sendBuffer data len) ∨ (∃ len, i = .sendFillers len) ∨
      (∃ data len, i = .writeAudio data len) ∨ (∃ n b0 b1 b2, i = .sendMidiMessage n b0 b1 b2) →
    exec i s = .next t →
    t = { s with sPos := t.sPos, sRem := t.sRem, cs := t.cs, dcs := t.dcs, busOwned := t.busOwned, fault := t.fault,
                 trace := t.trace, env := t.env, result := t.result, waiting := t.waiting }

/-! ### The patch loader -/

/-- The loader is the interpreter of its records (43 R85, R86, R87, R90, R93, R94): a table made of records loads as
exactly their register writes, in order, one whole frame each, and nothing else changes. That `PLEN` and `PIDX` stay at
the table's end once the operation has ended is the model's choice (log 33). -/
def Obligations.LoaderExecutesRecords : Prop :=
  ∀ (s : State) (rs : List Instr), s.busOwned = false → s.readyAtOnce → (∀ r ∈ rs, isRecord r = true) →
    ∃ t, exec (.loadUserCode (rs.map recordWords).flatten (rs.map recordWords).flatten.length) s = .next t ∧
      t.result = some okResult ∧
      t.trace = s.trace ++ writesEvents s.cs s.dcs (rs.map recordWrites).flatten ∧
      t.pLen = (rs.map recordWords).flatten.length ∧ t.pIdx = t.pLen ∧
      t = { s with pIdx := t.pIdx, pLen := t.pLen, pAddr := t.pAddr, pCnt := t.pCnt, pVal := t.pVal, cs := t.cs,
                   dcs := t.dcs, busOwned := false, trace := t.trace, env := t.env, result := t.result }

/-- Truncated tables (43 R88, R91; 20_memory R35): a table that ends inside a record faults at the first word that is not
there; every write before it stays, and the fault is recorded. `vs` are the values of a cut copy record. -/
def Obligations.TruncatedTableFaults : Prop :=
  ∀ (s : State) (rs : List Instr) (a count : Word) (vs : List Word), s.busOwned = false → s.readyAtOnce →
    (∀ r ∈ rs, isRecord r = true) → hiByte a = 0 →
    let before := (rs.map recordWords).flatten
    (∃ t, exec (.loadUserCode (before ++ [a]) (before.length + 1)) s = .next t ∧
      t.result = some { st := .fault (.patchMalformed (before.length + 1) .outOfBounds), val := .absent } ∧
      t.fault = some .patchMalformed ∧ t.busOwned = false ∧ t.mode = s.mode ∧
      t.trace = s.trace ++ writesEvents s.cs s.dcs (rs.map recordWrites).flatten) ∧
    (count.getLsbD 15 = true →
      ∃ t, exec (.loadUserCode (before ++ [a, count]) (before.length + 2)) s = .next t ∧
        t.result = some { st := .fault (.patchMalformed (before.length + 2) .outOfBounds), val := .absent } ∧
        t.fault = some .patchMalformed ∧ t.busOwned = false ∧ t.mode = s.mode ∧
        t.trace = s.trace ++ writesEvents s.cs s.dcs (rs.map recordWrites).flatten) ∧
    (count.getLsbD 15 = false → vs.length < (count.extractLsb' 0 15).toNat →
      ∃ t, exec (.loadUserCode (before ++ a :: count :: vs) (before.length + 2 + vs.length)) s = .next t ∧
        t.result = some { st := .fault (.patchMalformed (before.length + 2 + vs.length) .outOfBounds), val := .absent } ∧
        t.fault = some .patchMalformed ∧ t.busOwned = false ∧ t.mode = s.mode ∧
        t.trace = s.trace ++ writesEvents s.cs s.dcs
          ((rs.map recordWrites).flatten ++ vs.map fun v => (loByte a, v)))

/-- An address word above 0xFF (43 R89): the fault comes before the count word is read and before any write of the
record, whatever follows the address word. -/
def Obligations.WideAddressFaults : Prop :=
  ∀ (s : State) (rs : List Instr) (a : Word) (rest : List Word), s.busOwned = false → s.readyAtOnce →
    (∀ r ∈ rs, isRecord r = true) → hiByte a ≠ 0 →
    let before := (rs.map recordWords).flatten
    ∃ t, exec (.loadUserCode (before ++ a :: rest) (before.length + 1 + rest.length)) s = .next t ∧
      t.result = some { st := .fault (.patchMalformed before.length .addressTooWide), val := .absent } ∧
      t.fault = some .patchMalformed ∧ t.busOwned = false ∧ t.mode = s.mode ∧
      t.trace = s.trace ++ writesEvents s.cs s.dcs (rs.map recordWrites).flatten

/-- A record on its own (43 R86, R87, R89, R90; logs 13 and 33, the model's choices): its writes in order, the cursor moved by its length, its address,
count and last value in the record registers; an address above 0xFF faults with no write. -/
def Obligations.RecordRunsAlone : Prop :=
  ∀ (s : State) (a v : Word) (n : BitVec 15) (vs : List Word), s.busOwned = false → s.readyAtOnce → vs.length < 2 ^ 15 →
    (hiByte a = 0 →
      (∃ t, exec (.patchRle a n v) s = .next t ∧ t.result = some okResult ∧
        t.trace = s.trace ++ writesEvents s.cs s.dcs (List.replicate n.toNat (loByte a, v)) ∧
        t.pIdx = s.pIdx + 3 ∧ t.pAddr = a ∧ t.pCnt = 1#1 ++ n ∧ t.pVal = v) ∧
      (∃ t, exec (.patchCopy a vs) s = .next t ∧ t.result = some okResult ∧
        t.trace = s.trace ++ writesEvents s.cs s.dcs (vs.map fun w => (loByte a, w)) ∧
        t.pIdx = s.pIdx + 2 + vs.length ∧ t.pAddr = a ∧ t.pCnt.toNat = vs.length ∧
        t.pVal = vs.getLast?.getD s.pVal)) ∧
    (hiByte a ≠ 0 →
      exec (.patchRle a n v) s =
        .next ({ s with pAddr := a, fault := some .patchMalformed }.returns
          { st := .fault (.patchMalformed s.pIdx .addressTooWide), val := .absent }) ∧
      exec (.patchCopy a vs) s =
        .next ({ s with pAddr := a, fault := some .patchMalformed }.returns
          { st := .fault (.patchMalformed s.pIdx .addressTooWide), val := .absent }))

/-- Patch operations touch no field of the Device Handle but the loader's cursor and record registers and the transport's
own, in every state and however they end (43 R85, R86, R87). -/
def Obligations.PatchOpsFrame : Prop :=
  ∀ (s t : State) (i : Instr),
    (∃ a n v, i = .patchRle a n v) ∨ (∃ a vs, i = .patchCopy a vs) ∨ (∃ words plen, i = .loadUserCode words plen) →
    exec i s = .next t →
    t = { s with pIdx := t.pIdx, pLen := t.pLen, pAddr := t.pAddr, pCnt := t.pCnt, pVal := t.pVal, cs := t.cs,
                 dcs := t.dcs, busOwned := t.busOwned, fault := t.fault, trace := t.trace, env := t.env,
                 result := t.result, waiting := t.waiting }

/-! ### The mode state machine -/

/-- `chipInit` (44 R96, R97, R98, R99, R100; 10_state R18, R29): if every wait ends it returns; the family is that of the
version, A for `VER_A`, B for `VER_B`, unknown for every other; the result is `(OK)` exactly when `INIT_OK` is set, a
self-test failure only where a mismatch was counted; the lines are idle and the clock fast; only the fields the rule
lists change. And where the ready-signal reads low `n` times, at most `STARTUP_POLLS`, and high from then on, its whole
next state in the rule's order: the pins, the slow clock and the check; a self-test phase with its mismatches counted
and logged; the fast clock and the second phase; `CLOCKF_INIT` and `AUDATA_INIT` written; the version from the status
word's bits `VER_HI` to `VER_LO`; the end-fill byte from the low byte of the RAM word at `ENDFILL_ADDR`; and
`ConnectivityFailure`, logged, exactly where no sample read high or the status word is 0x0000 or 0xFFFF.
Much of the second part is the spec's own decision and not the source's: the order of the steps, one self-test phase at
each bus speed, and the place of the end-fill read (D22: a claim must not depend on where that read sits); the bounded
check of `STARTUP_POLLS` samples (D23); the shape of the self-test (D24; positive strides: log 27); the tag Unknown
(D35); and that the low byte of the RAM word is the end-fill byte, from general knowledge (GK6: a claim must not rest on
it). The version held zero-extended to 16 bits is the model's (log 28), and so is the form of the ready-signal and of
the chip's answers (logs 3 and 4). This statement describes those decisions; it claims nothing of a real chip. -/
def Obligations.ChipInitCompletes : Prop :=
  (∀ s : State, s.busOwned = false → s.waitsEnd →
    ∃ t, exec .chipInit s = .next t ∧
      t.cs = true ∧ t.dcs = true ∧ t.busClk = s.cfg.clkFast ∧
      t.rst = (if s.cfg.hasRst then !s.cfg.rstActive else s.rst) ∧
      t.family = (if t.version = s.cfg.verA then .familyA else if t.version = s.cfg.verB then .familyB else .unknown) ∧
      (t.initOk = true ↔ t.result = some okResult) ∧
      (t.initOk = true → t.stFail1 = 0 ∧ t.stFail2 = 0) ∧
      (t.result = some okResult ∨ t.result = some (failResult .connectivityFailure) ∨
        (t.result = some (failResult .selfTestFailure) ∧ (0 < t.stFail1 ∨ 0 < t.stFail2))) ∧
      t.stFail1 ≤ s.cfg.stMaxFail ∧ t.stFail2 ≤ s.cfg.stMaxFail ∧
      t = { s with cs := t.cs, dcs := t.dcs, rst := t.rst, busClk := t.busClk, busOwned := false,
                   stFail1 := t.stFail1, stFail2 := t.stFail2, version := t.version, family := t.family,
                   endFill := t.endFill, initOk := t.initOk, trace := t.trace, env := t.env, result := t.result }) ∧
  ∀ (s : State) (n : Nat), s.busOwned = false → s.env.ready = List.replicate n false → s.env.readyAfter = .high →
    n ≤ s.cfg.startupPolls →
    let c := s.cfg
    let a := (s.probed n).selfTested 1 c.stStep1
    let b := State.selfTested { a.1 with
      stFail1 := a.2, busClk := c.clkFast, trace := a.1.trace ++ [⟨.setClock c.clkFast, a.1.cs, a.1.dcs⟩] } 2 c.stStep2
    let p := (State.wrote { b.1 with stFail2 := b.2 } (s.regAddr .clockf) c.clockfInit).wrote
      (s.regAddr .audata) c.audataInit
    let st := p.answered (s.regAddr .status)
    let d := (p.didRead (s.regAddr .status)).wrote (s.regAddr .wramAddr) c.endFillAddr
    let ver : Word := BitVec.ofNat 16 (st.toNat / 2 ^ c.verLo.val % 2 ^ (c.verHi.val - c.verLo.val + 1))
    let connected := n < c.startupPolls ∧ st ≠ 0x0000 ∧ st ≠ 0xFFFF
    let u : State := { d.didRead (s.regAddr .wram) with
      version := ver
      family := if ver = c.verA then .familyA else if ver = c.verB then .familyB else .unknown
      endFill := (d.answered (s.regAddr .wram)).extractLsb' 0 8
      initOk := decide (connected ∧ a.2 = 0 ∧ b.2 = 0) }
    (connected → exec .chipInit s = .next (u.returns
      (if a.2 = 0 ∧ b.2 = 0 then { st := .ok, val := .absent } else { st := .fail .selfTestFailure, val := .absent }))) ∧
    (¬connected → exec .chipInit s = .next
      ({ u with trace := u.trace ++ [Event.mk (.log .error .connect) true true] }.returns
        { st := .fail .connectivityFailure, val := .absent }))

/-- The self-test (44 R98): a chip that returns what was last written to an address (the ideal chip of D28) passes both
phases, whatever the parameters; the shape of the phases is the spec's own (D24). How a mismatch is counted and logged is the second part of `ChipInitCompletes`. -/
def Obligations.EchoingChipPassesSelfTest : Prop :=
  ∀ (s : State) (c : IdealChip), s.busOwned = false → s.waitsEnd → s.env.chip = some c →
    ∃ t, exec .chipInit s = .next t ∧ t.stFail1 = 0 ∧ t.stFail2 = 0 ∧
      t.result ≠ some (failResult .selfTestFailure)

/-- `beginOutput` (44 R101; D15, the spec's own: the mode and the result): if every wait ends it completes with the mode
Output whatever the initialisation found; with no patch to load its result is that of `chipInit`. And where every wait ends
at once: after the initialisation the mode is Output and `PRIME_LEN` bytes of the end-fill byte go out in one streaming run; then, on
Family B with `LOAD_PATCH` and on nothing else, the patch table is loaded, whose fault is the result if it has one.
The run of fillers is that of 42 R76; that `SREM` stays 0 and `SPOS` is left alone after it is the model's choice
(log 33). -/
def Obligations.BeginOutputEntersOutput : Prop :=
  (∀ s : State, s.busOwned = false → s.waitsEnd →
    ∃ t, exec .beginOutput s = .next t ∧ t.mode = .output ∧ t.waiting = s.waiting ∧ t.busOwned = false ∧
      ∀ u, exec .chipInit s = .next u → t.family = u.family ∧ t.initOk = u.initOk ∧
        (u.family ≠ .familyB ∨ s.cfg.loadPatch = false → t.result = u.result)) ∧
  ∀ (s u : State) (r : Result), s.busOwned = false → s.readyAtOnce → chipInit s = .ok r u →
    let v : State := { u with
      mode := .output, busOwned := false, cs := true, dcs := true, sRem := 0
      trace := u.trace ++ streamEvents u.cs u.dcs
        (chunksOf (List.replicate s.cfg.primeLen u.endFill) s.cfg.primeLen) }
    (¬(u.family = .familyB ∧ s.cfg.loadPatch = true) → exec .beginOutput s = .next (v.returns r)) ∧
    (u.family = .familyB ∧ s.cfg.loadPatch = true →
      (∀ w, loadTable s.cfg.tables.patch v = .ok () w → exec .beginOutput s = .next (w.returns r)) ∧
      ∀ info w, loadTable s.cfg.tables.patch v = .error (.raised info) w →
        exec .beginOutput s = .next (w.returns { st := .fault info, val := .absent }))

/-- `beginMidi` (44 R102, R95): if every wait ends it completes in one of four ways: verified, and the mode is Midi; a family
that is neither, and the mode is unchanged; a failed verification, of whose mode nothing is said; a malformed table, and
the mode is unchanged. -/
def Obligations.BeginMidiOutcomes : Prop :=
  ∀ s : State, s.busOwned = false → s.waitsEnd →
    ∃ t, exec .beginMidi s = .next t ∧ t.waiting = s.waiting ∧ t.busOwned = false ∧
      ((t.result = some okResult ∧ t.mode = .midi ∧ t.family ≠ .unknown) ∨
       (t.result = some (failResult .unsupportedFamily) ∧ t.mode = s.mode ∧ t.family = .unknown) ∨
       (t.result = some (failResult .midiVerifyFailure) ∧ t.family ≠ .unknown) ∨
       (∃ k r, t.result = some { st := .fault (.patchMalformed k r), val := .absent } ∧ t.mode = s.mode ∧
          t.fault = some .patchMalformed ∧ t.family ≠ .unknown))

/-- `beginMidi` verified (44 R102): after the initialisation and the load of the family's table, the entry point goes to
the audio-interface address register, the verification register is read once, and on the known value the mode is
Midi. -/
def Obligations.BeginMidiVerifies : Prop :=
  ∀ (s u w : State) (r : Result) (table : List Word) (entry : Word), s.busOwned = false → s.readyAtOnce →
    chipInit s = .ok r u →
    (u.family = .familyA ∧ table = s.cfg.tables.midiA ∧ entry = s.cfg.midiEntryA) ∨
      (u.family = .familyB ∧ table = s.cfg.tables.midiB ∧ entry = s.cfg.midiEntryB) →
    loadTable table u = .ok () w →
    (w.wrote (w.regAddr .aiAddr) entry).answered (w.regAddr s.cfg.midiVerifyReg) = s.cfg.midiVerifyVal →
    exec .beginMidi s =
      .next ({ (w.wrote (w.regAddr .aiAddr) entry).didRead (w.regAddr s.cfg.midiVerifyReg) with mode := .midi }.returns
        okResult)

/-- `beginInput` (44 R103, R104, R95): if every wait ends it completes; the options are stored clamped (the clamp of gain and
auto-gain: D21, the spec's own; of the channel count: log 23, DEDUCED); on success the mode is Input, the
channel multiplier is the channel count and the value is the achieved rate; on any failure the mode is unchanged. -/
def Obligations.BeginInputOutcomes : Prop :=
  ∀ (s : State) (o : RecOptions), s.busOwned = false → s.waitsEnd →
    ∃ t, exec (.beginInput o) s = .next t ∧ t.waiting = s.waiting ∧ t.busOwned = false ∧
      t.recRate = (clamp o.rate 8000 48000).toNat ∧ t.recCh = (clamp o.channels 1 2).toNat ∧
      t.recGain = (clamp o.gain 0 100).toNat ∧ t.recAgc = (clamp o.agc 0 100).toNat ∧
      t.recSrc = o.source ∧ t.recKeepHdr = o.keepHeader ∧
      ((t.result = some (okNum t.recAchieved) ∧ t.mode = .input ∧ t.chMult = t.recCh ∧ t.family ≠ .unknown) ∨
       (t.result = some (failResult .unsupportedFamily) ∧ t.mode = s.mode ∧ t.family = .unknown) ∨
       (t.result = some solverMiss ∧ t.mode = s.mode ∧ t.family = .familyA) ∨
       (∃ k r, t.result = some { st := .fault (.patchMalformed k r), val := .absent } ∧ t.mode = s.mode ∧
          t.fault = some .patchMalformed))

/-- Family A capture (44 R104, R105; 45 R122): after the load of the microcode and a solved rate, the clock register (the
base bits with the multiplier's of `MULT_ENC`), the divider, the gain on the scale 0 to 1024, the recording-active bit by
read-modify-write and the entry address are programmed in that order; the achieved rate is the floor of the solved one.
A miss programs nothing. The floors (D18, D21), the read-modify-write and "flips" read as "sets" (D25) are the spec's
own. -/
def Obligations.CaptureSetupFamilyA : Prop :=
  ∀ (s u w : State) (o : RecOptions) (r : Result), s.busOwned = false → s.readyAtOnce →
    chipInit (s.withOptions o) = .ok r u → u.family = .familyA → loadTable s.cfg.tables.capA u = .ok () w →
    let v := w.searched w.recRate
    let e := s.cfg.multEnc
    (∀ k div, solverPoint s.cfg.baseClock w.recRate = some (k, div) →
      exec (.beginInput o) s =
        .next ({ (((((v.wrote (v.regAddr .clockf) (s.cfg.clockfBaseA |||
                      [e.k0, e.k1, e.k2, e.k3, e.k4, e.k5].getD k e.k6)).wrote
                    (v.regAddr s.cfg.aDivReg) (BitVec.ofNat 16 div)).wrote
                    (v.regAddr s.cfg.aGainReg) (BitVec.ofNat 16 (v.recGain * 1024 / 100))).modeBitsSet
                    fun m => m ||| (1#16 <<< s.cfg.bitRec.val)).wrote (v.regAddr .aiAddr) s.cfg.capEntryA) with
                 recAchieved := (k + 4) * s.cfg.baseClock / (512 * div), chMult := v.recCh, mode := .input }.returns
          (okNum (((k + 4) * s.cfg.baseClock / (512 * div) : Nat) : Int)))) ∧
    (solverPoint s.cfg.baseClock w.recRate = none →
      exec (.beginInput o) s =
        .next ({ v with trace := v.trace ++ [Event.mk (.log .error .solver) v.cs v.dcs] }.returns solverMiss))

/-- Family B capture (44 R104, R106, R107, R113): the four control registers from the options (the rate; the gain on the
scale 0 to 1024; the auto-gain on the scale 0 to 65535; the channel selection of the channel count and the source with
the linear-PCM flag), then by read-modify-write the recording-active bit and, for the auxiliary source only, the
line-input bit; then the microcode, then 22 discarded reads unless the header is kept; the achieved rate is the stored
one. The scalings (D21), the read-modify-write (D25) and the strip (D36) are the spec's own; which register and which bits
carry what is a parameter (R113), of whose default (GK8) nothing is assumed. -/
def Obligations.CaptureSetupFamilyB : Prop :=
  ∀ (s u w : State) (o : RecOptions) (r : Result), s.busOwned = false → s.readyAtOnce →
    chipInit (s.withOptions o) = .ok r u → u.family = .familyB →
    let m := s.cfg.captureMapB
    let sel := if u.recCh = 1 then (if u.recSrc = .mic then m.chselMonoMic else m.chselMonoAux)
      else (if u.recSrc = .mic then m.chselStereoMic else m.chselStereoAux)
    let v := ((((u.wrote (u.regAddr m.rateReg) (BitVec.ofNat 16 u.recRate)).wrote
      (u.regAddr m.gainReg) (BitVec.ofNat 16 (u.recGain * 1024 / 100))).wrote
      (u.regAddr m.agcReg) (BitVec.ofNat 16 (u.recAgc * 65535 / 100))).wrote
      (u.regAddr m.selReg) (sel ||| m.linearPcm)).modeBitsSet fun b =>
        if u.recSrc = .aux then b ||| (1#16 <<< s.cfg.bitRec.val) ||| (1#16 <<< s.cfg.bitLine.val)
        else b ||| (1#16 <<< s.cfg.bitRec.val)
    loadTable s.cfg.tables.capB v = .ok () w →
    let x := if o.keepHeader then w else w.didReads (w.regAddr .hdat0) 22
    exec (.beginInput o) s =
      .next ({ x with recAchieved := x.recRate, chMult := x.recCh, mode := .input }.returns (okNum x.recRate))

/-- `end` and `softReset` (44 R108, R112): read-modify-writes of the mode register, clearing recording-active and setting
the reset bit; the mode changes only under `END_CLEARS_MODE`; nothing else changes. -/
def Obligations.EndAndSoftReset : Prop :=
  ∀ s : State, s.busOwned = false → s.readyAtOnce →
    exec .softReset s = .next ((s.modeBitsSet fun m => m ||| (1#16 <<< s.cfg.bitReset.val)).returns okResult) ∧
    exec .endOp s =
      .next ({ (s.modeBitsSet fun m => m &&& ~~~(1#16 <<< s.cfg.bitRec.val)).modeBitsSet
                 fun m => m ||| (1#16 <<< s.cfg.bitReset.val) with
               mode := if s.cfg.endClearsMode then .notActive else s.mode }.returns okResult)

/-- The guard on capture reads (60 R146): outside Input mode `available` and `readBytes` answer `(OK, 0)` with no bus event
and no state change. -/
def Obligations.CaptureReadsGuarded : Prop :=
  ∀ (s : State) (buf n : Nat), s.mode ≠ .input →
    exec .available s = .next (s.returns { st := .ok, val := .num 0 }) ∧
    exec (.readBytes buf n) s = .next (s.returns { st := .ok, val := .num 0 })

/-- Capture reads in Input mode (44 R110, R111): `available` is twice the word of stream header word 1; `readBytes` stores
as many whole words of stream header word 0 as fit and are there. -/
def Obligations.CaptureReadsInInput : Prop :=
  ∀ (s : State) (buf n : Nat), s.mode = .input → s.busOwned = false → s.readyAtOnce →
    let level := 2 * (s.answered (s.regAddr .hdat1)).toNat
    exec .available s = .next ((s.didRead (s.regAddr .hdat1)).returns (okNum level)) ∧
    exec (.readBytes buf n) s =
      .next (((s.didRead (s.regAddr .hdat1)).captured (min n level / 2) buf).returns
        (okNum ((2 * (min n level / 2) : Nat) : Int)))

/-- `readBytes` writes nothing outside the bytes it reports (44 R111): every address below the buffer, or at or beyond
`buf + k`, reads as before, in every state and however it ends; the count is even and at most `n`. -/
def Obligations.ReadBytesStaysInBuffer : Prop :=
  ∀ (s t : State) (buf n : Nat), exec (.readBytes buf n) s = .next t →
    (∀ a, a < buf ∨ buf + 2 * (n / 2) ≤ a → Memory.read t.buf a = Memory.read s.buf a) ∧
    (∀ k : Int, t.result = some (okNum k) → ∃ j : Nat, k = ((2 * j : Nat) : Int) ∧ 2 * j ≤ n ∧
      ∀ a, a < buf ∨ buf + 2 * j ≤ a → Memory.read t.buf a = Memory.read s.buf a) ∧
    t = { s with buf := t.buf, cs := t.cs, dcs := t.dcs, busOwned := t.busOwned, fault := t.fault, trace := t.trace,
                 env := t.env, result := t.result, waiting := t.waiting }

/-! ### The sample-rate solver -/

/-- The solver's answer (45 R120, R121, R122, R123, R124): a point of the grid at or above the target and closer to it
than zero is, of which no point at or above the target is lower, and the first of its rate in scan order. The tie rule (D19)
and the exact rationals (D18) are the spec's own. With base clock 0 every rate is 0, and only a target of 0 finds a
point (log 34). -/
def Obligations.SolverNearestFromAbove : Prop :=
  ∀ (base target k div : Nat), solverPoint base target = some (k, div) →
    onGrid k div ∧ rateAtLeast base target k div ∧
    (0 < base → rateUnderDouble base target k div) ∧
    (0 < base → ∀ k' div', onGrid k' div' → rateAtLeast base target k' div' →
      rateLe k div k' div' ∧ (rateLe k' div' k div → k < k' ∨ (k = k' ∧ div ≤ div')))

/-- A miss (45 R126): the solver finds nothing exactly when no point of the grid has a rate from the target up to, and not
including, twice the target. It leaves out a base clock and a target that are both 0, where R126's condition says a miss and the
pseudocode of R122 finds the first point with difference 0: there the model follows R122 (log 34), as the last clause
says. -/
def Obligations.SolverMissExactly : Prop :=
  (∀ (base target : Nat), 0 < base ∨ 0 < target →
    (solverPoint base target = none ↔
      ∀ k div, onGrid k div → ¬(rateAtLeast base target k div ∧ rateUnderDouble base target k div))) ∧
  solverPoint 0 0 = some (0, 4)

/-- `solveRate` (45 R122, R127; 60 R147): the floor of the found rate, or `FAIL(SolverMiss)` with the sentinel -1; only the
scratch fields change and no event happens. That the report is the floor of the exact rational is the spec's own (D18);
that the scratch fields end as the pseudocode leaves them, `State.searched`, is DEDUCED (log 24). -/
def Obligations.SolveRateReports : Prop :=
  ∀ (s : State) (target : Nat),
    (∀ k div, solverPoint s.cfg.baseClock target = some (k, div) → exec (.solveRate target) s =
      .next ((s.searched target).returns (okNum (((k + 4) * s.cfg.baseClock / (512 * div) : Nat) : Int)))) ∧
    (solverPoint s.cfg.baseClock target = none → exec (.solveRate target) s =
      .next ((s.searched target).returns { st := .fail .solverMiss, val := .num (-1) }))

/-- At the base clock 12,288,000 a request for 8000 answers 8000, by the exact match of 45 R122 and R125, and every answer is
a rate not below the request (R123, R127). R127's property of the source is weaker: that 8000 gets a non-negative rate.
The report as the floor of the exact rational is the spec's own (D18); `BEST_DIFF` read after the operation is DEDUCED
(log 24). -/
def Obligations.SolverAtSourceClock : Prop :=
  ∀ s : State, s.cfg.baseClock = 12288000 →
    (∃ t, exec (.solveRate 8000) s = .next t ∧ t.result = some (okNum 8000) ∧ t.bestDiff.num = 0) ∧
    ∀ (target : Nat) (t : State) (n : Int), exec (.solveRate target) s = .next t → t.result = some (okNum n) →
      (target : Int) ≤ n

/-! ### Equalizer, volume, balance -/

/-- The equalizer setters (46 R130, R131, R132, R133): the clamped value is stored, and the word packed from the stored
values goes to the bass register in one write, also when nothing changed. `EQ_WORD` (30 R53; log 14, the model's choice):
the four nibbles, treble amplitude first, go to the bass register in one write; no cached field changes. -/
def Obligations.EqualizerSetters : Prop :=
  ∀ (s : State) (x : Int), s.busOwned = false → s.readyAtOnce →
    (let u := { s with bassA := (max 0 (min x 100)).toNat }
     exec (.setBassAmplitude x) s = .next ((u.wrote (s.regAddr .bass) u.eqWord).returns okResult)) ∧
    (let u := { s with bassF := (max 0 (min x 15000)).toNat }
     exec (.setBassFrequencyLimit x) s = .next ((u.wrote (s.regAddr .bass) u.eqWord).returns okResult)) ∧
    (let u := { s with trebA := (max 0 (min x 100)).toNat }
     exec (.setTrebleAmplitude x) s = .next ((u.wrote (s.regAddr .bass) u.eqWord).returns okResult)) ∧
    (let u := { s with trebF := (max 0 (min x 15000)).toNat }
     exec (.setTrebleFrequencyLimit x) s = .next ((u.wrote (s.regAddr .bass) u.eqWord).returns okResult)) ∧
    ∀ ta tf ba bf : BitVec 4, exec (.eqWord ta tf ba bf) s =
      .next ((s.wrote (s.regAddr .bass) (ta ++ tf ++ ba ++ bf)).returns okResult)

/-- The scalings and the packed word (30 R53; 46 R128, R129, R130): floor of the clamped value on the scale, the two
frequency clamps in either order; the values the rules list; and the four nibbles are the scaled stored values. -/
def Obligations.EqualizerScalings : Prop :=
  (∀ a : Int, (amp4 a).toNat = (max 0 (min a 100)).toNat * 15 / 100 ∧ amp4 (max 0 (min a 100)) = amp4 a) ∧
  (∀ f : Int, (tfreq4 f).toNat = min ((max 0 (min f 15000)).toNat / 1000) 15 ∧
    (bfreq4 f).toNat = min ((max 0 (min f 15000)).toNat / 10) 15 ∧
    tfreq4 (max 0 (min f 15000)) = tfreq4 f ∧ bfreq4 (max 0 (min f 15000)) = bfreq4 f) ∧
  [0, 6, 7, 50, 99, 100, 200].map amp4 = [0, 0, 1, 7, 14, 15, 15] ∧
  [0, 999, 1000, 14999, 15000, 30000].map tfreq4 = [0, 0, 1, 14, 15, 15] ∧
  [0, 9, 10, 149, 150, 15000].map bfreq4 = [0, 0, 1, 14, 15, 15] ∧
  ∀ s : State,
    s.eqWord.extractLsb' 12 4 = amp4 s.trebA ∧ s.eqWord.extractLsb' 8 4 = tfreq4 s.trebF ∧
    s.eqWord.extractLsb' 4 4 = amp4 s.bassA ∧ s.eqWord.extractLsb' 0 4 = bfreq4 s.bassF

/-- `setVolume` and `setBalance` (46 R135, R136): the clamped value is stored, and the mapped word of both stored values goes
to the volume register in one write. -/
def Obligations.VolumeAndBalanceSetters : Prop :=
  ∀ (s : State) (x : Int), s.busOwned = false → s.readyAtOnce →
    (let u := { s with volume := (max 0 (min x 100)).toNat }
     exec (.setVolume x) s = .next ((u.wrote (s.regAddr .vol) (volmap u.volume u.balance)).returns okResult)) ∧
    (let u := { s with balance := max (-100) (min x 100) }
     exec (.setBalance x) s = .next ((u.wrote (s.regAddr .vol) (volmap u.volume u.balance)).returns okResult))

/-- The two laws of the volume mapping (46 R134): volume 0 and volume 100 give different words at every balance; at
balance 0 both channel bytes are equal. -/
def Obligations.VolumeMappingLaws : Prop :=
  (∀ b : Int, volmap 0 b ≠ volmap 100 b) ∧
  (∀ v : Nat, (volmap v 0).extractLsb' 8 8 = (volmap v 0).extractLsb' 0 8)

/-- The setters complete whenever every wait ends, and each writes its own field and the transport's, nothing else
(46 R130 to R133, R135, R136). -/
def Obligations.SettersCompleteAndFrame : Prop :=
  ∀ (s : State) (x : Int), s.busOwned = false → s.waitsEnd →
    (∃ t, exec (.setBassAmplitude x) s = .next t ∧ t.result = some okResult ∧
      t = { s with bassA := t.bassA, cs := true, dcs := true, trace := t.trace, env := t.env, result := t.result }) ∧
    (∃ t, exec (.setBassFrequencyLimit x) s = .next t ∧ t.result = some okResult ∧
      t = { s with bassF := t.bassF, cs := true, dcs := true, trace := t.trace, env := t.env, result := t.result }) ∧
    (∃ t, exec (.setTrebleAmplitude x) s = .next t ∧ t.result = some okResult ∧
      t = { s with trebA := t.trebA, cs := true, dcs := true, trace := t.trace, env := t.env, result := t.result }) ∧
    (∃ t, exec (.setTrebleFrequencyLimit x) s = .next t ∧ t.result = some okResult ∧
      t = { s with trebF := t.trebF, cs := true, dcs := true, trace := t.trace, env := t.env, result := t.result }) ∧
    (∃ t, exec (.setVolume x) s = .next t ∧ t.result = some okResult ∧
      t = { s with volume := t.volume, cs := true, dcs := true, trace := t.trace, env := t.env, result := t.result }) ∧
    (∃ t, exec (.setBalance x) s = .next t ∧ t.result = some okResult ∧
      t = { s with balance := t.balance, cs := true, dcs := true, trace := t.trace, env := t.env, result := t.result })

/-- `getState` (46 R137): the cached field the selector names, with no event and no other change; code 0x76. -/
def Obligations.GetStateReturnsCache : Prop :=
  ∀ s : State,
    exec (.getState .volume) s = .next (s.returns (okNum s.volume)) ∧
    exec (.getState .balance) s = .next (s.returns (okNum s.balance)) ∧
    exec (.getState .bassA) s = .next (s.returns (okNum s.bassA)) ∧
    exec (.getState .bassF) s = .next (s.returns (okNum s.bassF)) ∧
    exec (.getState .trebA) s = .next (s.returns (okNum s.trebA)) ∧
    exec (.getState .trebF) s = .next (s.returns (okNum s.trebF)) ∧
    exec (.getState .mode) s = .next (s.returns { st := .ok, val := .mode s.mode }) ∧
    exec (.getState .version) s = .next (s.returns (okWord s.version)) ∧
    exec (.getState .family) s = .next (s.returns { st := .ok, val := .family s.family }) ∧
    exec (.getState .initOk) s = .next (s.returns { st := .ok, val := .flag s.initOk }) ∧
    exec (.getState .recAchieved) s = .next (s.returns (okNum s.recAchieved)) ∧
    ∀ b rest, decode .host (0x76 :: 0x00 :: b :: rest) = .ok (.getState .volume) (b :: rest)

/-! ### The whole machine -/

/-- Reset (10_state R27, 70 R160, R161): the values the table states; nothing has happened and nothing is presented. -/
def Obligations.ResetStatedValues : Prop :=
  State.reset.mode = .notActive ∧ State.reset.busOwned = false ∧ State.reset.fault = none ∧
  State.reset.initOk = false ∧ State.reset.stFail1 = 0 ∧ State.reset.stFail2 = 0 ∧ State.reset.family = .unknown ∧
  State.reset.chMult = 1 ∧ State.reset.recKeepHdr = false ∧ State.reset.trace = [] ∧ step State.reset = .next State.reset

/-- The invariant holds at reset. -/
def Obligations.ResetMeetsInvariant : Prop := State.reset.Inv

/-- Every step keeps the invariant (10_state R12, R16, R18, R20, R22; 40 R64; 41 R69; 42 R77; 70 R173): the cached fields
stay in their ranges and widths, the select lines are never both low while the bus is owned, every transfer is made with
the bus owned and exactly one line selected, `BeginTxn` and `EndTxn` alternate from `BeginTxn` on, between the last byte
of a frame and the `EndTxn` of its bracket comes a sample that read high with the select lines unmoved until then, every
chunk is preceded by a high sample, and the capture buffer's memory stays canonical. -/
def Obligations.StepKeepsInvariant : Prop :=
  ∀ s t : State, s.Inv → step s = .next t → t.Inv

/-- `FAULT` is sticky (10_state R21): it is none at reset, and no step clears it. -/
def Obligations.FaultStaysSet : Prop :=
  State.reset.fault = none ∧
  ∀ s t : State, step s = .next t → s.fault.isSome = true → t.fault.isSome = true

/-- Who writes `MODE` (44 R95, 10_state R11): no instruction but the three begin-calls and `end`; `end` only to NotActive and
only under `END_CLEARS_MODE`; `beginOutput` only to Output, `beginInput` only to Input. -/
def Obligations.ModeWriters : Prop :=
  ∀ (i : Instr) (s t : State), exec i s = .next t → t.mode ≠ s.mode →
    (i = .beginOutput ∧ t.mode = .output) ∨ i = .beginMidi ∨ (∃ o, i = .beginInput o ∧ t.mode = .input) ∨
      (i = .endOp ∧ t.mode = .notActive ∧ s.cfg.endClearsMode = true)

/-- Who writes the fields of chip initialisation (10_state R17, R18, R29; 00_scope R7): the family, the version, the end-fill
byte, `INIT_OK` and the mismatch counts change only in `chipInit` and the begin-calls that run it. -/
def Obligations.InitFieldWriters : Prop :=
  ∀ (i : Instr) (s t : State), exec i s = .next t →
    i = .chipInit ∨ i = .beginOutput ∨ i = .beginMidi ∨ (∃ o, i = .beginInput o) ∨
      (t.family = s.family ∧ t.version = s.version ∧ t.endFill = s.endFill ∧ t.initOk = s.initOk ∧
        t.stFail1 = s.stFail1 ∧ t.stFail2 = s.stFail2 ∧ t.rst = s.rst ∧ t.busClk = s.busClk)

/-- What initialisation and the mode machine leave alone, in every state and however they end (44 R96, R101, R102, R103,
R108; 70 R163): the volume, the balance, the equalizer values, the capture buffer and everything else not named. -/
def Obligations.ModeMachineFrame : Prop :=
  ∀ s t : State,
    (exec .chipInit s = .next t →
      t = { s with cs := t.cs, dcs := t.dcs, rst := t.rst, busClk := t.busClk, busOwned := t.busOwned,
                   fault := t.fault, stFail1 := t.stFail1, stFail2 := t.stFail2, version := t.version,
                   family := t.family, endFill := t.endFill, initOk := t.initOk, trace := t.trace, env := t.env,
                   result := t.result, waiting := t.waiting }) ∧
    (exec .beginOutput s = .next t ∨ exec .beginMidi s = .next t →
      t = { s with mode := t.mode, cs := t.cs, dcs := t.dcs, rst := t.rst, busClk := t.busClk, busOwned := t.busOwned,
                   fault := t.fault, stFail1 := t.stFail1, stFail2 := t.stFail2, version := t.version,
                   family := t.family, endFill := t.endFill, initOk := t.initOk, sRem := t.sRem, pIdx := t.pIdx,
                   pLen := t.pLen, pAddr := t.pAddr, pCnt := t.pCnt, pVal := t.pVal, trace := t.trace, env := t.env,
                   result := t.result, waiting := t.waiting }) ∧
    (∀ o : RecOptions, exec (.beginInput o) s = .next t →
      t = { s with mode := t.mode, cs := t.cs, dcs := t.dcs, rst := t.rst, busClk := t.busClk, busOwned := t.busOwned,
                   fault := t.fault, stFail1 := t.stFail1, stFail2 := t.stFail2, version := t.version,
                   family := t.family, endFill := t.endFill, initOk := t.initOk, chMult := t.chMult,
                   recRate := t.recRate, recCh := t.recCh, recGain := t.recGain, recAgc := t.recAgc,
                   recSrc := t.recSrc, recKeepHdr := t.recKeepHdr, recAchieved := t.recAchieved, pIdx := t.pIdx,
                   pLen := t.pLen, pAddr := t.pAddr, pCnt := t.pCnt, pVal := t.pVal, bestDiff := t.bestDiff,
                   bestK := t.bestK, bestDiv := t.bestDiv, bestFound := t.bestFound, trace := t.trace, env := t.env,
                   result := t.result, waiting := t.waiting }) ∧
    (exec .endOp s = .next t →
      t = { s with mode := t.mode, cs := t.cs, dcs := t.dcs, busOwned := t.busOwned, fault := t.fault,
                   trace := t.trace, env := t.env, result := t.result, waiting := t.waiting })

/-- Between operations the bus is free (40 R64 (d), 70 R174): a host operation that starts with the bus free ends with it
free, or it hangs. -/
def Obligations.HostOpsReleaseBus : Prop :=
  ∀ (i : Instr) (s t : State), hostVisible i = true → s.busOwned = false → s.waiting = false → exec i s = .next t →
    t.waiting = true ∨ t.busOwned = false

/-- A step runs the decoded instruction (30 R55, 00_scope R1, D40): when no operation hangs, a presentation the port admits
is taken off the port and its instruction executed, and nothing is added around it; with nothing presented the block
idles; while an operation hangs, no presentation is taken and the step is one more sample and yield. -/
def Obligations.StepRunsPresented : Prop :=
  ∀ s : State,
    (∀ (p : Presented) (rest : List Presented) (i : Instr), s.waiting = false → s.pending = p :: rest →
      decode p.format p.bytes = .ok i [] → verdict p.presenter i s = .run →
      step s = exec i { s with pending := rest }) ∧
    (s.waiting = false → s.pending = [] → step s = .next s) ∧
    (s.waiting = true → step s =
      .next { s with trace := s.trace ++ [Event.mk (.sampleDreq false) s.cs s.dcs, Event.mk .yield s.cs s.dcs] })

/-- The port's refusals (30 R56, 42 R82, U1): bytes that are no operation and operations the host may not present answer
`FAIL(BadOp)` with no event and no other change; host-presented output streaming in NotActive or Input is refused. -/
def Obligations.PortRefuses : Prop :=
  ∀ (s : State) (p : Presented) (rest : List Presented), s.waiting = false → s.pending = p :: rest →
    (∀ why, decode p.format p.bytes = .rejected why →
      step s = .next ({ s with pending := rest }.returns { st := .fail .badOp, val := .absent })) ∧
    (∀ i, p.presenter = .host → decode p.format p.bytes = .ok i [] → hostVisible i = false →
      step s = .next ({ s with pending := rest }.returns { st := .fail .badOp, val := .absent })) ∧
    (∀ i, p.presenter = .host → decode p.format p.bytes = .ok i [] →
      (∃ data len, i = .sendBuffer data len) ∨ (∃ len, i = .sendFillers len) ∨ (∃ data len, i = .writeAudio data len) →
      s.mode = .notActive ∨ s.mode = .input → step s = .refused .streamingOutsideOutput)
end

