-- ==== Sys2Proof/Laws/Decode.lean ====
section
/-!
SUPPORT. The operand readers undo the operand writers: one lemma per reader.
-/
namespace Sys2Proof

theorem join_hi_lo (w : Word) : joinBytes (hiByte w) (loByte w) = w := by
  unfold joinBytes hiByte loByte
  apply BitVec.eq_of_getLsbD_eq
  intro i hi
  simp only [BitVec.getLsbD_append, BitVec.getLsbD_extractLsb']
  by_cases h : i < 8
  · simp [h]
  · have h8 : i - 8 < 8 := by omega
    simp [h, h8]
    congr 1
    omega

theorem readWord_wordBytes (w : Word) (rest : List Byte) (k : Word → List Byte → Decoded) :
    readWord (wordBytes w ++ rest) k = k w rest := by
  simp [wordBytes, readWord, join_hi_lo]

theorem join_quad (q : BitVec 32) :
    joinQuad (q.extractLsb' 24 8) (q.extractLsb' 16 8) (q.extractLsb' 8 8) (q.extractLsb' 0 8) = q := by
  unfold joinQuad
  apply BitVec.eq_of_getLsbD_eq
  intro i hi
  simp only [BitVec.getLsbD_append, BitVec.getLsbD_extractLsb']
  by_cases h1 : i < 8
  · simp [h1]
  · by_cases h2 : i - 8 < 8
    · simp [h1, h2]
      congr 1
      omega
    · by_cases h3 : i - 8 - 8 < 8
      · simp [h1, h2, h3]
        congr 1
        omega
      · have h4 : i - 8 - 8 - 8 < 8 := by omega
        simp [h1, h2, h3, h4]
        congr 1
        omega

theorem readQuad_quadBytes (q : BitVec 32) (rest : List Byte) (k : BitVec 32 → List Byte → Decoded) :
    readQuad (quadBytes q ++ rest) k = k q rest := by
  simp only [quadBytes, List.cons_append, List.nil_append, readQuad, join_quad]

theorem readNat_natBytes (n : Nat) (h : n < 2 ^ 32) (rest : List Byte) (k : Nat → List Byte → Decoded) :
    readNat (natBytes n ++ rest) k = k n rest := by
  unfold readNat natBytes
  rw [readQuad_quadBytes, BitVec.toNat_ofNat, Nat.mod_eq_of_lt h]

theorem readInt_intBytes (v : Int) (h1 : -(2 ^ 31) ≤ v) (h2 : v < 2 ^ 31) (rest : List Byte)
    (k : Int → List Byte → Decoded) : readInt (intBytes v ++ rest) k = k v rest := by
  unfold readInt intBytes
  rw [readQuad_quadBytes, BitVec.toInt_ofInt, Int.bmod_eq_of_le (by omega) (by omega)]

theorem readMany_append (data rest : List Byte) (k : List Byte → List Byte → Decoded) :
    readMany data.length (data ++ rest) k = k data rest := by
  simp [readMany]

theorem wordsBytes_length (ws : List Word) : (wordsBytes ws).length = 2 * ws.length := by
  induction ws with
  | nil => rfl
  | cons w ws ih => simp only [wordsBytes, List.length_cons, ih]; omega

theorem wordsOf_wordsBytes (ws : List Word) (rest : List Byte) : wordsOf ws.length (wordsBytes ws ++ rest) = ws := by
  induction ws with
  | nil => simp [wordsOf]
  | cons w ws ih => simp [wordsBytes, wordsOf, join_hi_lo, ih]

theorem readWords_wordsBytes (ws : List Word) (rest : List Byte) (k : List Word → List Byte → Decoded) :
    readWords ws.length (wordsBytes ws ++ rest) k = k ws rest := by
  have h := wordsBytes_length ws
  have hd : (wordsBytes ws ++ rest).drop (2 * ws.length) = rest := by rw [← h, List.drop_left]
  have hl : ¬ (wordsBytes ws ++ rest).length < 2 * ws.length := by rw [List.length_append, h]; omega
  simp only [readWords, hl, if_false, wordsOf_wordsBytes, hd]

theorem selectorOf_code (s : Selector) : selectorOf s.code = some s := by
  cases s <;> rfl

end Sys2Proof
end

