-- ==== Sys2Proof/Laws/Memory.lean ====
section
/-!
SUPPORT. The sparse stores: read after write, and every write keeps the canonical form.
-/
namespace Sys2Proof.Machine

section
variable {α : Type}

/-- Every address of a store is above `lo`. -/
def cellsAbove (lo : Nat) (m : List (Nat × α)) : Prop := ∀ c ∈ m, lo < c.1

theorem risingCells_cons_iff (c : Nat × α) (m : List (Nat × α)) :
    risingCells (c :: m) = true ↔ cellsAbove c.1 m ∧ risingCells m = true := by
  induction m generalizing c with
  | nil => simp [risingCells, cellsAbove]
  | cons d m ih =>
    obtain ⟨a, v⟩ := c
    obtain ⟨b, w⟩ := d
    simp only [risingCells, Bool.and_eq_true, decide_eq_true_eq]
    constructor
    · rintro ⟨hab, hr⟩
      refine ⟨?_, hr⟩
      intro x hx
      rcases List.mem_cons.mp hx with rfl | hx
      · exact hab
      · exact lt_trans hab ((ih (b, w)).mp hr |>.1 x hx)
    · rintro ⟨ha, hr⟩
      exact ⟨ha (b, w) (List.mem_cons_self ..), hr⟩

theorem storeCell_above {lo : Nat} (m : List (Nat × α)) (a : Nat) (v : α) (hm : cellsAbove lo m) (ha : lo < a) :
    cellsAbove lo (storeCell m a v) := by
  induction m with
  | nil => simpa [storeCell, cellsAbove] using ha
  | cons d m ih =>
    obtain ⟨b, w⟩ := d
    have hm' : cellsAbove lo m := fun x hx => hm x (List.mem_cons_of_mem _ hx)
    have hb : lo < b := hm (b, w) (List.mem_cons_self ..)
    simp only [storeCell]
    split
    · intro x hx
      simp only [List.mem_cons] at hx
      rcases hx with rfl | rfl | hx
      exacts [ha, hb, hm' x hx]
    · split
      · intro x hx
        rcases List.mem_cons.mp hx with rfl | hx
        exacts [ha, hm' x hx]
      · intro x hx
        rcases List.mem_cons.mp hx with rfl | hx
        exacts [hb, ih hm' x hx]

/-- Writing a cell keeps the addresses strictly rising. -/
theorem storeCell_rising (m : List (Nat × α)) (a : Nat) (v : α) (hm : risingCells m = true) :
    risingCells (storeCell m a v) = true := by
  induction m with
  | nil => simp [storeCell, risingCells]
  | cons d m ih =>
    obtain ⟨b, w⟩ := d
    obtain ⟨hab, hr⟩ := (risingCells_cons_iff (b, w) m).mp hm
    simp only [storeCell]
    split
    · next h =>
      refine (risingCells_cons_iff _ _).mpr ⟨?_, hm⟩
      intro x hx
      rcases List.mem_cons.mp hx with rfl | hx
      exacts [h, lt_trans h (hab x hx)]
    · split
      · next h =>
        subst h
        exact (risingCells_cons_iff _ _).mpr ⟨hab, hr⟩
      · next h1 h2 =>
        refine (risingCells_cons_iff _ _).mpr ⟨storeCell_above m a v hab ?_, ih hr⟩
        simp only
        omega

theorem lookupCell_storeCell_same (m : List (Nat × α)) (a : Nat) (v : α) :
    lookupCell (storeCell m a v) a = some v := by
  induction m with
  | nil => simp [storeCell, lookupCell]
  | cons d m ih =>
    obtain ⟨b, w⟩ := d
    simp only [storeCell]
    split
    · simp [lookupCell]
    · split
      · simp [lookupCell]
      · next h1 h2 => simp [lookupCell, h2, ih]

theorem lookupCell_storeCell_other (m : List (Nat × α)) (a x : Nat) (v : α) (h : x ≠ a) :
    lookupCell (storeCell m a v) x = lookupCell m x := by
  induction m with
  | nil => simp [storeCell, lookupCell, h]
  | cons d m ih =>
    obtain ⟨b, w⟩ := d
    simp only [storeCell]
    split
    · simp [lookupCell, h]
    · split
      · next h1 h2 => subst h2; simp [lookupCell, h]
      · simp [lookupCell, ih]

end

/-- A write keeps the payload buffer space in canonical form. -/
theorem Memory.write_wf (m : Memory) (a : Nat) (v : Byte) (hm : Memory.wf m = true) :
    Memory.wf (Memory.write m a v) = true := storeCell_rising m a v hm

@[simp] theorem Memory.read_write_same (m : Memory) (a : Nat) (v : Byte) :
    Memory.read (Memory.write m a v) a = some v := lookupCell_storeCell_same m a v

theorem Memory.read_write_other (m : Memory) (a x : Nat) (v : Byte) (h : x ≠ a) :
    Memory.read (Memory.write m a v) x = Memory.read m x := lookupCell_storeCell_other m a x v h

/-- The memory at reset is in canonical form. -/
theorem reset_buf_wf : Memory.wf State.reset.buf = true := rfl

end Sys2Proof.Machine
end

