-- ==== Sys2Proof/Laws/State.lean ====
section
/-!
SUPPORT. One lemma per field per named update of the state, so that no proof unfolds a record update.
-/
namespace Sys2Proof.Machine

section
variable (s : State)

/-! ### `emit` -/

@[simp] theorem emit_cfg (p : Prim) : (s.emit p).cfg = s.cfg := rfl
@[simp] theorem emit_mode (p : Prim) : (s.emit p).mode = s.mode := rfl
@[simp] theorem emit_cs (p : Prim) : (s.emit p).cs = s.cs := rfl
@[simp] theorem emit_dcs (p : Prim) : (s.emit p).dcs = s.dcs := rfl
@[simp] theorem emit_rst (p : Prim) : (s.emit p).rst = s.rst := rfl
@[simp] theorem emit_busOwned (p : Prim) : (s.emit p).busOwned = s.busOwned := rfl
@[simp] theorem emit_busClk (p : Prim) : (s.emit p).busClk = s.busClk := rfl
@[simp] theorem emit_fault (p : Prim) : (s.emit p).fault = s.fault := rfl
@[simp] theorem emit_initOk (p : Prim) : (s.emit p).initOk = s.initOk := rfl
@[simp] theorem emit_stFail1 (p : Prim) : (s.emit p).stFail1 = s.stFail1 := rfl
@[simp] theorem emit_stFail2 (p : Prim) : (s.emit p).stFail2 = s.stFail2 := rfl
@[simp] theorem emit_volume (p : Prim) : (s.emit p).volume = s.volume := rfl
@[simp] theorem emit_balance (p : Prim) : (s.emit p).balance = s.balance := rfl
@[simp] theorem emit_endFill (p : Prim) : (s.emit p).endFill = s.endFill := rfl
@[simp] theorem emit_version (p : Prim) : (s.emit p).version = s.version := rfl
@[simp] theorem emit_family (p : Prim) : (s.emit p).family = s.family := rfl
@[simp] theorem emit_chMult (p : Prim) : (s.emit p).chMult = s.chMult := rfl
@[simp] theorem emit_bassF (p : Prim) : (s.emit p).bassF = s.bassF := rfl
@[simp] theorem emit_bassA (p : Prim) : (s.emit p).bassA = s.bassA := rfl
@[simp] theorem emit_trebF (p : Prim) : (s.emit p).trebF = s.trebF := rfl
@[simp] theorem emit_trebA (p : Prim) : (s.emit p).trebA = s.trebA := rfl
@[simp] theorem emit_recRate (p : Prim) : (s.emit p).recRate = s.recRate := rfl
@[simp] theorem emit_recCh (p : Prim) : (s.emit p).recCh = s.recCh := rfl
@[simp] theorem emit_recGain (p : Prim) : (s.emit p).recGain = s.recGain := rfl
@[simp] theorem emit_recAgc (p : Prim) : (s.emit p).recAgc = s.recAgc := rfl
@[simp] theorem emit_recSrc (p : Prim) : (s.emit p).recSrc = s.recSrc := rfl
@[simp] theorem emit_recKeepHdr (p : Prim) : (s.emit p).recKeepHdr = s.recKeepHdr := rfl
@[simp] theorem emit_recAchieved (p : Prim) : (s.emit p).recAchieved = s.recAchieved := rfl
@[simp] theorem emit_pIdx (p : Prim) : (s.emit p).pIdx = s.pIdx := rfl
@[simp] theorem emit_pLen (p : Prim) : (s.emit p).pLen = s.pLen := rfl
@[simp] theorem emit_pAddr (p : Prim) : (s.emit p).pAddr = s.pAddr := rfl
@[simp] theorem emit_pCnt (p : Prim) : (s.emit p).pCnt = s.pCnt := rfl
@[simp] theorem emit_pVal (p : Prim) : (s.emit p).pVal = s.pVal := rfl
@[simp] theorem emit_sPos (p : Prim) : (s.emit p).sPos = s.sPos := rfl
@[simp] theorem emit_sRem (p : Prim) : (s.emit p).sRem = s.sRem := rfl
@[simp] theorem emit_bestDiff (p : Prim) : (s.emit p).bestDiff = s.bestDiff := rfl
@[simp] theorem emit_bestK (p : Prim) : (s.emit p).bestK = s.bestK := rfl
@[simp] theorem emit_bestDiv (p : Prim) : (s.emit p).bestDiv = s.bestDiv := rfl
@[simp] theorem emit_bestFound (p : Prim) : (s.emit p).bestFound = s.bestFound := rfl
@[simp] theorem emit_buf (p : Prim) : (s.emit p).buf = s.buf := rfl
@[simp] theorem emit_trace (p : Prim) : (s.emit p).trace = s.trace ++ [s.event p] := rfl
@[simp] theorem emit_result (p : Prim) : (s.emit p).result = s.result := rfl
@[simp] theorem emit_waiting (p : Prim) : (s.emit p).waiting = s.waiting := rfl
@[simp] theorem emit_pending (p : Prim) : (s.emit p).pending = s.pending := rfl
@[simp] theorem emit_env (p : Prim) : (s.emit p).env = s.env := rfl

/-! ### `waited` -/

@[simp] theorem waited_cfg (n : Nat) (e : Env) : (s.waited n e).cfg = s.cfg := rfl
@[simp] theorem waited_mode (n : Nat) (e : Env) : (s.waited n e).mode = s.mode := rfl
@[simp] theorem waited_cs (n : Nat) (e : Env) : (s.waited n e).cs = s.cs := rfl
@[simp] theorem waited_dcs (n : Nat) (e : Env) : (s.waited n e).dcs = s.dcs := rfl
@[simp] theorem waited_rst (n : Nat) (e : Env) : (s.waited n e).rst = s.rst := rfl
@[simp] theorem waited_busOwned (n : Nat) (e : Env) : (s.waited n e).busOwned = s.busOwned := rfl
@[simp] theorem waited_busClk (n : Nat) (e : Env) : (s.waited n e).busClk = s.busClk := rfl
@[simp] theorem waited_fault (n : Nat) (e : Env) : (s.waited n e).fault = s.fault := rfl
@[simp] theorem waited_initOk (n : Nat) (e : Env) : (s.waited n e).initOk = s.initOk := rfl
@[simp] theorem waited_stFail1 (n : Nat) (e : Env) : (s.waited n e).stFail1 = s.stFail1 := rfl
@[simp] theorem waited_stFail2 (n : Nat) (e : Env) : (s.waited n e).stFail2 = s.stFail2 := rfl
@[simp] theorem waited_volume (n : Nat) (e : Env) : (s.waited n e).volume = s.volume := rfl
@[simp] theorem waited_balance (n : Nat) (e : Env) : (s.waited n e).balance = s.balance := rfl
@[simp] theorem waited_endFill (n : Nat) (e : Env) : (s.waited n e).endFill = s.endFill := rfl
@[simp] theorem waited_version (n : Nat) (e : Env) : (s.waited n e).version = s.version := rfl
@[simp] theorem waited_family (n : Nat) (e : Env) : (s.waited n e).family = s.family := rfl
@[simp] theorem waited_chMult (n : Nat) (e : Env) : (s.waited n e).chMult = s.chMult := rfl
@[simp] theorem waited_bassF (n : Nat) (e : Env) : (s.waited n e).bassF = s.bassF := rfl
@[simp] theorem waited_bassA (n : Nat) (e : Env) : (s.waited n e).bassA = s.bassA := rfl
@[simp] theorem waited_trebF (n : Nat) (e : Env) : (s.waited n e).trebF = s.trebF := rfl
@[simp] theorem waited_trebA (n : Nat) (e : Env) : (s.waited n e).trebA = s.trebA := rfl
@[simp] theorem waited_recRate (n : Nat) (e : Env) : (s.waited n e).recRate = s.recRate := rfl
@[simp] theorem waited_recCh (n : Nat) (e : Env) : (s.waited n e).recCh = s.recCh := rfl
@[simp] theorem waited_recGain (n : Nat) (e : Env) : (s.waited n e).recGain = s.recGain := rfl
@[simp] theorem waited_recAgc (n : Nat) (e : Env) : (s.waited n e).recAgc = s.recAgc := rfl
@[simp] theorem waited_recSrc (n : Nat) (e : Env) : (s.waited n e).recSrc = s.recSrc := rfl
@[simp] theorem waited_recKeepHdr (n : Nat) (e : Env) : (s.waited n e).recKeepHdr = s.recKeepHdr := rfl
@[simp] theorem waited_recAchieved (n : Nat) (e : Env) : (s.waited n e).recAchieved = s.recAchieved := rfl
@[simp] theorem waited_pIdx (n : Nat) (e : Env) : (s.waited n e).pIdx = s.pIdx := rfl
@[simp] theorem waited_pLen (n : Nat) (e : Env) : (s.waited n e).pLen = s.pLen := rfl
@[simp] theorem waited_pAddr (n : Nat) (e : Env) : (s.waited n e).pAddr = s.pAddr := rfl
@[simp] theorem waited_pCnt (n : Nat) (e : Env) : (s.waited n e).pCnt = s.pCnt := rfl
@[simp] theorem waited_pVal (n : Nat) (e : Env) : (s.waited n e).pVal = s.pVal := rfl
@[simp] theorem waited_sPos (n : Nat) (e : Env) : (s.waited n e).sPos = s.sPos := rfl
@[simp] theorem waited_sRem (n : Nat) (e : Env) : (s.waited n e).sRem = s.sRem := rfl
@[simp] theorem waited_bestDiff (n : Nat) (e : Env) : (s.waited n e).bestDiff = s.bestDiff := rfl
@[simp] theorem waited_bestK (n : Nat) (e : Env) : (s.waited n e).bestK = s.bestK := rfl
@[simp] theorem waited_bestDiv (n : Nat) (e : Env) : (s.waited n e).bestDiv = s.bestDiv := rfl
@[simp] theorem waited_bestFound (n : Nat) (e : Env) : (s.waited n e).bestFound = s.bestFound := rfl
@[simp] theorem waited_buf (n : Nat) (e : Env) : (s.waited n e).buf = s.buf := rfl
@[simp] theorem waited_trace (n : Nat) (e : Env) : (s.waited n e).trace = s.trace ++ (s.lowPolls n ++ [s.event (.sampleDreq true)]) := rfl
@[simp] theorem waited_result (n : Nat) (e : Env) : (s.waited n e).result = s.result := rfl
@[simp] theorem waited_waiting (n : Nat) (e : Env) : (s.waited n e).waiting = s.waiting := rfl
@[simp] theorem waited_pending (n : Nat) (e : Env) : (s.waited n e).pending = s.pending := rfl
@[simp] theorem waited_env (n : Nat) (e : Env) : (s.waited n e).env = e := rfl

/-! ### `hanging` -/

@[simp] theorem hanging_cfg (n : Nat) : (s.hanging n).cfg = s.cfg := rfl
@[simp] theorem hanging_mode (n : Nat) : (s.hanging n).mode = s.mode := rfl
@[simp] theorem hanging_cs (n : Nat) : (s.hanging n).cs = s.cs := rfl
@[simp] theorem hanging_dcs (n : Nat) : (s.hanging n).dcs = s.dcs := rfl
@[simp] theorem hanging_rst (n : Nat) : (s.hanging n).rst = s.rst := rfl
@[simp] theorem hanging_busOwned (n : Nat) : (s.hanging n).busOwned = s.busOwned := rfl
@[simp] theorem hanging_busClk (n : Nat) : (s.hanging n).busClk = s.busClk := rfl
@[simp] theorem hanging_fault (n : Nat) : (s.hanging n).fault = s.fault := rfl
@[simp] theorem hanging_initOk (n : Nat) : (s.hanging n).initOk = s.initOk := rfl
@[simp] theorem hanging_stFail1 (n : Nat) : (s.hanging n).stFail1 = s.stFail1 := rfl
@[simp] theorem hanging_stFail2 (n : Nat) : (s.hanging n).stFail2 = s.stFail2 := rfl
@[simp] theorem hanging_volume (n : Nat) : (s.hanging n).volume = s.volume := rfl
@[simp] theorem hanging_balance (n : Nat) : (s.hanging n).balance = s.balance := rfl
@[simp] theorem hanging_endFill (n : Nat) : (s.hanging n).endFill = s.endFill := rfl
@[simp] theorem hanging_version (n : Nat) : (s.hanging n).version = s.version := rfl
@[simp] theorem hanging_family (n : Nat) : (s.hanging n).family = s.family := rfl
@[simp] theorem hanging_chMult (n : Nat) : (s.hanging n).chMult = s.chMult := rfl
@[simp] theorem hanging_bassF (n : Nat) : (s.hanging n).bassF = s.bassF := rfl
@[simp] theorem hanging_bassA (n : Nat) : (s.hanging n).bassA = s.bassA := rfl
@[simp] theorem hanging_trebF (n : Nat) : (s.hanging n).trebF = s.trebF := rfl
@[simp] theorem hanging_trebA (n : Nat) : (s.hanging n).trebA = s.trebA := rfl
@[simp] theorem hanging_recRate (n : Nat) : (s.hanging n).recRate = s.recRate := rfl
@[simp] theorem hanging_recCh (n : Nat) : (s.hanging n).recCh = s.recCh := rfl
@[simp] theorem hanging_recGain (n : Nat) : (s.hanging n).recGain = s.recGain := rfl
@[simp] theorem hanging_recAgc (n : Nat) : (s.hanging n).recAgc = s.recAgc := rfl
@[simp] theorem hanging_recSrc (n : Nat) : (s.hanging n).recSrc = s.recSrc := rfl
@[simp] theorem hanging_recKeepHdr (n : Nat) : (s.hanging n).recKeepHdr = s.recKeepHdr := rfl
@[simp] theorem hanging_recAchieved (n : Nat) : (s.hanging n).recAchieved = s.recAchieved := rfl
@[simp] theorem hanging_pIdx (n : Nat) : (s.hanging n).pIdx = s.pIdx := rfl
@[simp] theorem hanging_pLen (n : Nat) : (s.hanging n).pLen = s.pLen := rfl
@[simp] theorem hanging_pAddr (n : Nat) : (s.hanging n).pAddr = s.pAddr := rfl
@[simp] theorem hanging_pCnt (n : Nat) : (s.hanging n).pCnt = s.pCnt := rfl
@[simp] theorem hanging_pVal (n : Nat) : (s.hanging n).pVal = s.pVal := rfl
@[simp] theorem hanging_sPos (n : Nat) : (s.hanging n).sPos = s.sPos := rfl
@[simp] theorem hanging_sRem (n : Nat) : (s.hanging n).sRem = s.sRem := rfl
@[simp] theorem hanging_bestDiff (n : Nat) : (s.hanging n).bestDiff = s.bestDiff := rfl
@[simp] theorem hanging_bestK (n : Nat) : (s.hanging n).bestK = s.bestK := rfl
@[simp] theorem hanging_bestDiv (n : Nat) : (s.hanging n).bestDiv = s.bestDiv := rfl
@[simp] theorem hanging_bestFound (n : Nat) : (s.hanging n).bestFound = s.bestFound := rfl
@[simp] theorem hanging_buf (n : Nat) : (s.hanging n).buf = s.buf := rfl
@[simp] theorem hanging_trace (n : Nat) : (s.hanging n).trace = s.trace ++ s.lowPolls (n + 1) := rfl
@[simp] theorem hanging_result (n : Nat) : (s.hanging n).result = s.result := rfl
@[simp] theorem hanging_waiting (n : Nat) : (s.hanging n).waiting = true := rfl
@[simp] theorem hanging_pending (n : Nat) : (s.hanging n).pending = s.pending := rfl
@[simp] theorem hanging_env (n : Nat) : (s.hanging n).env = s.env.stuck := rfl

/-! ### `keepPolling` -/

@[simp] theorem keepPolling_cfg : (s.keepPolling).cfg = s.cfg := rfl
@[simp] theorem keepPolling_mode : (s.keepPolling).mode = s.mode := rfl
@[simp] theorem keepPolling_cs : (s.keepPolling).cs = s.cs := rfl
@[simp] theorem keepPolling_dcs : (s.keepPolling).dcs = s.dcs := rfl
@[simp] theorem keepPolling_rst : (s.keepPolling).rst = s.rst := rfl
@[simp] theorem keepPolling_busOwned : (s.keepPolling).busOwned = s.busOwned := rfl
@[simp] theorem keepPolling_busClk : (s.keepPolling).busClk = s.busClk := rfl
@[simp] theorem keepPolling_fault : (s.keepPolling).fault = s.fault := rfl
@[simp] theorem keepPolling_initOk : (s.keepPolling).initOk = s.initOk := rfl
@[simp] theorem keepPolling_stFail1 : (s.keepPolling).stFail1 = s.stFail1 := rfl
@[simp] theorem keepPolling_stFail2 : (s.keepPolling).stFail2 = s.stFail2 := rfl
@[simp] theorem keepPolling_volume : (s.keepPolling).volume = s.volume := rfl
@[simp] theorem keepPolling_balance : (s.keepPolling).balance = s.balance := rfl
@[simp] theorem keepPolling_endFill : (s.keepPolling).endFill = s.endFill := rfl
@[simp] theorem keepPolling_version : (s.keepPolling).version = s.version := rfl
@[simp] theorem keepPolling_family : (s.keepPolling).family = s.family := rfl
@[simp] theorem keepPolling_chMult : (s.keepPolling).chMult = s.chMult := rfl
@[simp] theorem keepPolling_bassF : (s.keepPolling).bassF = s.bassF := rfl
@[simp] theorem keepPolling_bassA : (s.keepPolling).bassA = s.bassA := rfl
@[simp] theorem keepPolling_trebF : (s.keepPolling).trebF = s.trebF := rfl
@[simp] theorem keepPolling_trebA : (s.keepPolling).trebA = s.trebA := rfl
@[simp] theorem keepPolling_recRate : (s.keepPolling).recRate = s.recRate := rfl
@[simp] theorem keepPolling_recCh : (s.keepPolling).recCh = s.recCh := rfl
@[simp] theorem keepPolling_recGain : (s.keepPolling).recGain = s.recGain := rfl
@[simp] theorem keepPolling_recAgc : (s.keepPolling).recAgc = s.recAgc := rfl
@[simp] theorem keepPolling_recSrc : (s.keepPolling).recSrc = s.recSrc := rfl
@[simp] theorem keepPolling_recKeepHdr : (s.keepPolling).recKeepHdr = s.recKeepHdr := rfl
@[simp] theorem keepPolling_recAchieved : (s.keepPolling).recAchieved = s.recAchieved := rfl
@[simp] theorem keepPolling_pIdx : (s.keepPolling).pIdx = s.pIdx := rfl
@[simp] theorem keepPolling_pLen : (s.keepPolling).pLen = s.pLen := rfl
@[simp] theorem keepPolling_pAddr : (s.keepPolling).pAddr = s.pAddr := rfl
@[simp] theorem keepPolling_pCnt : (s.keepPolling).pCnt = s.pCnt := rfl
@[simp] theorem keepPolling_pVal : (s.keepPolling).pVal = s.pVal := rfl
@[simp] theorem keepPolling_sPos : (s.keepPolling).sPos = s.sPos := rfl
@[simp] theorem keepPolling_sRem : (s.keepPolling).sRem = s.sRem := rfl
@[simp] theorem keepPolling_bestDiff : (s.keepPolling).bestDiff = s.bestDiff := rfl
@[simp] theorem keepPolling_bestK : (s.keepPolling).bestK = s.bestK := rfl
@[simp] theorem keepPolling_bestDiv : (s.keepPolling).bestDiv = s.bestDiv := rfl
@[simp] theorem keepPolling_bestFound : (s.keepPolling).bestFound = s.bestFound := rfl
@[simp] theorem keepPolling_buf : (s.keepPolling).buf = s.buf := rfl
@[simp] theorem keepPolling_trace : (s.keepPolling).trace = s.trace ++ s.lowPolls 1 := rfl
@[simp] theorem keepPolling_result : (s.keepPolling).result = s.result := rfl
@[simp] theorem keepPolling_waiting : (s.keepPolling).waiting = s.waiting := rfl
@[simp] theorem keepPolling_pending : (s.keepPolling).pending = s.pending := rfl
@[simp] theorem keepPolling_env : (s.keepPolling).env = s.env := rfl

/-! ### `withPending` -/

@[simp] theorem withPending_cfg (rest : List Presented) : (s.withPending rest).cfg = s.cfg := rfl
@[simp] theorem withPending_mode (rest : List Presented) : (s.withPending rest).mode = s.mode := rfl
@[simp] theorem withPending_cs (rest : List Presented) : (s.withPending rest).cs = s.cs := rfl
@[simp] theorem withPending_dcs (rest : List Presented) : (s.withPending rest).dcs = s.dcs := rfl
@[simp] theorem withPending_rst (rest : List Presented) : (s.withPending rest).rst = s.rst := rfl
@[simp] theorem withPending_busOwned (rest : List Presented) : (s.withPending rest).busOwned = s.busOwned := rfl
@[simp] theorem withPending_busClk (rest : List Presented) : (s.withPending rest).busClk = s.busClk := rfl
@[simp] theorem withPending_fault (rest : List Presented) : (s.withPending rest).fault = s.fault := rfl
@[simp] theorem withPending_initOk (rest : List Presented) : (s.withPending rest).initOk = s.initOk := rfl
@[simp] theorem withPending_stFail1 (rest : List Presented) : (s.withPending rest).stFail1 = s.stFail1 := rfl
@[simp] theorem withPending_stFail2 (rest : List Presented) : (s.withPending rest).stFail2 = s.stFail2 := rfl
@[simp] theorem withPending_volume (rest : List Presented) : (s.withPending rest).volume = s.volume := rfl
@[simp] theorem withPending_balance (rest : List Presented) : (s.withPending rest).balance = s.balance := rfl
@[simp] theorem withPending_endFill (rest : List Presented) : (s.withPending rest).endFill = s.endFill := rfl
@[simp] theorem withPending_version (rest : List Presented) : (s.withPending rest).version = s.version := rfl
@[simp] theorem withPending_family (rest : List Presented) : (s.withPending rest).family = s.family := rfl
@[simp] theorem withPending_chMult (rest : List Presented) : (s.withPending rest).chMult = s.chMult := rfl
@[simp] theorem withPending_bassF (rest : List Presented) : (s.withPending rest).bassF = s.bassF := rfl
@[simp] theorem withPending_bassA (rest : List Presented) : (s.withPending rest).bassA = s.bassA := rfl
@[simp] theorem withPending_trebF (rest : List Presented) : (s.withPending rest).trebF = s.trebF := rfl
@[simp] theorem withPending_trebA (rest : List Presented) : (s.withPending rest).trebA = s.trebA := rfl
@[simp] theorem withPending_recRate (rest : List Presented) : (s.withPending rest).recRate = s.recRate := rfl
@[simp] theorem withPending_recCh (rest : List Presented) : (s.withPending rest).recCh = s.recCh := rfl
@[simp] theorem withPending_recGain (rest : List Presented) : (s.withPending rest).recGain = s.recGain := rfl
@[simp] theorem withPending_recAgc (rest : List Presented) : (s.withPending rest).recAgc = s.recAgc := rfl
@[simp] theorem withPending_recSrc (rest : List Presented) : (s.withPending rest).recSrc = s.recSrc := rfl
@[simp] theorem withPending_recKeepHdr (rest : List Presented) : (s.withPending rest).recKeepHdr = s.recKeepHdr := rfl
@[simp] theorem withPending_recAchieved (rest : List Presented) : (s.withPending rest).recAchieved = s.recAchieved := rfl
@[simp] theorem withPending_pIdx (rest : List Presented) : (s.withPending rest).pIdx = s.pIdx := rfl
@[simp] theorem withPending_pLen (rest : List Presented) : (s.withPending rest).pLen = s.pLen := rfl
@[simp] theorem withPending_pAddr (rest : List Presented) : (s.withPending rest).pAddr = s.pAddr := rfl
@[simp] theorem withPending_pCnt (rest : List Presented) : (s.withPending rest).pCnt = s.pCnt := rfl
@[simp] theorem withPending_pVal (rest : List Presented) : (s.withPending rest).pVal = s.pVal := rfl
@[simp] theorem withPending_sPos (rest : List Presented) : (s.withPending rest).sPos = s.sPos := rfl
@[simp] theorem withPending_sRem (rest : List Presented) : (s.withPending rest).sRem = s.sRem := rfl
@[simp] theorem withPending_bestDiff (rest : List Presented) : (s.withPending rest).bestDiff = s.bestDiff := rfl
@[simp] theorem withPending_bestK (rest : List Presented) : (s.withPending rest).bestK = s.bestK := rfl
@[simp] theorem withPending_bestDiv (rest : List Presented) : (s.withPending rest).bestDiv = s.bestDiv := rfl
@[simp] theorem withPending_bestFound (rest : List Presented) : (s.withPending rest).bestFound = s.bestFound := rfl
@[simp] theorem withPending_buf (rest : List Presented) : (s.withPending rest).buf = s.buf := rfl
@[simp] theorem withPending_trace (rest : List Presented) : (s.withPending rest).trace = s.trace := rfl
@[simp] theorem withPending_result (rest : List Presented) : (s.withPending rest).result = s.result := rfl
@[simp] theorem withPending_waiting (rest : List Presented) : (s.withPending rest).waiting = s.waiting := rfl
@[simp] theorem withPending_pending (rest : List Presented) : (s.withPending rest).pending = rest := rfl
@[simp] theorem withPending_env (rest : List Presented) : (s.withPending rest).env = s.env := rfl

/-! ### `badOp` -/

@[simp] theorem badOp_cfg : (s.badOp).cfg = s.cfg := rfl
@[simp] theorem badOp_mode : (s.badOp).mode = s.mode := rfl
@[simp] theorem badOp_cs : (s.badOp).cs = s.cs := rfl
@[simp] theorem badOp_dcs : (s.badOp).dcs = s.dcs := rfl
@[simp] theorem badOp_rst : (s.badOp).rst = s.rst := rfl
@[simp] theorem badOp_busOwned : (s.badOp).busOwned = s.busOwned := rfl
@[simp] theorem badOp_busClk : (s.badOp).busClk = s.busClk := rfl
@[simp] theorem badOp_fault : (s.badOp).fault = s.fault := rfl
@[simp] theorem badOp_initOk : (s.badOp).initOk = s.initOk := rfl
@[simp] theorem badOp_stFail1 : (s.badOp).stFail1 = s.stFail1 := rfl
@[simp] theorem badOp_stFail2 : (s.badOp).stFail2 = s.stFail2 := rfl
@[simp] theorem badOp_volume : (s.badOp).volume = s.volume := rfl
@[simp] theorem badOp_balance : (s.badOp).balance = s.balance := rfl
@[simp] theorem badOp_endFill : (s.badOp).endFill = s.endFill := rfl
@[simp] theorem badOp_version : (s.badOp).version = s.version := rfl
@[simp] theorem badOp_family : (s.badOp).family = s.family := rfl
@[simp] theorem badOp_chMult : (s.badOp).chMult = s.chMult := rfl
@[simp] theorem badOp_bassF : (s.badOp).bassF = s.bassF := rfl
@[simp] theorem badOp_bassA : (s.badOp).bassA = s.bassA := rfl
@[simp] theorem badOp_trebF : (s.badOp).trebF = s.trebF := rfl
@[simp] theorem badOp_trebA : (s.badOp).trebA = s.trebA := rfl
@[simp] theorem badOp_recRate : (s.badOp).recRate = s.recRate := rfl
@[simp] theorem badOp_recCh : (s.badOp).recCh = s.recCh := rfl
@[simp] theorem badOp_recGain : (s.badOp).recGain = s.recGain := rfl
@[simp] theorem badOp_recAgc : (s.badOp).recAgc = s.recAgc := rfl
@[simp] theorem badOp_recSrc : (s.badOp).recSrc = s.recSrc := rfl
@[simp] theorem badOp_recKeepHdr : (s.badOp).recKeepHdr = s.recKeepHdr := rfl
@[simp] theorem badOp_recAchieved : (s.badOp).recAchieved = s.recAchieved := rfl
@[simp] theorem badOp_pIdx : (s.badOp).pIdx = s.pIdx := rfl
@[simp] theorem badOp_pLen : (s.badOp).pLen = s.pLen := rfl
@[simp] theorem badOp_pAddr : (s.badOp).pAddr = s.pAddr := rfl
@[simp] theorem badOp_pCnt : (s.badOp).pCnt = s.pCnt := rfl
@[simp] theorem badOp_pVal : (s.badOp).pVal = s.pVal := rfl
@[simp] theorem badOp_sPos : (s.badOp).sPos = s.sPos := rfl
@[simp] theorem badOp_sRem : (s.badOp).sRem = s.sRem := rfl
@[simp] theorem badOp_bestDiff : (s.badOp).bestDiff = s.bestDiff := rfl
@[simp] theorem badOp_bestK : (s.badOp).bestK = s.bestK := rfl
@[simp] theorem badOp_bestDiv : (s.badOp).bestDiv = s.bestDiv := rfl
@[simp] theorem badOp_bestFound : (s.badOp).bestFound = s.bestFound := rfl
@[simp] theorem badOp_buf : (s.badOp).buf = s.buf := rfl
@[simp] theorem badOp_trace : (s.badOp).trace = s.trace := rfl
@[simp] theorem badOp_result : (s.badOp).result = some (failResult .badOp) := rfl
@[simp] theorem badOp_waiting : (s.badOp).waiting = s.waiting := rfl
@[simp] theorem badOp_pending : (s.badOp).pending = s.pending := rfl
@[simp] theorem badOp_env : (s.badOp).env = s.env := rfl

/-! ### `recordFault` -/

@[simp] theorem recordFault_cfg (info : FaultInfo) : (s.recordFault info).cfg = s.cfg := rfl
@[simp] theorem recordFault_mode (info : FaultInfo) : (s.recordFault info).mode = s.mode := rfl
@[simp] theorem recordFault_cs (info : FaultInfo) : (s.recordFault info).cs = s.cs := rfl
@[simp] theorem recordFault_dcs (info : FaultInfo) : (s.recordFault info).dcs = s.dcs := rfl
@[simp] theorem recordFault_rst (info : FaultInfo) : (s.recordFault info).rst = s.rst := rfl
@[simp] theorem recordFault_busOwned (info : FaultInfo) : (s.recordFault info).busOwned = s.busOwned := rfl
@[simp] theorem recordFault_busClk (info : FaultInfo) : (s.recordFault info).busClk = s.busClk := rfl
@[simp] theorem recordFault_fault (info : FaultInfo) : (s.recordFault info).fault = some info.code := rfl
@[simp] theorem recordFault_initOk (info : FaultInfo) : (s.recordFault info).initOk = s.initOk := rfl
@[simp] theorem recordFault_stFail1 (info : FaultInfo) : (s.recordFault info).stFail1 = s.stFail1 := rfl
@[simp] theorem recordFault_stFail2 (info : FaultInfo) : (s.recordFault info).stFail2 = s.stFail2 := rfl
@[simp] theorem recordFault_volume (info : FaultInfo) : (s.recordFault info).volume = s.volume := rfl
@[simp] theorem recordFault_balance (info : FaultInfo) : (s.recordFault info).balance = s.balance := rfl
@[simp] theorem recordFault_endFill (info : FaultInfo) : (s.recordFault info).endFill = s.endFill := rfl
@[simp] theorem recordFault_version (info : FaultInfo) : (s.recordFault info).version = s.version := rfl
@[simp] theorem recordFault_family (info : FaultInfo) : (s.recordFault info).family = s.family := rfl
@[simp] theorem recordFault_chMult (info : FaultInfo) : (s.recordFault info).chMult = s.chMult := rfl
@[simp] theorem recordFault_bassF (info : FaultInfo) : (s.recordFault info).bassF = s.bassF := rfl
@[simp] theorem recordFault_bassA (info : FaultInfo) : (s.recordFault info).bassA = s.bassA := rfl
@[simp] theorem recordFault_trebF (info : FaultInfo) : (s.recordFault info).trebF = s.trebF := rfl
@[simp] theorem recordFault_trebA (info : FaultInfo) : (s.recordFault info).trebA = s.trebA := rfl
@[simp] theorem recordFault_recRate (info : FaultInfo) : (s.recordFault info).recRate = s.recRate := rfl
@[simp] theorem recordFault_recCh (info : FaultInfo) : (s.recordFault info).recCh = s.recCh := rfl
@[simp] theorem recordFault_recGain (info : FaultInfo) : (s.recordFault info).recGain = s.recGain := rfl
@[simp] theorem recordFault_recAgc (info : FaultInfo) : (s.recordFault info).recAgc = s.recAgc := rfl
@[simp] theorem recordFault_recSrc (info : FaultInfo) : (s.recordFault info).recSrc = s.recSrc := rfl
@[simp] theorem recordFault_recKeepHdr (info : FaultInfo) : (s.recordFault info).recKeepHdr = s.recKeepHdr := rfl
@[simp] theorem recordFault_recAchieved (info : FaultInfo) : (s.recordFault info).recAchieved = s.recAchieved := rfl
@[simp] theorem recordFault_pIdx (info : FaultInfo) : (s.recordFault info).pIdx = s.pIdx := rfl
@[simp] theorem recordFault_pLen (info : FaultInfo) : (s.recordFault info).pLen = s.pLen := rfl
@[simp] theorem recordFault_pAddr (info : FaultInfo) : (s.recordFault info).pAddr = s.pAddr := rfl
@[simp] theorem recordFault_pCnt (info : FaultInfo) : (s.recordFault info).pCnt = s.pCnt := rfl
@[simp] theorem recordFault_pVal (info : FaultInfo) : (s.recordFault info).pVal = s.pVal := rfl
@[simp] theorem recordFault_sPos (info : FaultInfo) : (s.recordFault info).sPos = s.sPos := rfl
@[simp] theorem recordFault_sRem (info : FaultInfo) : (s.recordFault info).sRem = s.sRem := rfl
@[simp] theorem recordFault_bestDiff (info : FaultInfo) : (s.recordFault info).bestDiff = s.bestDiff := rfl
@[simp] theorem recordFault_bestK (info : FaultInfo) : (s.recordFault info).bestK = s.bestK := rfl
@[simp] theorem recordFault_bestDiv (info : FaultInfo) : (s.recordFault info).bestDiv = s.bestDiv := rfl
@[simp] theorem recordFault_bestFound (info : FaultInfo) : (s.recordFault info).bestFound = s.bestFound := rfl
@[simp] theorem recordFault_buf (info : FaultInfo) : (s.recordFault info).buf = s.buf := rfl
@[simp] theorem recordFault_trace (info : FaultInfo) : (s.recordFault info).trace = s.trace := rfl
@[simp] theorem recordFault_result (info : FaultInfo) : (s.recordFault info).result = s.result := rfl
@[simp] theorem recordFault_waiting (info : FaultInfo) : (s.recordFault info).waiting = s.waiting := rfl
@[simp] theorem recordFault_pending (info : FaultInfo) : (s.recordFault info).pending = s.pending := rfl
@[simp] theorem recordFault_env (info : FaultInfo) : (s.recordFault info).env = s.env := rfl

/-! ### `returns` -/

@[simp] theorem returns_cfg (r : Result) : (s.returns r).cfg = s.cfg := rfl
@[simp] theorem returns_mode (r : Result) : (s.returns r).mode = s.mode := rfl
@[simp] theorem returns_cs (r : Result) : (s.returns r).cs = s.cs := rfl
@[simp] theorem returns_dcs (r : Result) : (s.returns r).dcs = s.dcs := rfl
@[simp] theorem returns_rst (r : Result) : (s.returns r).rst = s.rst := rfl
@[simp] theorem returns_busOwned (r : Result) : (s.returns r).busOwned = s.busOwned := rfl
@[simp] theorem returns_busClk (r : Result) : (s.returns r).busClk = s.busClk := rfl
@[simp] theorem returns_fault (r : Result) : (s.returns r).fault = s.fault := rfl
@[simp] theorem returns_initOk (r : Result) : (s.returns r).initOk = s.initOk := rfl
@[simp] theorem returns_stFail1 (r : Result) : (s.returns r).stFail1 = s.stFail1 := rfl
@[simp] theorem returns_stFail2 (r : Result) : (s.returns r).stFail2 = s.stFail2 := rfl
@[simp] theorem returns_volume (r : Result) : (s.returns r).volume = s.volume := rfl
@[simp] theorem returns_balance (r : Result) : (s.returns r).balance = s.balance := rfl
@[simp] theorem returns_endFill (r : Result) : (s.returns r).endFill = s.endFill := rfl
@[simp] theorem returns_version (r : Result) : (s.returns r).version = s.version := rfl
@[simp] theorem returns_family (r : Result) : (s.returns r).family = s.family := rfl
@[simp] theorem returns_chMult (r : Result) : (s.returns r).chMult = s.chMult := rfl
@[simp] theorem returns_bassF (r : Result) : (s.returns r).bassF = s.bassF := rfl
@[simp] theorem returns_bassA (r : Result) : (s.returns r).bassA = s.bassA := rfl
@[simp] theorem returns_trebF (r : Result) : (s.returns r).trebF = s.trebF := rfl
@[simp] theorem returns_trebA (r : Result) : (s.returns r).trebA = s.trebA := rfl
@[simp] theorem returns_recRate (r : Result) : (s.returns r).recRate = s.recRate := rfl
@[simp] theorem returns_recCh (r : Result) : (s.returns r).recCh = s.recCh := rfl
@[simp] theorem returns_recGain (r : Result) : (s.returns r).recGain = s.recGain := rfl
@[simp] theorem returns_recAgc (r : Result) : (s.returns r).recAgc = s.recAgc := rfl
@[simp] theorem returns_recSrc (r : Result) : (s.returns r).recSrc = s.recSrc := rfl
@[simp] theorem returns_recKeepHdr (r : Result) : (s.returns r).recKeepHdr = s.recKeepHdr := rfl
@[simp] theorem returns_recAchieved (r : Result) : (s.returns r).recAchieved = s.recAchieved := rfl
@[simp] theorem returns_pIdx (r : Result) : (s.returns r).pIdx = s.pIdx := rfl
@[simp] theorem returns_pLen (r : Result) : (s.returns r).pLen = s.pLen := rfl
@[simp] theorem returns_pAddr (r : Result) : (s.returns r).pAddr = s.pAddr := rfl
@[simp] theorem returns_pCnt (r : Result) : (s.returns r).pCnt = s.pCnt := rfl
@[simp] theorem returns_pVal (r : Result) : (s.returns r).pVal = s.pVal := rfl
@[simp] theorem returns_sPos (r : Result) : (s.returns r).sPos = s.sPos := rfl
@[simp] theorem returns_sRem (r : Result) : (s.returns r).sRem = s.sRem := rfl
@[simp] theorem returns_bestDiff (r : Result) : (s.returns r).bestDiff = s.bestDiff := rfl
@[simp] theorem returns_bestK (r : Result) : (s.returns r).bestK = s.bestK := rfl
@[simp] theorem returns_bestDiv (r : Result) : (s.returns r).bestDiv = s.bestDiv := rfl
@[simp] theorem returns_bestFound (r : Result) : (s.returns r).bestFound = s.bestFound := rfl
@[simp] theorem returns_buf (r : Result) : (s.returns r).buf = s.buf := rfl
@[simp] theorem returns_trace (r : Result) : (s.returns r).trace = s.trace := rfl
@[simp] theorem returns_result (r : Result) : (s.returns r).result = some r := rfl
@[simp] theorem returns_waiting (r : Result) : (s.returns r).waiting = s.waiting := rfl
@[simp] theorem returns_pending (r : Result) : (s.returns r).pending = s.pending := rfl
@[simp] theorem returns_env (r : Result) : (s.returns r).env = s.env := rfl

/-! ### `withOptions` -/

@[simp] theorem withOptions_cfg (o : RecOptions) : (s.withOptions o).cfg = s.cfg := rfl
@[simp] theorem withOptions_mode (o : RecOptions) : (s.withOptions o).mode = s.mode := rfl
@[simp] theorem withOptions_cs (o : RecOptions) : (s.withOptions o).cs = s.cs := rfl
@[simp] theorem withOptions_dcs (o : RecOptions) : (s.withOptions o).dcs = s.dcs := rfl
@[simp] theorem withOptions_rst (o : RecOptions) : (s.withOptions o).rst = s.rst := rfl
@[simp] theorem withOptions_busOwned (o : RecOptions) : (s.withOptions o).busOwned = s.busOwned := rfl
@[simp] theorem withOptions_busClk (o : RecOptions) : (s.withOptions o).busClk = s.busClk := rfl
@[simp] theorem withOptions_fault (o : RecOptions) : (s.withOptions o).fault = s.fault := rfl
@[simp] theorem withOptions_initOk (o : RecOptions) : (s.withOptions o).initOk = s.initOk := rfl
@[simp] theorem withOptions_stFail1 (o : RecOptions) : (s.withOptions o).stFail1 = s.stFail1 := rfl
@[simp] theorem withOptions_stFail2 (o : RecOptions) : (s.withOptions o).stFail2 = s.stFail2 := rfl
@[simp] theorem withOptions_volume (o : RecOptions) : (s.withOptions o).volume = s.volume := rfl
@[simp] theorem withOptions_balance (o : RecOptions) : (s.withOptions o).balance = s.balance := rfl
@[simp] theorem withOptions_endFill (o : RecOptions) : (s.withOptions o).endFill = s.endFill := rfl
@[simp] theorem withOptions_version (o : RecOptions) : (s.withOptions o).version = s.version := rfl
@[simp] theorem withOptions_family (o : RecOptions) : (s.withOptions o).family = s.family := rfl
@[simp] theorem withOptions_chMult (o : RecOptions) : (s.withOptions o).chMult = s.chMult := rfl
@[simp] theorem withOptions_bassF (o : RecOptions) : (s.withOptions o).bassF = s.bassF := rfl
@[simp] theorem withOptions_bassA (o : RecOptions) : (s.withOptions o).bassA = s.bassA := rfl
@[simp] theorem withOptions_trebF (o : RecOptions) : (s.withOptions o).trebF = s.trebF := rfl
@[simp] theorem withOptions_trebA (o : RecOptions) : (s.withOptions o).trebA = s.trebA := rfl
@[simp] theorem withOptions_recRate (o : RecOptions) : (s.withOptions o).recRate = (clamp o.rate 8000 48000).toNat := rfl
@[simp] theorem withOptions_recCh (o : RecOptions) : (s.withOptions o).recCh = (clamp o.channels 1 2).toNat := rfl
@[simp] theorem withOptions_recGain (o : RecOptions) : (s.withOptions o).recGain = (clamp o.gain 0 100).toNat := rfl
@[simp] theorem withOptions_recAgc (o : RecOptions) : (s.withOptions o).recAgc = (clamp o.agc 0 100).toNat := rfl
@[simp] theorem withOptions_recSrc (o : RecOptions) : (s.withOptions o).recSrc = o.source := rfl
@[simp] theorem withOptions_recKeepHdr (o : RecOptions) : (s.withOptions o).recKeepHdr = o.keepHeader := rfl
@[simp] theorem withOptions_recAchieved (o : RecOptions) : (s.withOptions o).recAchieved = s.recAchieved := rfl
@[simp] theorem withOptions_pIdx (o : RecOptions) : (s.withOptions o).pIdx = s.pIdx := rfl
@[simp] theorem withOptions_pLen (o : RecOptions) : (s.withOptions o).pLen = s.pLen := rfl
@[simp] theorem withOptions_pAddr (o : RecOptions) : (s.withOptions o).pAddr = s.pAddr := rfl
@[simp] theorem withOptions_pCnt (o : RecOptions) : (s.withOptions o).pCnt = s.pCnt := rfl
@[simp] theorem withOptions_pVal (o : RecOptions) : (s.withOptions o).pVal = s.pVal := rfl
@[simp] theorem withOptions_sPos (o : RecOptions) : (s.withOptions o).sPos = s.sPos := rfl
@[simp] theorem withOptions_sRem (o : RecOptions) : (s.withOptions o).sRem = s.sRem := rfl
@[simp] theorem withOptions_bestDiff (o : RecOptions) : (s.withOptions o).bestDiff = s.bestDiff := rfl
@[simp] theorem withOptions_bestK (o : RecOptions) : (s.withOptions o).bestK = s.bestK := rfl
@[simp] theorem withOptions_bestDiv (o : RecOptions) : (s.withOptions o).bestDiv = s.bestDiv := rfl
@[simp] theorem withOptions_bestFound (o : RecOptions) : (s.withOptions o).bestFound = s.bestFound := rfl
@[simp] theorem withOptions_buf (o : RecOptions) : (s.withOptions o).buf = s.buf := rfl
@[simp] theorem withOptions_trace (o : RecOptions) : (s.withOptions o).trace = s.trace := rfl
@[simp] theorem withOptions_result (o : RecOptions) : (s.withOptions o).result = s.result := rfl
@[simp] theorem withOptions_waiting (o : RecOptions) : (s.withOptions o).waiting = s.waiting := rfl
@[simp] theorem withOptions_pending (o : RecOptions) : (s.withOptions o).pending = s.pending := rfl
@[simp] theorem withOptions_env (o : RecOptions) : (s.withOptions o).env = s.env := rfl

/-! ### `afterWrite` -/

@[simp] theorem afterWrite_cfg (a : Byte) (v : Word) (n : Nat) (e : Env) : (s.afterWrite a v n e).cfg = s.cfg := rfl
@[simp] theorem afterWrite_mode (a : Byte) (v : Word) (n : Nat) (e : Env) : (s.afterWrite a v n e).mode = s.mode := rfl
@[simp] theorem afterWrite_cs (a : Byte) (v : Word) (n : Nat) (e : Env) : (s.afterWrite a v n e).cs = true := rfl
@[simp] theorem afterWrite_dcs (a : Byte) (v : Word) (n : Nat) (e : Env) : (s.afterWrite a v n e).dcs = true := rfl
@[simp] theorem afterWrite_rst (a : Byte) (v : Word) (n : Nat) (e : Env) : (s.afterWrite a v n e).rst = s.rst := rfl
@[simp] theorem afterWrite_busOwned (a : Byte) (v : Word) (n : Nat) (e : Env) : (s.afterWrite a v n e).busOwned = false := rfl
@[simp] theorem afterWrite_busClk (a : Byte) (v : Word) (n : Nat) (e : Env) : (s.afterWrite a v n e).busClk = s.busClk := rfl
@[simp] theorem afterWrite_fault (a : Byte) (v : Word) (n : Nat) (e : Env) : (s.afterWrite a v n e).fault = s.fault := rfl
@[simp] theorem afterWrite_initOk (a : Byte) (v : Word) (n : Nat) (e : Env) : (s.afterWrite a v n e).initOk = s.initOk := rfl
@[simp] theorem afterWrite_stFail1 (a : Byte) (v : Word) (n : Nat) (e : Env) : (s.afterWrite a v n e).stFail1 = s.stFail1 := rfl
@[simp] theorem afterWrite_stFail2 (a : Byte) (v : Word) (n : Nat) (e : Env) : (s.afterWrite a v n e).stFail2 = s.stFail2 := rfl
@[simp] theorem afterWrite_volume (a : Byte) (v : Word) (n : Nat) (e : Env) : (s.afterWrite a v n e).volume = s.volume := rfl
@[simp] theorem afterWrite_balance (a : Byte) (v : Word) (n : Nat) (e : Env) : (s.afterWrite a v n e).balance = s.balance := rfl
@[simp] theorem afterWrite_endFill (a : Byte) (v : Word) (n : Nat) (e : Env) : (s.afterWrite a v n e).endFill = s.endFill := rfl
@[simp] theorem afterWrite_version (a : Byte) (v : Word) (n : Nat) (e : Env) : (s.afterWrite a v n e).version = s.version := rfl
@[simp] theorem afterWrite_family (a : Byte) (v : Word) (n : Nat) (e : Env) : (s.afterWrite a v n e).family = s.family := rfl
@[simp] theorem afterWrite_chMult (a : Byte) (v : Word) (n : Nat) (e : Env) : (s.afterWrite a v n e).chMult = s.chMult := rfl
@[simp] theorem afterWrite_bassF (a : Byte) (v : Word) (n : Nat) (e : Env) : (s.afterWrite a v n e).bassF = s.bassF := rfl
@[simp] theorem afterWrite_bassA (a : Byte) (v : Word) (n : Nat) (e : Env) : (s.afterWrite a v n e).bassA = s.bassA := rfl
@[simp] theorem afterWrite_trebF (a : Byte) (v : Word) (n : Nat) (e : Env) : (s.afterWrite a v n e).trebF = s.trebF := rfl
@[simp] theorem afterWrite_trebA (a : Byte) (v : Word) (n : Nat) (e : Env) : (s.afterWrite a v n e).trebA = s.trebA := rfl
@[simp] theorem afterWrite_recRate (a : Byte) (v : Word) (n : Nat) (e : Env) : (s.afterWrite a v n e).recRate = s.recRate := rfl
@[simp] theorem afterWrite_recCh (a : Byte) (v : Word) (n : Nat) (e : Env) : (s.afterWrite a v n e).recCh = s.recCh := rfl
@[simp] theorem afterWrite_recGain (a : Byte) (v : Word) (n : Nat) (e : Env) : (s.afterWrite a v n e).recGain = s.recGain := rfl
@[simp] theorem afterWrite_recAgc (a : Byte) (v : Word) (n : Nat) (e : Env) : (s.afterWrite a v n e).recAgc = s.recAgc := rfl
@[simp] theorem afterWrite_recSrc (a : Byte) (v : Word) (n : Nat) (e : Env) : (s.afterWrite a v n e).recSrc = s.recSrc := rfl
@[simp] theorem afterWrite_recKeepHdr (a : Byte) (v : Word) (n : Nat) (e : Env) : (s.afterWrite a v n e).recKeepHdr = s.recKeepHdr := rfl
@[simp] theorem afterWrite_recAchieved (a : Byte) (v : Word) (n : Nat) (e : Env) : (s.afterWrite a v n e).recAchieved = s.recAchieved := rfl
@[simp] theorem afterWrite_pIdx (a : Byte) (v : Word) (n : Nat) (e : Env) : (s.afterWrite a v n e).pIdx = s.pIdx := rfl
@[simp] theorem afterWrite_pLen (a : Byte) (v : Word) (n : Nat) (e : Env) : (s.afterWrite a v n e).pLen = s.pLen := rfl
@[simp] theorem afterWrite_pAddr (a : Byte) (v : Word) (n : Nat) (e : Env) : (s.afterWrite a v n e).pAddr = s.pAddr := rfl
@[simp] theorem afterWrite_pCnt (a : Byte) (v : Word) (n : Nat) (e : Env) : (s.afterWrite a v n e).pCnt = s.pCnt := rfl
@[simp] theorem afterWrite_pVal (a : Byte) (v : Word) (n : Nat) (e : Env) : (s.afterWrite a v n e).pVal = s.pVal := rfl
@[simp] theorem afterWrite_sPos (a : Byte) (v : Word) (n : Nat) (e : Env) : (s.afterWrite a v n e).sPos = s.sPos := rfl
@[simp] theorem afterWrite_sRem (a : Byte) (v : Word) (n : Nat) (e : Env) : (s.afterWrite a v n e).sRem = s.sRem := rfl
@[simp] theorem afterWrite_bestDiff (a : Byte) (v : Word) (n : Nat) (e : Env) : (s.afterWrite a v n e).bestDiff = s.bestDiff := rfl
@[simp] theorem afterWrite_bestK (a : Byte) (v : Word) (n : Nat) (e : Env) : (s.afterWrite a v n e).bestK = s.bestK := rfl
@[simp] theorem afterWrite_bestDiv (a : Byte) (v : Word) (n : Nat) (e : Env) : (s.afterWrite a v n e).bestDiv = s.bestDiv := rfl
@[simp] theorem afterWrite_bestFound (a : Byte) (v : Word) (n : Nat) (e : Env) : (s.afterWrite a v n e).bestFound = s.bestFound := rfl
@[simp] theorem afterWrite_buf (a : Byte) (v : Word) (n : Nat) (e : Env) : (s.afterWrite a v n e).buf = s.buf := rfl
@[simp] theorem afterWrite_trace (a : Byte) (v : Word) (n : Nat) (e : Env) : (s.afterWrite a v n e).trace = s.trace ++ writeFrameEvents s.cs s.dcs a v n := rfl
@[simp] theorem afterWrite_result (a : Byte) (v : Word) (n : Nat) (e : Env) : (s.afterWrite a v n e).result = s.result := rfl
@[simp] theorem afterWrite_waiting (a : Byte) (v : Word) (n : Nat) (e : Env) : (s.afterWrite a v n e).waiting = s.waiting := rfl
@[simp] theorem afterWrite_pending (a : Byte) (v : Word) (n : Nat) (e : Env) : (s.afterWrite a v n e).pending = s.pending := rfl
@[simp] theorem afterWrite_env (a : Byte) (v : Word) (n : Nat) (e : Env) : (s.afterWrite a v n e).env = e := rfl

/-! ### `afterRead` -/

@[simp] theorem afterRead_cfg (a hi lo : Byte) (n : Nat) (e : Env) : (s.afterRead a hi lo n e).cfg = s.cfg := rfl
@[simp] theorem afterRead_mode (a hi lo : Byte) (n : Nat) (e : Env) : (s.afterRead a hi lo n e).mode = s.mode := rfl
@[simp] theorem afterRead_cs (a hi lo : Byte) (n : Nat) (e : Env) : (s.afterRead a hi lo n e).cs = true := rfl
@[simp] theorem afterRead_dcs (a hi lo : Byte) (n : Nat) (e : Env) : (s.afterRead a hi lo n e).dcs = true := rfl
@[simp] theorem afterRead_rst (a hi lo : Byte) (n : Nat) (e : Env) : (s.afterRead a hi lo n e).rst = s.rst := rfl
@[simp] theorem afterRead_busOwned (a hi lo : Byte) (n : Nat) (e : Env) : (s.afterRead a hi lo n e).busOwned = false := rfl
@[simp] theorem afterRead_busClk (a hi lo : Byte) (n : Nat) (e : Env) : (s.afterRead a hi lo n e).busClk = s.busClk := rfl
@[simp] theorem afterRead_fault (a hi lo : Byte) (n : Nat) (e : Env) : (s.afterRead a hi lo n e).fault = s.fault := rfl
@[simp] theorem afterRead_initOk (a hi lo : Byte) (n : Nat) (e : Env) : (s.afterRead a hi lo n e).initOk = s.initOk := rfl
@[simp] theorem afterRead_stFail1 (a hi lo : Byte) (n : Nat) (e : Env) : (s.afterRead a hi lo n e).stFail1 = s.stFail1 := rfl
@[simp] theorem afterRead_stFail2 (a hi lo : Byte) (n : Nat) (e : Env) : (s.afterRead a hi lo n e).stFail2 = s.stFail2 := rfl
@[simp] theorem afterRead_volume (a hi lo : Byte) (n : Nat) (e : Env) : (s.afterRead a hi lo n e).volume = s.volume := rfl
@[simp] theorem afterRead_balance (a hi lo : Byte) (n : Nat) (e : Env) : (s.afterRead a hi lo n e).balance = s.balance := rfl
@[simp] theorem afterRead_endFill (a hi lo : Byte) (n : Nat) (e : Env) : (s.afterRead a hi lo n e).endFill = s.endFill := rfl
@[simp] theorem afterRead_version (a hi lo : Byte) (n : Nat) (e : Env) : (s.afterRead a hi lo n e).version = s.version := rfl
@[simp] theorem afterRead_family (a hi lo : Byte) (n : Nat) (e : Env) : (s.afterRead a hi lo n e).family = s.family := rfl
@[simp] theorem afterRead_chMult (a hi lo : Byte) (n : Nat) (e : Env) : (s.afterRead a hi lo n e).chMult = s.chMult := rfl
@[simp] theorem afterRead_bassF (a hi lo : Byte) (n : Nat) (e : Env) : (s.afterRead a hi lo n e).bassF = s.bassF := rfl
@[simp] theorem afterRead_bassA (a hi lo : Byte) (n : Nat) (e : Env) : (s.afterRead a hi lo n e).bassA = s.bassA := rfl
@[simp] theorem afterRead_trebF (a hi lo : Byte) (n : Nat) (e : Env) : (s.afterRead a hi lo n e).trebF = s.trebF := rfl
@[simp] theorem afterRead_trebA (a hi lo : Byte) (n : Nat) (e : Env) : (s.afterRead a hi lo n e).trebA = s.trebA := rfl
@[simp] theorem afterRead_recRate (a hi lo : Byte) (n : Nat) (e : Env) : (s.afterRead a hi lo n e).recRate = s.recRate := rfl
@[simp] theorem afterRead_recCh (a hi lo : Byte) (n : Nat) (e : Env) : (s.afterRead a hi lo n e).recCh = s.recCh := rfl
@[simp] theorem afterRead_recGain (a hi lo : Byte) (n : Nat) (e : Env) : (s.afterRead a hi lo n e).recGain = s.recGain := rfl
@[simp] theorem afterRead_recAgc (a hi lo : Byte) (n : Nat) (e : Env) : (s.afterRead a hi lo n e).recAgc = s.recAgc := rfl
@[simp] theorem afterRead_recSrc (a hi lo : Byte) (n : Nat) (e : Env) : (s.afterRead a hi lo n e).recSrc = s.recSrc := rfl
@[simp] theorem afterRead_recKeepHdr (a hi lo : Byte) (n : Nat) (e : Env) : (s.afterRead a hi lo n e).recKeepHdr = s.recKeepHdr := rfl
@[simp] theorem afterRead_recAchieved (a hi lo : Byte) (n : Nat) (e : Env) : (s.afterRead a hi lo n e).recAchieved = s.recAchieved := rfl
@[simp] theorem afterRead_pIdx (a hi lo : Byte) (n : Nat) (e : Env) : (s.afterRead a hi lo n e).pIdx = s.pIdx := rfl
@[simp] theorem afterRead_pLen (a hi lo : Byte) (n : Nat) (e : Env) : (s.afterRead a hi lo n e).pLen = s.pLen := rfl
@[simp] theorem afterRead_pAddr (a hi lo : Byte) (n : Nat) (e : Env) : (s.afterRead a hi lo n e).pAddr = s.pAddr := rfl
@[simp] theorem afterRead_pCnt (a hi lo : Byte) (n : Nat) (e : Env) : (s.afterRead a hi lo n e).pCnt = s.pCnt := rfl
@[simp] theorem afterRead_pVal (a hi lo : Byte) (n : Nat) (e : Env) : (s.afterRead a hi lo n e).pVal = s.pVal := rfl
@[simp] theorem afterRead_sPos (a hi lo : Byte) (n : Nat) (e : Env) : (s.afterRead a hi lo n e).sPos = s.sPos := rfl
@[simp] theorem afterRead_sRem (a hi lo : Byte) (n : Nat) (e : Env) : (s.afterRead a hi lo n e).sRem = s.sRem := rfl
@[simp] theorem afterRead_bestDiff (a hi lo : Byte) (n : Nat) (e : Env) : (s.afterRead a hi lo n e).bestDiff = s.bestDiff := rfl
@[simp] theorem afterRead_bestK (a hi lo : Byte) (n : Nat) (e : Env) : (s.afterRead a hi lo n e).bestK = s.bestK := rfl
@[simp] theorem afterRead_bestDiv (a hi lo : Byte) (n : Nat) (e : Env) : (s.afterRead a hi lo n e).bestDiv = s.bestDiv := rfl
@[simp] theorem afterRead_bestFound (a hi lo : Byte) (n : Nat) (e : Env) : (s.afterRead a hi lo n e).bestFound = s.bestFound := rfl
@[simp] theorem afterRead_buf (a hi lo : Byte) (n : Nat) (e : Env) : (s.afterRead a hi lo n e).buf = s.buf := rfl
@[simp] theorem afterRead_trace (a hi lo : Byte) (n : Nat) (e : Env) : (s.afterRead a hi lo n e).trace = s.trace ++ readFrameEvents s.cs s.dcs a hi lo n := rfl
@[simp] theorem afterRead_result (a hi lo : Byte) (n : Nat) (e : Env) : (s.afterRead a hi lo n e).result = s.result := rfl
@[simp] theorem afterRead_waiting (a hi lo : Byte) (n : Nat) (e : Env) : (s.afterRead a hi lo n e).waiting = s.waiting := rfl
@[simp] theorem afterRead_pending (a hi lo : Byte) (n : Nat) (e : Env) : (s.afterRead a hi lo n e).pending = s.pending := rfl
@[simp] theorem afterRead_env (a hi lo : Byte) (n : Nat) (e : Env) : (s.afterRead a hi lo n e).env = e := rfl

/-! ### `drive` -/

@[simp] theorem drive_cs (level : Bool) : s.drive .cs level = { s with cs := level } := rfl
@[simp] theorem drive_dcs (level : Bool) : s.drive .dcs level = { s with dcs := level } := rfl
@[simp] theorem drive_rst (level : Bool) : s.drive .rst level = { s with rst := level } := rfl
@[simp] theorem drive_dreq (level : Bool) : s.drive .dreq level = s := rfl

end

end Sys2Proof.Machine
end

