-- ==== Sys2Proof/Laws/Ops.lean ====
section
/-!
SUPPORT. How operations compose, and once for each shared operation everything it can do.
-/
namespace Sys2Proof.Machine

/-! ### Sequencing -/

theorem op_bind_ok {α β : Type} {x : Op α} {f : α → Op β} {s t : State} {a : α} (h : x s = .ok a t) :
    (x >>= f) s = f a t := by
  simp [bind, EStateM.bind, h]

theorem op_bind_error {α β : Type} {x : Op α} {f : α → Op β} {s t : State} {e : Stop} (h : x s = .error e t) :
    (x >>= f) s = .error e t := by
  simp [bind, EStateM.bind, h]

@[simp] theorem op_pure {α : Type} (a : α) (s : State) : (pure a : Op α) s = .ok a s := rfl

theorem op_get_bind {β : Type} (f : State → Op β) (s : State) : (get >>= f) s = f s s := rfl

theorem op_modify_bind {β : Type} (g : State → State) (f : Unit → Op β) (s : State) :
    (modify g >>= f) s = f () (g s) := rfl

@[simp] theorem op_modify (g : State → State) (s : State) : (modify g : Op Unit) s = .ok () (g s) := rfl

/-- Where a sequence ends well, its two parts did. -/
theorem op_bind_ok_inv {α β : Type} {x : Op α} {f : α → Op β} {s u : State} {b : β}
    (h : (x >>= f) s = .ok b u) : ∃ a t, x s = .ok a t ∧ f a t = .ok b u := by
  cases hx : x s with
  | ok a t => exact ⟨a, t, rfl, (op_bind_ok hx).symm.trans h⟩
  | error e t => rw [op_bind_error hx] at h; cases h

/-- The state an operation leaves, however it ends. -/
def endState {α : Type} (op : Op α) (s : State) : State :=
  match op s with
  | .ok _ t => t
  | .error _ t => t

theorem endState_ok {α : Type} {op : Op α} {s t : State} {a : α} (h : op s = .ok a t) : endState op s = t := by
  simp [endState, h]

theorem endState_error {α : Type} {op : Op α} {s t : State} {e : Stop} (h : op s = .error e t) :
    endState op s = t := by
  simp [endState, h]

theorem endState_bind_pure {α β : Type} (op : Op α) (f : α → β) (s : State) :
    endState (op >>= fun a => pure (f a)) s = endState op s := by
  simp only [endState, bind, EStateM.bind]
  cases op s <;> rfl

/-- An operation keeps a relation: it holds between the state before and the state after, however it ends. -/
def Keeps (R : State → State → Prop) {α : Type} (op : Op α) : Prop := ∀ s, R s (endState op s)

/-- A sequence keeps a transitive relation that its parts keep. -/
theorem Keeps.bind {R : State → State → Prop} (trans : ∀ s t u, R s t → R t u → R s u) {α β : Type} {x : Op α}
    {f : α → Op β} (hx : Keeps R x) (hf : ∀ a, Keeps R (f a)) : Keeps R (x >>= f) := by
  intro s
  have h1 := hx s
  cases h : x s with
  | ok a t =>
    rw [endState_ok h] at h1
    have h2 := hf a t
    have : endState (x >>= f) s = endState (f a) t := by simp [endState, op_bind_ok h]
    rw [this]
    exact trans _ _ _ h1 h2
  | error e t =>
    rw [endState_error h] at h1
    rwa [endState_error (op_bind_error h)]

theorem Keeps.pure {R : State → State → Prop} (refl : ∀ s, R s s) {α : Type} (a : α) : Keeps R (pure a : Op α) :=
  fun s => refl s

theorem Keeps.ite {R : State → State → Prop} {α : Type} {c : Prop} [Decidable c] {x y : Op α}
    (hx : Keeps R x) (hy : Keeps R y) : Keeps R (if c then x else y) := by
  split <;> assumption

/-- Everything running an operation can do: its own end state, with a result record, none where it hangs. -/
theorem runOp_cases (op : Op Result) (s : State) :
    (∃ r t, op s = .ok r t ∧ runOp op s = { t with result := some r }) ∨
    (∃ info t, op s = .error (.raised info) t ∧
      runOp op s = { t with result := some { st := .fault info, val := .absent } }) ∨
    (∃ t, op s = .error .hung t ∧ runOp op s = { t with result := none }) := by
  unfold runOp
  cases op s with
  | ok r t => exact .inl ⟨r, t, rfl, rfl⟩
  | error e t =>
    cases e with
    | raised info => exact .inr (.inl ⟨info, t, rfl, rfl⟩)
    | hung => exact .inr (.inr ⟨t, rfl, rfl⟩)

theorem runOp_ok {op : Op Result} {s t : State} {r : Result} (h : op s = .ok r t) : runOp op s = t.returns r := by
  simp [runOp, h, State.returns]

theorem runOp_raised {op : Op Result} {s t : State} {info : FaultInfo} (h : op s = .error (.raised info) t) :
    runOp op s = t.returns { st := .fault info, val := .absent } := by
  simp [runOp, h, State.returns]

theorem runOp_hung {op : Op Result} {s t : State} (h : op s = .error .hung t) :
    runOp op s = { t with result := none } := by
  simp [runOp, h]

/-- What running an operation changes beyond the operation itself: the result record. -/
theorem runOp_eq_endState (op : Op Result) (s : State) :
    ∃ r, runOp op s = { endState op s with result := r } := by
  rcases runOp_cases op s with ⟨r, t, h, e⟩ | ⟨i, t, h, e⟩ | ⟨t, h, e⟩
  · exact ⟨_, by rw [e, endState_ok h]⟩
  · exact ⟨_, by rw [e, endState_error h]⟩
  · exact ⟨_, by rw [e, endState_error h]⟩

/-! ### Primitives -/

@[simp] theorem event_eq (s : State) (p : Prim) : s.event p = ⟨p, s.cs, s.dcs⟩ := rfl

theorem emit_run (p : Prim) (s : State) : emit p s = .ok () (s.emit p) := rfl

theorem beginTxn_free (s : State) (h : s.busOwned = false) :
    beginTxn s = .ok () ({ s with busOwned := true }.emit .beginTxn) := by
  simp [beginTxn, h]

theorem beginTxn_owned (s : State) (h : s.busOwned = true) :
    beginTxn s = .error (.raised .nestedTxn) (s.recordFault .nestedTxn) := by
  simp [beginTxn, h, raise]

theorem lowPolls_eq (s : State) (n : Nat) :
    s.lowPolls n = (List.replicate n [Event.mk (.sampleDreq false) s.cs s.dcs, Event.mk .yield s.cs s.dcs]).flatten := by
  induction n with
  | zero => rfl
  | succ n ih => simp [State.lowPolls, ih, List.replicate_succ]

theorem waited_eq (s : State) (n : Nat) (e : Env) :
    s.waited n e = { s with env := e, trace := s.trace ++ waitEvents s.cs s.dcs n } := by
  simp [State.waited, waitEvents, lowPolls_eq]

theorem waitReady_high (s : State) {n : Nat} {e : Env} (h : s.env.wait = (n, some e)) :
    waitReady s = .ok () (s.waited n e) := by
  simp [waitReady, h]

theorem waitReady_never (s : State) {n : Nat} (h : s.env.wait = (n, none)) :
    waitReady s = .error .hung (s.hanging n) := by
  simp [waitReady, h]

/-- Where the inputs end on high samples every wait ends, and the inputs after it end on high samples too. -/
theorem wait_of_high (e : Env) (h : e.readyAfter = .high) :
    ∃ n e', e.wait = (n, some e') ∧ e'.readyAfter = .high ∧ e'.miso = e.miso ∧ e'.chip = e.chip ∧ e'.draws = e.draws := by
  unfold Env.wait
  rcases lowRun e.ready with ⟨n, _ | rest⟩
  · exact ⟨n, { e with ready := [] }, by simp [h], h, rfl, rfl, rfl⟩
  · exact ⟨n, { e with ready := rest }, rfl, h, rfl, rfl, rfl⟩

theorem wait_at_once (e : Env) (h : e.ready = []) (h' : e.readyAfter = .high) : e.wait = (0, some e) := by
  obtain ⟨r, ra, m, d, c⟩ := e
  subst h
  subst h'
  rfl

/-- Everything a wait can meet: samples written out up to a high one, or, where none is, what follows them. -/
theorem wait_cases (e : Env) :
    (∃ n rest, lowRun e.ready = (n, some rest) ∧ e.wait = (n, some { e with ready := rest })) ∨
    (∃ n, lowRun e.ready = (n, none) ∧
      ((e.readyAfter = .high ∧ e.wait = (n, some { e with ready := [] })) ∨
       (e.readyAfter = .low ∧ e.wait = (n, none)) ∨
       (e.readyAfter = .free ∧ ∃ m, Config.waitLows e.draws = some m ∧
          e.wait = (n + m, some { e with ready := [], draws := e.draws + 1 })) ∨
       (e.readyAfter = .free ∧ Config.waitLows e.draws = none ∧ e.wait = (n, none)))) := by
  unfold Env.wait
  rcases h : lowRun e.ready with ⟨n, _ | rest⟩
  · refine .inr ⟨n, rfl, ?_⟩
    cases hr : e.readyAfter with
    | high => exact .inl ⟨rfl, by simp⟩
    | low => exact .inr (.inl ⟨rfl, by simp⟩)
    | free =>
      cases hm : Config.waitLows e.draws with
      | some m => exact .inr (.inr (.inl ⟨rfl, m, rfl, by simp⟩))
      | none => exact .inr (.inr (.inr ⟨rfl, rfl, by simp⟩))
  · exact .inl ⟨n, rest, rfl, rfl⟩

theorem lowRun_replicate (n : Nat) (rest : List Bool) :
    lowRun (List.replicate n false ++ true :: rest) = (n, some rest) := by
  induction n with
  | zero => rfl
  | succ n ih => simp [List.replicate_succ, lowRun, ih]

theorem lowRun_all_low (n : Nat) : lowRun (List.replicate n false) = (n, none) := by
  induction n with
  | zero => rfl
  | succ n ih => simp [List.replicate_succ, lowRun, ih]

@[simp] theorem take_readyAfter (e : Env) (m : RegMap) (a : Byte) (v : Word) :
    (e.take m a v).readyAfter = e.readyAfter := by
  unfold Env.take; split <;> rfl

@[simp] theorem take_ready (e : Env) (m : RegMap) (a : Byte) (v : Word) : (e.take m a v).ready = e.ready := by
  unfold Env.take; split <;> rfl

theorem byte_readyAfter (e : Env) : e.byte.2.readyAfter = e.readyAfter := by
  unfold Env.byte; split <;> rfl

theorem byte_ready (e : Env) : e.byte.2.ready = e.ready := by
  unfold Env.byte; split <;> rfl

@[simp] theorem answer_readyAfter (e : Env) (m : RegMap) (a : Byte) :
    (e.answer m a).2.2.readyAfter = e.readyAfter := by
  unfold Env.answer; split
  · rfl
  · simp [byte_readyAfter]

@[simp] theorem answer_ready (e : Env) (m : RegMap) (a : Byte) : (e.answer m a).2.2.ready = e.ready := by
  unfold Env.answer; split
  · rfl
  · simp [byte_ready]

/-! ### The transport session -/

theorem controlModeOn_free (s : State) (h : s.busOwned = false) :
    controlModeOn s = .ok () { s with busOwned := true, cs := false, dcs := true,
                                      trace := s.trace ++ controlOnEvents s.cs s.dcs } := by
  simp only [controlModeOn]
  rw [op_bind_ok (beginTxn_free s h)]
  simp [bind, EStateM.bind, pinWrite, State.drive, State.emit, controlOnEvents]

theorem controlModeOn_owned (s : State) (h : s.busOwned = true) :
    controlModeOn s = .error (.raised .nestedTxn) (s.recordFault .nestedTxn) :=
  op_bind_error (beginTxn_owned s h)

theorem dataModeOn_free (s : State) (h : s.busOwned = false) :
    dataModeOn s = .ok () { s with busOwned := true, cs := true, dcs := false,
                                   trace := s.trace ++ dataOnEvents s.cs s.dcs } := by
  simp only [dataModeOn]
  rw [op_bind_ok (beginTxn_free s h)]
  simp [bind, EStateM.bind, pinWrite, State.drive, State.emit, dataOnEvents]

theorem dataModeOn_owned (s : State) (h : s.busOwned = true) :
    dataModeOn s = .error (.raised .nestedTxn) (s.recordFault .nestedTxn) :=
  op_bind_error (beginTxn_owned s h)

theorem controlModeOff_run (s : State) :
    controlModeOff s = .ok () { s with busOwned := false, cs := true, dcs := true,
                                       trace := s.trace ++ [⟨.pinWrite .cs true, true, s.dcs⟩,
                                         ⟨.pinWrite .dcs true, true, true⟩, ⟨.endTxn, true, true⟩] } := by
  simp [controlModeOff, bind, EStateM.bind, pinWrite, endTxn, State.drive, State.emit]

theorem dataModeOff_run (s : State) :
    dataModeOff s = .ok () { s with busOwned := false, cs := true, dcs := true,
                                    trace := s.trace ++ [⟨.pinWrite .dcs true, s.cs, true⟩,
                                      ⟨.pinWrite .cs true, true, true⟩, ⟨.endTxn, true, true⟩] } := by
  simp [dataModeOff, bind, EStateM.bind, pinWrite, endTxn, State.drive, State.emit]

/-! ### The register protocol -/

/-- The state in which a write frame hangs: the chip still selected, the bus still owned (60 R150). -/
def State.writeHangs (s : State) (a : Byte) (v : Word) (n : Nat) : State :=
  { s with busOwned := true, cs := false, dcs := true, env := (s.env.take s.cfg.regMap a v).stuck, waiting := true
           trace := s.trace ++ (controlOnEvents s.cs s.dcs ++
             [⟨.write8 0x02, false, true⟩, ⟨.write8 a, false, true⟩, ⟨.write16 v, false, true⟩] ++
             (List.replicate (n + 1) [Event.mk (.sampleDreq false) false true, Event.mk .yield false true]).flatten) }

/-- The state in which a read frame hangs. -/
def State.readHangs (s : State) (a : Byte) (n : Nat) : State :=
  { s with busOwned := true, cs := false, dcs := true, env := (s.env.answer s.cfg.regMap a).2.2.stuck, waiting := true
           trace := s.trace ++ (controlOnEvents s.cs s.dcs ++
             [⟨.write8 0x03, false, true⟩, ⟨.write8 a, false, true⟩,
              ⟨.xfer8 0xFF (s.env.answer s.cfg.regMap a).1, false, true⟩,
              ⟨.xfer8 0xFF (s.env.answer s.cfg.regMap a).2.1, false, true⟩] ++
             (List.replicate (n + 1) [Event.mk (.sampleDreq false) false true, Event.mk .yield false true]).flatten) }

theorem writeRegister_done (a : Byte) (v : Word) (s : State) {n : Nat} {e : Env} (h : s.busOwned = false)
    (hw : (s.env.take s.cfg.regMap a v).wait = (n, some e)) :
    writeRegister a v s = .ok () (s.afterWrite a v n e) := by
  simp only [writeRegister]
  rw [op_bind_ok (controlModeOn_free s h)]
  simp [bind, EStateM.bind, writeFrameBytes, emit, State.emit, chipTakes, waitReady, hw, waited_eq,
    controlModeOff_run, State.afterWrite, writeFrameEvents, controlOffEvents]

theorem writeRegister_hangs (a : Byte) (v : Word) (s : State) {n : Nat} (h : s.busOwned = false)
    (hw : (s.env.take s.cfg.regMap a v).wait = (n, none)) :
    writeRegister a v s = .error .hung (s.writeHangs a v n) := by
  simp only [writeRegister]
  rw [op_bind_ok (controlModeOn_free s h)]
  simp [bind, EStateM.bind, writeFrameBytes, emit, State.emit, chipTakes, waitReady, hw, State.hanging, lowPolls_eq,
    State.writeHangs]

theorem writeRegister_owned (a : Byte) (v : Word) (s : State) (h : s.busOwned = true) :
    writeRegister a v s = .error (.raised .nestedTxn) (s.recordFault .nestedTxn) :=
  op_bind_error (controlModeOn_owned s h)

/-- Everything a register write can do (41 R68). -/
theorem writeRegister_cases (a : Byte) (v : Word) (s : State) :
    (s.busOwned = true ∧ writeRegister a v s = .error (.raised .nestedTxn) (s.recordFault .nestedTxn)) ∨
    (s.busOwned = false ∧ ∃ n e, (s.env.take s.cfg.regMap a v).wait = (n, some e) ∧
      writeRegister a v s = .ok () (s.afterWrite a v n e)) ∨
    (s.busOwned = false ∧ ∃ n, (s.env.take s.cfg.regMap a v).wait = (n, none) ∧
      writeRegister a v s = .error .hung (s.writeHangs a v n)) := by
  cases h : s.busOwned with
  | true => exact .inl ⟨rfl, writeRegister_owned a v s h⟩
  | false =>
    rcases hw : (s.env.take s.cfg.regMap a v).wait with ⟨n, _ | e⟩
    · exact .inr (.inr ⟨rfl, n, rfl, writeRegister_hangs a v s h hw⟩)
    · exact .inr (.inl ⟨rfl, n, e, rfl, writeRegister_done a v s h hw⟩)

theorem readRegister_done (a : Byte) (s : State) {n : Nat} {e : Env} (h : s.busOwned = false)
    (hw : (s.env.answer s.cfg.regMap a).2.2.wait = (n, some e)) :
    readRegister a s = .ok (joinBytes (s.env.answer s.cfg.regMap a).1 (s.env.answer s.cfg.regMap a).2.1)
      (s.afterRead a (s.env.answer s.cfg.regMap a).1 (s.env.answer s.cfg.regMap a).2.1 n e) := by
  simp only [readRegister]
  rw [op_bind_ok (controlModeOn_free s h)]
  simp [bind, EStateM.bind, readFrameBytes, State.emit, waitReady, hw, waited_eq, pure, EStateM.pure,
    controlModeOff_run, State.afterRead, readFrameEvents, controlOffEvents]

theorem readRegister_hangs (a : Byte) (s : State) {n : Nat} (h : s.busOwned = false)
    (hw : (s.env.answer s.cfg.regMap a).2.2.wait = (n, none)) :
    readRegister a s = .error .hung (s.readHangs a n) := by
  simp only [readRegister]
  rw [op_bind_ok (controlModeOn_free s h)]
  simp [bind, EStateM.bind, readFrameBytes, State.emit, waitReady, hw, State.hanging, lowPolls_eq, State.readHangs]

theorem readRegister_owned (a : Byte) (s : State) (h : s.busOwned = true) :
    readRegister a s = .error (.raised .nestedTxn) (s.recordFault .nestedTxn) :=
  op_bind_error (controlModeOn_owned s h)

/-- Everything a register read can do (41 R67). -/
theorem readRegister_cases (a : Byte) (s : State) :
    (s.busOwned = true ∧ readRegister a s = .error (.raised .nestedTxn) (s.recordFault .nestedTxn)) ∨
    (s.busOwned = false ∧ ∃ n e, (s.env.answer s.cfg.regMap a).2.2.wait = (n, some e) ∧
      readRegister a s = .ok (joinBytes (s.env.answer s.cfg.regMap a).1 (s.env.answer s.cfg.regMap a).2.1)
        (s.afterRead a (s.env.answer s.cfg.regMap a).1 (s.env.answer s.cfg.regMap a).2.1 n e)) ∨
    (s.busOwned = false ∧ ∃ n, (s.env.answer s.cfg.regMap a).2.2.wait = (n, none) ∧
      readRegister a s = .error .hung (s.readHangs a n)) := by
  cases h : s.busOwned with
  | true => exact .inl ⟨rfl, readRegister_owned a s h⟩
  | false =>
    rcases hw : (s.env.answer s.cfg.regMap a).2.2.wait with ⟨n, _ | e⟩
    · exact .inr (.inr ⟨rfl, n, rfl, readRegister_hangs a s h hw⟩)
    · exact .inr (.inl ⟨rfl, n, e, rfl, readRegister_done a s h hw⟩)

theorem writeNamed_run (r : RegName) (v : Word) (s : State) : writeNamed r v s = writeRegister (s.regAddr r) v s := rfl

theorem readNamed_run (r : RegName) (s : State) : readNamed r s = readRegister (s.regAddr r) s := rfl

end Sys2Proof.Machine
end

