-- ==== Sys2Proof/Laws/Frames.lean ====
section
/-!
SUPPORT. What each shared operation leaves alone, however it ends: one lemma per operation, for any relation between
the state before and the state after that the transport's own fields, and the fields the operation writes, may move in.
-/
namespace Sys2Proof.Machine

/-- A relation between states that whole register frames, log events and raised faults keep. -/
structure FrameClosed (R : State → State → Prop) : Prop where
  refl : ∀ s, R s s
  trans : ∀ s t u, R s t → R t u → R s u
  write : ∀ a v, Keeps R (writeRegister a v)
  read : ∀ a, Keeps R (readRegister a)
  log : ∀ id, Keeps R (logEvent id)
  fault : ∀ (s : State) info, R s (s.recordFault info)

/-- A relation that the parts of chip initialisation keep, too. A version it stores is the field of a status word. -/
structure ChipClosed (R : State → State → Prop) : Prop extends FrameClosed R where
  pins : Keeps R resetPins
  check : ∀ n, Keeps R (connectivityCheck n)
  clock : ∀ hz, Keeps R (setClock hz)
  fields : ∀ (s : State) f1 f2 ver fam ef ok, (ver = s.version ∨ ∃ st, ver = versionField s.cfg st) →
    R s { s with stFail1 := f1, stFail2 := f2, version := ver, family := fam, endFill := ef, initOk := ok }

section
variable {R : State → State → Prop} (h : FrameClosed R)
include h

theorem FrameClosed.bind {α β : Type} {x : Op α} {f : α → Op β} (hx : Keeps R x) (hf : ∀ a, Keeps R (f a)) :
    Keeps R (x >>= f) := Keeps.bind h.trans hx hf

theorem FrameClosed.pure {α : Type} (a : α) : Keeps R (Pure.pure a : Op α) := fun s => h.refl s

theorem FrameClosed.get : Keeps R (get : Op State) := fun s => h.refl s

omit h in
theorem keeps_modify {g : State → State} (hg : ∀ s, R s (g s)) : Keeps R (modify g : Op Unit) := fun s => hg s

theorem keeps_logEvent (id : LogId) : Keeps R (logEvent id) := h.log id

theorem keeps_raise {α : Type} (info : FaultInfo) : Keeps R (raise info : Op α) := fun s => h.fault s info

/-! ### The register protocol -/

theorem keeps_writeRegister (a : Byte) (v : Word) : Keeps R (writeRegister a v) := h.write a v

theorem keeps_readRegister (a : Byte) : Keeps R (readRegister a) := h.read a

theorem keeps_writeNamed (r : RegName) (v : Word) : Keeps R (writeNamed r v) :=
  h.bind h.get fun _ => keeps_writeRegister h _ _

theorem keeps_readNamed (r : RegName) : Keeps R (readNamed r) := h.bind h.get fun _ => keeps_readRegister h _

theorem keeps_wramWrite (addr v : Word) : Keeps R (wramWrite addr v) :=
  h.bind (keeps_writeNamed h _ _) fun _ => keeps_writeNamed h _ _

theorem keeps_wramRead (addr : Word) : Keeps R (wramRead addr) :=
  h.bind (keeps_writeNamed h _ _) fun _ => keeps_readNamed h _

theorem keeps_setModeBits (f : Word → Word) : Keeps R (setModeBits f) :=
  h.bind (keeps_readNamed h _) fun _ => keeps_writeNamed h _ _

theorem keeps_softReset : Keeps R softReset := h.bind h.get fun _ => keeps_setModeBits h _

theorem keeps_stripHeader (n : Nat) : Keeps R (stripHeader n) := by
  induction n with
  | zero => exact h.pure _
  | succ n ih => exact h.bind (keeps_readNamed h _) fun _ => ih

theorem keeps_skipHeader (keep : Bool) : Keeps R (skipHeader keep) := Keeps.ite (h.pure _) (keeps_stripHeader h _)

theorem keeps_available : Keeps R available :=
  h.bind h.get fun _ => Keeps.ite (h.bind (keeps_readNamed h _) fun _ => h.pure _) (h.pure _)

/-! ### The streaming engine -/

theorem keeps_writeAudio (hb : ∀ data len, Keeps R (sendBuffer data len)) (data : List Byte) (len : Nat) :
    Keeps R (writeAudio data len) := h.bind h.get fun _ => Keeps.ite (hb _ _) (hb _ _)

theorem keeps_sendMidiMessage (hb : ∀ data len, Keeps R (sendBuffer data len)) (n b0 b1 b2 : Byte) :
    Keeps R (sendMidiMessage n b0 b1 b2) :=
  Keeps.ite (h.pure _) (h.bind h.get fun _ => Keeps.ite
    (h.bind (hb _ _) fun _ => h.pure _) (h.bind (keeps_logEvent h _) fun _ => h.pure _))

/-! ### The patch loader -/

section
variable (hp : ∀ (s : State) i l a c v, R s { s with pIdx := i, pLen := l, pAddr := a, pCnt := c, pVal := v })
include hp

omit hp in
theorem keeps_patchWord (words : List Word) (i : Nat) : Keeps R (patchWord words i) := by
  intro s
  by_cases hi : i < s.pLen
  · rw [endState_ok (by simp only [patchWord, hi, if_true]; rfl)]; exact h.refl s
  · have : patchWord words i s = raise (.patchMalformed i .outOfBounds) s := by simp [patchWord, hi]
    rw [endState, this]; exact keeps_raise h (α := Word) _ s

theorem keeps_takeAddress (a : Word) : Keeps R (takeAddress a) :=
  h.bind (keeps_modify fun s => hp s s.pIdx s.pLen a s.pCnt s.pVal) fun _ => h.bind h.get fun _ =>
    Keeps.ite (h.pure _) (keeps_raise h _)

omit h in
theorem keeps_takeCount (c : Word) : Keeps R (takeCount c) :=
  keeps_modify fun s => hp s (s.pIdx + 2) s.pLen s.pAddr c s.pVal

omit h in
theorem keeps_takeValue (v : Word) : Keeps R (takeValue v) :=
  keeps_modify fun s => hp s (s.pIdx + 1) s.pLen s.pAddr s.pCnt v

omit hp in
theorem keeps_writeValue : Keeps R writeValue := h.bind h.get fun _ => keeps_writeRegister h _ _

omit hp in
theorem keeps_repeatWrite (n : Nat) : Keeps R (repeatWrite n) := by
  induction n with
  | zero => exact h.pure _
  | succ n ih => exact h.bind (keeps_writeValue h) fun _ => ih

theorem keeps_loadRle (words : List Word) (n : Nat) : Keeps R (loadRle words n) :=
  h.bind h.get fun _ => h.bind (keeps_patchWord h _ _) fun _ => h.bind (keeps_takeValue hp _) fun _ =>
    keeps_repeatWrite h n

theorem keeps_loadCopy (words : List Word) (n : Nat) : Keeps R (loadCopy words n) := by
  induction n with
  | zero => exact h.pure _
  | succ n ih =>
    exact h.bind h.get fun _ => h.bind (keeps_patchWord h _ _) fun _ => h.bind (keeps_takeValue hp _) fun _ =>
      h.bind (keeps_writeValue h) fun _ => ih

theorem keeps_copyValues (vs : List Word) : Keeps R (copyValues vs) := by
  induction vs with
  | nil => exact h.pure _
  | cons v vs ih => exact h.bind (keeps_takeValue hp _) fun _ => h.bind (keeps_writeValue h) fun _ => ih

theorem keeps_loadRecord (words : List Word) : Keeps R (loadRecord words) :=
  h.bind h.get fun _ => h.bind (keeps_patchWord h _ _) fun _ => h.bind (keeps_takeAddress h hp _) fun _ =>
    h.bind (keeps_patchWord h _ _) fun _ => h.bind (keeps_takeCount hp _) fun _ =>
      Keeps.ite (keeps_loadRle h hp _ _) (keeps_loadCopy h hp _ _)

theorem keeps_loadLoop (words : List Word) (fuel : Nat) : Keeps R (loadLoop words fuel) := by
  induction fuel with
  | zero => exact h.pure _
  | succ n ih =>
    exact h.bind h.get fun _ => Keeps.ite (h.bind (keeps_loadRecord h hp _) fun _ => ih) (h.pure _)

theorem keeps_loadUserCode (words : List Word) (plen : Nat) : Keeps R (loadUserCode words plen) :=
  h.bind (keeps_modify fun s => hp s 0 plen s.pAddr s.pCnt s.pVal) fun _ => keeps_loadLoop h hp _ _

theorem keeps_loadTable (words : List Word) : Keeps R (loadTable words) := keeps_loadUserCode h hp _ _

end

/-! ### Chip initialisation -/

theorem keeps_selfTestLoop (stride : ℕ+) (fuel i fails : Nat) : Keeps R (selfTestLoop stride fuel i fails) := by
  induction fuel generalizing i fails with
  | zero => exact h.pure _
  | succ n ih =>
    exact h.bind h.get fun _ => Keeps.ite
      (h.bind (keeps_writeNamed h _ _) fun _ => h.bind (keeps_readNamed h _) fun _ => ih _ _) (h.pure _)

theorem keeps_selfTest (phase : Nat) (stride : ℕ+) : Keeps R (selfTest phase stride) :=
  h.bind h.get fun _ => h.bind (keeps_selfTestLoop h _ _ _ _) fun _ =>
    Keeps.ite (h.bind (keeps_logEvent h _) fun _ => h.pure _) (h.pure _)

end

section
variable {R : State → State → Prop} (c : ChipClosed R)
include c

theorem keeps_probeBus : Keeps R probeBus :=
  have h := c.toFrameClosed
  h.bind h.get fun _ => h.bind (c.clock _) fun _ => h.bind (c.check _) fun _ => h.bind (keeps_selfTest h _ _) fun _ =>
    h.bind (keeps_modify fun s => c.fields s _ s.stFail2 s.version s.family s.endFill s.initOk (.inl rfl)) fun _ =>
      h.bind (c.clock _) fun _ => h.bind (keeps_selfTest h _ _) fun _ =>
        h.bind (keeps_modify fun s => c.fields s s.stFail1 _ s.version s.family s.endFill s.initOk (.inl rfl)) fun _ => h.pure _

theorem keeps_programChip : Keeps R programChip :=
  have h := c.toFrameClosed
  h.bind h.get fun _ => h.bind (keeps_writeNamed h _ _) fun _ => h.bind (keeps_writeNamed h _ _) fun _ =>
    h.bind (keeps_readNamed h _) fun _ =>
      h.bind (keeps_modify fun s => c.fields s s.stFail1 s.stFail2 _ _ s.endFill s.initOk (.inr ⟨_, rfl⟩)) fun _ =>
        h.bind (keeps_wramRead h _) fun _ =>
          h.bind (keeps_modify fun s => c.fields s s.stFail1 s.stFail2 s.version s.family _ s.initOk (.inl rfl)) fun _ => h.pure _

theorem keeps_initVerdict (b : Bool) : Keeps R (initVerdict b) :=
  have h := c.toFrameClosed
  h.bind (keeps_modify fun s => c.fields s s.stFail1 s.stFail2 s.version s.family s.endFill _ (.inl rfl)) fun _ =>
    h.bind h.get fun _ => Keeps.ite (Keeps.ite (h.pure _) (h.pure _)) (h.bind (keeps_logEvent h _) fun _ => h.pure _)

theorem keeps_chipInit : Keeps R chipInit :=
  have h := c.toFrameClosed
  h.bind c.pins fun _ => h.bind (keeps_probeBus c) fun _ => h.bind (keeps_programChip c) fun _ => keeps_initVerdict c _

end

section
variable {R : State → State → Prop} (h : FrameClosed R)
include h

/-! ### The solver, the setters, the capture buffer -/

omit h in
theorem keeps_solve (hs : ∀ (s : State) d k v f, R s { s with bestDiff := d, bestK := k, bestDiv := v, bestFound := f })
    (target : Nat) : Keeps R (solve target) := fun s => hs s _ _ _ _

theorem keeps_writeEq : Keeps R writeEq := h.bind h.get fun _ => keeps_writeNamed h _ _

theorem keeps_writeVolume : Keeps R writeVolume := h.bind h.get fun _ => keeps_writeNamed h _ _

theorem keeps_readLoop (hb : ∀ at_ w, Keeps R (storeWord at_ w)) (n at_ : Nat) : Keeps R (readLoop n at_) := by
  induction n generalizing at_ with
  | zero => exact h.pure _
  | succ n ih =>
    exact h.bind (keeps_readNamed h _) fun _ => h.bind (hb _ _) fun _ => ih _

theorem keeps_readBytes (hb : ∀ at_ w, Keeps R (storeWord at_ w)) (buf n : Nat) : Keeps R (readBytes buf n) :=
  h.bind h.get fun _ => Keeps.ite
    (h.bind (keeps_available h) fun _ => h.bind (keeps_readLoop h hb _ _) fun _ => h.pure _) (h.pure _)

/-! ### Begin-calls and exit -/

theorem keeps_unsupported : Keeps R unsupported := h.bind (keeps_logEvent h _) fun _ => h.pure _

theorem keeps_endSession (hm : ∀ (s : State) m, R s { s with mode := m }) : Keeps R endSession :=
  h.bind h.get fun _ => h.bind (keeps_setModeBits h _) fun _ => h.bind (keeps_softReset h) fun _ =>
    Keeps.ite (keeps_modify fun s => hm s _) (h.pure _)

section
variable (hp : ∀ (s : State) i l a c v, R s { s with pIdx := i, pLen := l, pAddr := a, pCnt := c, pVal := v })
include hp

theorem keeps_startMidi (hd : Keeps R drawMode) (hm : ∀ (s : State) m, R s { s with mode := m }) (table : List Word)
    (entry : Word) : Keeps R (startMidi table entry) :=
  h.bind (keeps_loadTable h hp _) fun _ => h.bind (keeps_writeNamed h _ _) fun _ => h.bind h.get fun _ =>
    h.bind (keeps_readNamed h _) fun _ =>
      Keeps.ite (h.bind (keeps_modify fun s => hm s _) fun _ => h.pure _)
        (h.bind (keeps_logEvent h _) fun _ => h.bind hd fun _ => h.pure _)

omit hp in
theorem keeps_programCaptureA (ha : ∀ (s : State) r, R s { s with recAchieved := r }) (k div : Nat) :
    Keeps R (programCaptureA k div) :=
  h.bind h.get fun _ => h.bind (keeps_writeNamed h _ _) fun _ => h.bind (keeps_writeNamed h _ _) fun _ =>
    h.bind (keeps_writeNamed h _ _) fun _ => h.bind (keeps_setModeBits h _) fun _ =>
      h.bind (keeps_writeNamed h _ _) fun _ => keeps_modify fun s => ha s _

theorem keeps_inputSetupA (ha : ∀ (s : State) r, R s { s with recAchieved := r })
    (hs : ∀ (s : State) d k v f, R s { s with bestDiff := d, bestK := k, bestDiv := v, bestFound := f }) :
    Keeps R inputSetupA :=
  h.bind h.get fun _ => h.bind (keeps_loadTable h hp _) fun _ => h.bind (keeps_solve hs _) fun point => by
    cases point with
    | some p => exact h.bind (keeps_programCaptureA h ha _ _) fun _ => h.pure _
    | none => exact h.bind (keeps_logEvent h _) fun _ => h.pure _

theorem keeps_inputSetupB (ha : ∀ (s : State) r, R s { s with recAchieved := r }) : Keeps R inputSetupB :=
  h.bind h.get fun _ => h.bind (keeps_writeNamed h _ _) fun _ => h.bind (keeps_writeNamed h _ _) fun _ =>
    h.bind (keeps_writeNamed h _ _) fun _ => h.bind (keeps_writeNamed h _ _) fun _ =>
      h.bind (keeps_setModeBits h _) fun _ => h.bind (keeps_loadTable h hp _) fun _ =>
        h.bind (keeps_skipHeader h _) fun _ => h.bind (keeps_modify fun s => ha s _) fun _ => h.pure _

omit hp in
theorem keeps_enterInput (hx : ∀ s : State, R s { s with chMult := s.recCh, mode := .input }) (r : Result) :
    Keeps R (enterInput r) :=
  Keeps.ite (h.bind (keeps_modify fun s => hx s) fun _ => h.bind h.get fun _ => h.pure _) (h.pure _)

end

end

section
variable {R : State → State → Prop} (c : ChipClosed R)
  (hp : ∀ (s : State) i l a c v, R s { s with pIdx := i, pLen := l, pAddr := a, pCnt := c, pVal := v })
include c hp

theorem keeps_beginOutput (hm : ∀ (s : State), R s { s with mode := .output }) (hf : ∀ n, Keeps R (sendFillers n)) :
    Keeps R beginOutput :=
  have h := c.toFrameClosed
  h.bind (keeps_chipInit c) fun _ => h.bind (keeps_modify fun s => hm s) fun _ => h.bind h.get fun _ =>
    h.bind (hf _) fun _ => Keeps.ite (h.bind (keeps_loadTable h hp _) fun _ => h.pure _) (h.pure _)

theorem keeps_beginMidi (hd : Keeps R drawMode) (hm : ∀ (s : State) m, R s { s with mode := m }) :
    Keeps R beginMidi :=
  have h := c.toFrameClosed
  h.bind (keeps_chipInit c) fun _ => h.bind h.get fun s => by
    cases s.family with
    | unknown => exact keeps_unsupported h
    | familyA => exact keeps_startMidi h hp hd hm _ _
    | familyB => exact keeps_startMidi h hp hd hm _ _

theorem keeps_beginInput (ha : ∀ (s : State) r, R s { s with recAchieved := r })
    (hs : ∀ (s : State) d k v f, R s { s with bestDiff := d, bestK := k, bestDiv := v, bestFound := f })
    (hx : ∀ s : State, R s { s with chMult := s.recCh, mode := .input }) (o : RecOptions)
    (ho : ∀ s : State, R s (s.withOptions o)) : Keeps R (beginInput o) :=
  have h := c.toFrameClosed
  h.bind (keeps_modify fun s => ho s) fun _ => h.bind (keeps_chipInit c) fun _ => h.bind h.get fun s => by
    cases s.family with
    | unknown => exact keeps_unsupported h
    | familyA => exact h.bind (keeps_inputSetupA h hp ha hs) fun _ => keeps_enterInput h hx _
    | familyB => exact h.bind (keeps_inputSetupB h hp ha) fun _ => keeps_enterInput h hx _

end

/-! ### Relations the transport's own fields may move in -/

/-- A relation that says nothing about the select lines, the bus, the sticky fault, the trace, the chip's answers and
the mark of a hang. -/
structure TransportClosed (R : State → State → Prop) : Prop where
  refl : ∀ s, R s s
  trans : ∀ s t u, R s t → R t u → R s u
  move : ∀ (s : State) c d b f tr w e,
    R s { s with cs := c, dcs := d, busOwned := b, fault := f, trace := tr, waiting := w, env := e }

section
variable {R : State → State → Prop} (h : TransportClosed R)
include h

theorem TransportClosed.bind {α β : Type} {x : Op α} {f : α → Op β} (hx : Keeps R x) (hf : ∀ a, Keeps R (f a)) :
    Keeps R (x >>= f) := Keeps.bind h.trans hx hf

theorem TransportClosed.pure {α : Type} (a : α) : Keeps R (Pure.pure a : Op α) := fun s => h.refl s

theorem TransportClosed.get : Keeps R (get : Op State) := fun s => h.refl s

theorem moves_emit (p : Prim) : Keeps R (emit p) := fun s => h.move s s.cs s.dcs s.busOwned s.fault _ s.waiting s.env

theorem moves_beginTxn : Keeps R beginTxn := by
  intro s
  cases hb : s.busOwned with
  | true =>
    rw [endState_error (beginTxn_owned s hb)]
    exact h.move s s.cs s.dcs s.busOwned _ s.trace s.waiting s.env
  | false =>
    rw [endState_ok (beginTxn_free s hb)]
    exact h.move s s.cs s.dcs true s.fault _ s.waiting s.env

theorem moves_endTxn : Keeps R endTxn := fun s => h.move s s.cs s.dcs false s.fault _ s.waiting s.env

theorem moves_pinWrite_cs (l : Bool) : Keeps R (pinWrite .cs l) :=
  fun s => h.move s l s.dcs s.busOwned s.fault _ s.waiting s.env

theorem moves_pinWrite_dcs (l : Bool) : Keeps R (pinWrite .dcs l) :=
  fun s => h.move s s.cs l s.busOwned s.fault _ s.waiting s.env

theorem moves_sampleDreq : Keeps R sampleDreq := fun s => h.move s s.cs s.dcs s.busOwned s.fault _ s.waiting _

theorem moves_waitReady : Keeps R waitReady := by
  intro s
  rcases hw : s.env.wait with ⟨n, _ | e⟩
  · rw [endState_error (waitReady_never s hw)]
    exact h.move s s.cs s.dcs s.busOwned s.fault _ true _
  · rw [endState_ok (waitReady_high s hw)]
    exact h.move s s.cs s.dcs s.busOwned s.fault _ s.waiting _

theorem moves_controlModeOn : Keeps R controlModeOn :=
  h.bind (moves_beginTxn h) fun _ => h.bind (moves_pinWrite_dcs h _) fun _ => moves_pinWrite_cs h _

theorem moves_controlModeOff : Keeps R controlModeOff :=
  h.bind (moves_pinWrite_cs h _) fun _ => h.bind (moves_pinWrite_dcs h _) fun _ => moves_endTxn h

theorem moves_dataModeOn : Keeps R dataModeOn :=
  h.bind (moves_beginTxn h) fun _ => h.bind (moves_pinWrite_cs h _) fun _ => moves_pinWrite_dcs h _

theorem moves_dataModeOff : Keeps R dataModeOff :=
  h.bind (moves_pinWrite_dcs h _) fun _ => h.bind (moves_pinWrite_cs h _) fun _ => moves_endTxn h

theorem moves_writeRegister (a : Byte) (v : Word) : Keeps R (writeRegister a v) := by
  intro s
  rcases writeRegister_cases a v s with ⟨_, e⟩ | ⟨_, n, e', _, e⟩ | ⟨_, n, _, e⟩
  · rw [endState_error e]; exact h.move s s.cs s.dcs s.busOwned _ s.trace s.waiting s.env
  · rw [endState_ok e]; exact h.move s true true false s.fault _ s.waiting _
  · rw [endState_error e]; exact h.move s false true true s.fault _ true _

theorem moves_readRegister (a : Byte) : Keeps R (readRegister a) := by
  intro s
  rcases readRegister_cases a s with ⟨_, e⟩ | ⟨_, n, e', _, e⟩ | ⟨_, n, _, e⟩
  · rw [endState_error e]; exact h.move s s.cs s.dcs s.busOwned _ s.trace s.waiting s.env
  · rw [endState_ok e]; exact h.move s true true false s.fault _ s.waiting _
  · rw [endState_error e]; exact h.move s false true true s.fault _ true _

/-- Such a relation is kept by whole frames, log events and faults. -/
theorem TransportClosed.frames : FrameClosed R where
  refl := h.refl
  trans := h.trans
  write := moves_writeRegister h
  read := moves_readRegister h
  log _ := moves_emit h _
  fault s info := h.move s s.cs s.dcs s.busOwned (some info.code) s.trace s.waiting s.env

theorem moves_sendChunk (hc : ∀ (s : State) p r, R s { s with sPos := p, sRem := r }) (ds : List Byte) (c : Nat) :
    Keeps R (sendChunk ds c) := h.bind (moves_emit h _) fun _ => keeps_modify fun _ => hc _ _ _

theorem moves_sendLoop (hc : ∀ (s : State) p r, R s { s with sPos := p, sRem := r }) (data : List Byte) (fuel : Nat) :
    Keeps R (sendLoop data fuel) := by
  induction fuel with
  | zero => exact h.pure _
  | succ n ih =>
    exact h.bind h.get fun _ => Keeps.ite (h.pure _)
      (h.bind (moves_waitReady h) fun _ => h.bind (moves_sendChunk h hc _ _) fun _ => ih)

theorem moves_sendBuffer (hc : ∀ (s : State) p r, R s { s with sPos := p, sRem := r }) (data : List Byte) (len : Nat) :
    Keeps R (sendBuffer data len) :=
  h.bind (keeps_modify fun _ => hc _ _ _) fun _ => h.bind (moves_dataModeOn h) fun _ =>
    h.bind (moves_sendLoop h hc _ _) fun _ => moves_dataModeOff h

theorem moves_fillLoop (hc : ∀ (s : State) r, R s { s with sRem := r }) (fuel : Nat) : Keeps R (fillLoop fuel) := by
  induction fuel with
  | zero => exact h.pure _
  | succ n ih =>
    exact h.bind h.get fun _ => Keeps.ite (h.pure _)
      (h.bind (moves_waitReady h) fun _ => h.bind (moves_emit h _) fun _ =>
        h.bind (keeps_modify fun _ => hc _ _) fun _ => ih)

theorem moves_sendFillers (hc : ∀ (s : State) r, R s { s with sRem := r }) (len : Nat) : Keeps R (sendFillers len) :=
  h.bind (keeps_modify fun _ => hc _ _) fun _ => h.bind (moves_dataModeOn h) fun _ =>
    h.bind (moves_fillLoop h hc _) fun _ => moves_dataModeOff h

theorem moves_connectivityCheck (n : Nat) : Keeps R (connectivityCheck n) := by
  induction n with
  | zero => exact h.pure _
  | succ n ih =>
    exact h.bind (moves_sampleDreq h) fun _ => Keeps.ite (h.pure _) (h.bind (moves_emit h _) fun _ => ih)

/-- With the reset line, the clock and the fields of chip initialisation free to move as well, it is kept by the parts
of chip initialisation. -/
theorem TransportClosed.chip (hc : ∀ (s : State) rst clk f1 f2 ver fam ef ok,
    R s { s with rst := rst, busClk := clk, stFail1 := f1, stFail2 := f2, version := ver, family := fam,
                 endFill := ef, initOk := ok }) : ChipClosed R where
  toFrameClosed := h.frames
  pins := by
    have hr : ∀ l, Keeps R (pinWrite .rst l) := fun l s =>
      h.trans _ _ _ (hc s l s.busClk s.stFail1 s.stFail2 s.version s.family s.endFill s.initOk)
        (h.move { s with rst := l } s.cs s.dcs s.busOwned s.fault _ s.waiting s.env)
    exact h.bind (moves_emit h _) fun _ => h.bind (moves_emit h _) fun _ => h.bind (moves_emit h _) fun _ =>
      h.bind (moves_pinWrite_cs h _) fun _ => h.bind (moves_pinWrite_dcs h _) fun _ => h.bind h.get fun _ =>
        Keeps.ite
          (h.bind (moves_emit h _) fun _ => h.bind (hr _) fun _ => h.bind (moves_emit h _) fun _ =>
            h.bind (hr _) fun _ => moves_emit h _)
          (h.pure _)
  check := moves_connectivityCheck h
  clock hz s :=
    h.trans _ _ _ (hc s s.rst hz s.stFail1 s.stFail2 s.version s.family s.endFill s.initOk)
      (h.move { s with busClk := hz } s.cs s.dcs s.busOwned s.fault _ s.waiting s.env)
  fields s f1 f2 ver fam ef ok _ := hc s s.rst s.busClk f1 f2 ver fam ef ok

theorem moves_drawMode (hm : ∀ (s : State) m, R s { s with mode := m }) : Keeps R drawMode := fun s =>
  h.trans _ _ _ (hm s (Config.modeDraw s.env.draws))
    (h.move { s with mode := Config.modeDraw s.env.draws } s.cs s.dcs s.busOwned s.fault s.trace s.waiting _)

end

/-- What running an operation leaves alone: what the operation leaves alone, up to the result record. -/
theorem runOp_keeps {R : State → State → Prop} {op : Op Result} (hk : Keeps R op) {s t : State} (e : runOp op s = t) :
    ∃ r, t = { endState op s with result := r } ∧ R s (endState op s) := by
  obtain ⟨r, h⟩ := runOp_eq_endState op s
  exact ⟨r, e ▸ h, hk s⟩

end Sys2Proof.Machine
end

