-- ==== Sys2Proof/Laws/Exec.lean ====
section
/-!
SUPPORT. What every instruction leaves alone, said once: a relation that the shared parts keep is kept by every
instruction that opens and closes its own brackets.
-/
namespace Sys2Proof.Machine

/-- The instructions that run inside a bracket somebody else opened, or open one and leave it open. -/
def bracketOp : Instr → Bool
  | .dataChunk _ => true
  | .controlModeOn => true
  | .controlModeOff => true
  | .dataModeOn => true
  | .dataModeOff => true
  | .waitReady => true
  | _ => false

/-- A relation that every part of every other instruction keeps. -/
structure ExecClosed (R : State → State → Prop) : Prop extends ChipClosed R where
  loader : ∀ (s : State) i l a c v, R s { s with pIdx := i, pLen := l, pAddr := a, pCnt := c, pVal := v }
  scratch : ∀ (s : State) d k v f, R s { s with bestDiff := d, bestK := k, bestDiv := v, bestFound := f }
  input : ∀ o, Keeps R (beginInput o)
  store : ∀ at_ w, Keeps R (storeWord at_ w)
  draw : Keeps R drawMode
  modes : ∀ (s : State) m, R s { s with mode := m }
  buffer : ∀ data len, Keeps R (sendBuffer data len)
  fillers : ∀ len, Keeps R (sendFillers len)
  bassA : ∀ (s : State) x, R s { s with bassA := (clamp x 0 100).toNat }
  bassF : ∀ (s : State) x, R s { s with bassF := (clamp x 0 15000).toNat }
  trebA : ∀ (s : State) x, R s { s with trebA := (clamp x 0 100).toNat }
  trebF : ∀ (s : State) x, R s { s with trebF := (clamp x 0 15000).toNat }
  volume : ∀ (s : State) x, R s { s with volume := (clamp x 0 100).toNat }
  balance : ∀ (s : State) x, R s { s with balance := clamp x (-100) 100 }

/-- The state after an instruction that answers a next state is the end state of its operation, with a result. -/
theorem next_runOp {op : Op Result} {s t : State}
    (h : (Host.Outcome.next (runOp op s) : Host.Outcome State Fault Refusal) = .next t) : runOp op s = t := by
  cases h; rfl

/-- Every instruction but the bracket operations keeps such a relation, up to the result record. -/
theorem exec_keeps {R : State → State → Prop} (c : ExecClosed R) (i : Instr) (hi : bracketOp i = false) {s t : State}
    (e : exec i s = .next t) : ∃ u r, t = { u with result := r } ∧ R s u := by
  have h := c.toFrameClosed
  have fin : ∀ op : Op Result, Keeps R op → (Host.Outcome.next (runOp op s) : Host.Outcome State Fault Refusal) = .next t →
      ∃ u r, t = { u with result := r } ∧ R s u := by
    intro op hk hn
    obtain ⟨r, ht, hr⟩ := runOp_keeps hk (next_runOp hn)
    exact ⟨_, r, ht, hr⟩
  have setter : ∀ (g : State → State), (∀ s, R s (g s)) → ∀ w : Op Unit, Keeps R w →
      Keeps R (do modify g; w; return okResult) := fun g hg w hw =>
    h.bind (keeps_modify hg) fun _ => h.bind hw fun _ => h.pure _
  cases i with
  | dataChunk => cases hi
  | controlModeOn => cases hi
  | controlModeOff => cases hi
  | dataModeOn => cases hi
  | dataModeOff => cases hi
  | waitReady => cases hi
  | wrFrame a v => exact fin _ (h.bind (h.write _ _) fun _ => h.pure _) e
  | rdFrame a => exact fin _ (h.bind (h.read _) fun _ => h.pure _) e
  | patchRle a n v =>
    exact fin _ (h.bind (keeps_takeAddress h c.loader _) fun _ => h.bind (keeps_takeCount c.loader _) fun _ =>
      h.bind (keeps_takeValue c.loader _) fun _ => h.bind (keeps_repeatWrite h _) fun _ => h.pure _) e
  | patchCopy a vs =>
    simp only [exec, execPatchCopy] at e
    split at e
    · exact fin _ (h.bind (keeps_takeAddress h c.loader _) fun _ => h.bind (keeps_takeCount c.loader _) fun _ =>
        h.bind (keeps_copyValues h c.loader _) fun _ => h.pure _) e
    · cases e
  | eqWord ta tf ba bf => exact fin _ (h.bind (keeps_writeNamed h _ _) fun _ => h.pure _) e
  | readRegister a => exact fin _ (h.bind (h.read _) fun _ => h.pure _) e
  | writeRegister a v => exact fin _ (h.bind (h.write _ _) fun _ => h.pure _) e
  | wramWrite addr v => exact fin _ (h.bind (keeps_wramWrite h _ _) fun _ => h.pure _) e
  | wramRead addr => exact fin _ (h.bind (keeps_wramRead h _) fun _ => h.pure _) e
  | sendBuffer data len =>
    simp only [exec, execSendBuffer] at e
    split at e
    · cases e
    · exact fin _ (h.bind (c.buffer _ _) fun _ => h.pure _) e
  | sendFillers len => exact fin _ (h.bind (c.fillers _) fun _ => h.pure _) e
  | writeAudio data len =>
    simp only [exec, execWriteAudio] at e
    split at e
    · cases e
    · exact fin _ (h.bind (keeps_writeAudio h c.buffer _ _) fun _ => h.pure _) e
  | sendMidiMessage n b0 b1 b2 => exact fin _ (keeps_sendMidiMessage h c.buffer _ _ _ _) e
  | loadUserCode words plen =>
    simp only [exec, execLoadUserCode] at e
    split at e
    · cases e
    · exact fin _ (h.bind (keeps_loadUserCode h c.loader _ _) fun _ => h.pure _) e
  | chipInit => exact fin _ (keeps_chipInit c.toChipClosed) e
  | beginOutput =>
    exact fin _ (keeps_beginOutput c.toChipClosed c.loader (fun s => c.modes s _) c.fillers) e
  | beginMidi => exact fin _ (keeps_beginMidi c.toChipClosed c.loader c.draw c.modes) e
  | beginInput o => exact fin _ (c.input o) e
  | endOp => exact fin _ (h.bind (keeps_endSession h c.modes) fun _ => h.pure _) e
  | available => exact fin _ (h.bind (keeps_available h) fun _ => h.pure _) e
  | readBytes buf n => exact fin _ (h.bind (keeps_readBytes h c.store _ _) fun _ => h.pure _) e
  | softReset => exact fin _ (h.bind (keeps_softReset h) fun _ => h.pure _) e
  | solveRate target =>
    refine fin _ (h.bind (keeps_solve c.scratch _) fun p => ?_) e
    cases p with
    | some p => exact h.pure _
    | none => exact h.pure _
  | setBassAmplitude x => exact fin _ (setter _ (fun s => c.bassA s x) _ (keeps_writeEq h)) e
  | setBassFrequencyLimit x => exact fin _ (setter _ (fun s => c.bassF s x) _ (keeps_writeEq h)) e
  | setTrebleAmplitude x => exact fin _ (setter _ (fun s => c.trebA s x) _ (keeps_writeEq h)) e
  | setTrebleFrequencyLimit x => exact fin _ (setter _ (fun s => c.trebF s x) _ (keeps_writeEq h)) e
  | setVolume x => exact fin _ (setter _ (fun s => c.volume s x) _ (keeps_writeVolume h)) e
  | setBalance x => exact fin _ (setter _ (fun s => c.balance s x) _ (keeps_writeVolume h)) e
  | getState sel => exact fin _ (h.bind h.get fun _ => h.pure _) e

end Sys2Proof.Machine
end

