-- ==== Sys2Proof/Laws/Runs.lean ====
section
/-!
SUPPORT. What each shared operation does when every wait ends at its first sample: one equation per operation.
-/
namespace Sys2Proof.Machine

/-- The bus is free and every wait ends at its first sample. -/
def State.ready (s : State) : Prop := s.busOwned = false ∧ s.readyAtOnce

theorem ready_wait {s : State} (h : s.readyAtOnce) : s.env.wait = (0, some s.env) := wait_at_once _ h.1 h.2

theorem ready_wrote {s : State} (h : s.ready) (a : Byte) (v : Word) : (s.wrote a v).ready :=
  ⟨rfl, by simpa [State.readyAtOnce, State.wrote] using h.2⟩

theorem ready_didRead {s : State} (h : s.ready) (a : Byte) : (s.didRead a).ready :=
  ⟨rfl, by simpa [State.readyAtOnce, State.didRead] using h.2⟩

theorem writeRegister_ready {s : State} (h : s.ready) (a : Byte) (v : Word) :
    writeRegister a v s = .ok () (s.wrote a v) :=
  writeRegister_done a v s h.1 (wait_at_once _ (by simpa using h.2.1) (by simpa using h.2.2))

theorem readRegister_ready {s : State} (h : s.ready) (a : Byte) :
    readRegister a s = .ok (s.answered a) (s.didRead a) :=
  readRegister_done a s h.1 (wait_at_once _ (by simpa using h.2.1) (by simpa using h.2.2))

theorem writeNamed_ready {s : State} (h : s.ready) (r : RegName) (v : Word) :
    writeNamed r v s = .ok () (s.wrote (s.regAddr r) v) := writeRegister_ready h _ v

theorem readNamed_ready {s : State} (h : s.ready) (r : RegName) :
    readNamed r s = .ok (s.answered (s.regAddr r)) (s.didRead (s.regAddr r)) := readRegister_ready h _

theorem wrote_regAddr (s : State) (a : Byte) (v : Word) (r : RegName) : (s.wrote a v).regAddr r = s.regAddr r := rfl

theorem didRead_regAddr (s : State) (a : Byte) (r : RegName) : (s.didRead a).regAddr r = s.regAddr r := rfl

theorem modeBitsSet_regAddr (s : State) (f : Word → Word) (r : RegName) :
    (s.modeBitsSet f).regAddr r = s.regAddr r := rfl

theorem wramWrite_ready {s : State} (h : s.ready) (addr v : Word) :
    wramWrite addr v s = .ok () ((s.wrote (s.regAddr .wramAddr) addr).wrote (s.regAddr .wram) v) :=
  (op_bind_ok (writeNamed_ready h _ _)).trans (writeNamed_ready (ready_wrote h _ _) _ _)

theorem wramRead_ready {s : State} (h : s.ready) (addr : Word) :
    wramRead addr s = .ok ((s.wrote (s.regAddr .wramAddr) addr).answered (s.regAddr .wram))
      ((s.wrote (s.regAddr .wramAddr) addr).didRead (s.regAddr .wram)) :=
  (op_bind_ok (writeNamed_ready h _ _)).trans (readNamed_ready (ready_wrote h _ _) _)

theorem ready_modeBitsSet {s : State} (h : s.ready) (f : Word → Word) : (s.modeBitsSet f).ready :=
  ready_wrote (ready_didRead h _) _ _

theorem setModeBits_ready {s : State} (h : s.ready) (f : Word → Word) :
    setModeBits f s = .ok () (s.modeBitsSet f) :=
  (op_bind_ok (readNamed_ready h _)).trans (writeNamed_ready (ready_didRead h _) _ _)

theorem softReset_ready {s : State} (h : s.ready) :
    softReset s = .ok () (s.modeBitsSet fun m => withBit m s.cfg.bitReset) :=
  (op_get_bind _ s).trans (setModeBits_ready h _)

theorem ready_didReads {s : State} (h : s.ready) (a : Byte) (n : Nat) : (s.didReads a n).ready := by
  induction n generalizing s with
  | zero => exact h
  | succ n ih => exact ih (ready_didRead h a)

theorem stripHeader_ready {s : State} (h : s.ready) (n : Nat) :
    stripHeader n s = .ok () (s.didReads (s.regAddr .hdat0) n) := by
  induction n generalizing s with
  | zero => rfl
  | succ n ih => exact (op_bind_ok (readNamed_ready h _)).trans (ih (ready_didRead h _))

theorem readLoop_ready {s : State} (h : s.ready) (n at_ : Nat) : readLoop n at_ s = .ok () (s.captured n at_) := by
  induction n generalizing s at_ with
  | zero => rfl
  | succ n ih =>
    refine (op_bind_ok (readNamed_ready h _)).trans ?_
    exact (op_modify_bind _ _ _).trans (ih (s := { s.didRead (s.regAddr .hdat0) with buf := _ })
      (by exact ready_didRead h _) (at_ + 2))

/-! ### Streaming -/

/-- The chunks of the `r` payload bytes from byte `p` on. -/
def chunksFrom (data : List Byte) (p r : Nat) : List (List Byte) :=
  (List.range ((r + 31) / 32)).map fun j => (data.drop (p + 32 * j)).take (min 32 (r - 32 * j))

theorem chunksFrom_zero (data : List Byte) (p : Nat) : chunksFrom data p 0 = [] := rfl

theorem chunksFrom_step (data : List Byte) (p r : Nat) (h : r ≠ 0) :
    chunksFrom data p r = (data.drop p).take (min r 32) :: chunksFrom data (p + min r 32) (r - min r 32) := by
  have hn : (r + 31) / 32 = (r - min r 32 + 31) / 32 + 1 := by omega
  unfold chunksFrom
  rw [hn, List.range_succ_eq_map, List.map_cons, List.map_map]
  congr 1
  · simp [Nat.min_comm]
  · by_cases hr : r ≤ 32
    · have : (r - min r 32 + 31) / 32 = 0 := by omega
      rw [this]; rfl
    · apply List.map_congr_left
      intro j _
      have h1 : p + 32 * (j + 1) = p + min r 32 + 32 * j := by omega
      have h2 : min 32 (r - 32 * (j + 1)) = min 32 (r - min r 32 - 32 * j) := by omega
      simp only [Function.comp_apply, Nat.succ_eq_add_one, h1, h2]

theorem chunksFrom_start (data : List Byte) (len : Nat) : chunksFrom data 0 len = chunksOf data len := by
  simp [chunksFrom, chunksOf]

/-- One high sample before each chunk. -/
def chunkEvents (cs dcs : Bool) (chunks : List (List Byte)) : List Event :=
  (chunks.map fun c => [Event.mk (.sampleDreq true) cs dcs, Event.mk (.writeBulk c) cs dcs]).flatten

theorem sendLoop_ready (data : List Byte) (fuel : Nat) (s : State) (h : s.readyAtOnce) (hf : s.sRem ≤ fuel) :
    sendLoop data fuel s = .ok () { s with
      sPos := s.sPos + s.sRem, sRem := 0,
      trace := s.trace ++ chunkEvents s.cs s.dcs (chunksFrom data s.sPos s.sRem) } := by
  induction fuel generalizing s with
  | zero =>
    have h0 : s.sRem = 0 := by omega
    obtain ⟨⟩ := s
    simp only at h0
    subst h0
    simp [sendLoop, chunksFrom_zero, chunkEvents]
  | succ n ih =>
    by_cases hz : s.sRem = 0
    · obtain ⟨⟩ := s
      simp only at hz
      subst hz
      simp [sendLoop, op_get_bind, chunksFrom_zero, chunkEvents]
    · simp only [sendLoop, op_get_bind, hz, if_false]
      rw [op_bind_ok (waitReady_high s (ready_wait h)), waited_eq]
      have e := ih { s with
        trace := s.trace ++ waitEvents s.cs s.dcs 0 ++
          [Event.mk (.writeBulk ((data.drop s.sPos).take (min s.sRem chunkMax))) s.cs s.dcs]
        sPos := s.sPos + min s.sRem chunkMax, sRem := s.sRem - min s.sRem chunkMax } h
        (by simp only [chunkMax]; omega)
      refine Eq.trans (Eq.trans rfl e) ?_
      rw [chunksFrom_step data s.sPos s.sRem hz]
      simp [chunkEvents, waitEvents, chunkMax]

theorem sendBuffer_ready {s : State} (h : s.ready) (data : List Byte) (len : Nat) :
    sendBuffer data len s = .ok () { s with
      busOwned := false, cs := true, dcs := true, sPos := len, sRem := 0,
      trace := s.trace ++ streamEvents s.cs s.dcs (chunksOf data len) } := by
  refine (op_modify_bind _ _ s).trans ?_
  rw [op_bind_ok (dataModeOn_free _ (by exact h.1))]
  rw [op_bind_ok (sendLoop_ready data len _ (by exact h.2) (Nat.le_refl len))]
  rw [dataModeOff_run]
  simp [chunksFrom_start, streamEvents, chunkEvents, dataOffEvents]

theorem fillLoop_ready (fuel : Nat) (s : State) (h : s.readyAtOnce) (hf : s.sRem ≤ fuel) (data : List Byte) (p : Nat)
    (hd : data = List.replicate (p + s.sRem) s.endFill) :
    fillLoop fuel s = .ok () { s with
      sRem := 0,
      trace := s.trace ++ chunkEvents s.cs s.dcs (chunksFrom data p s.sRem) } := by
  induction fuel generalizing s p with
  | zero =>
    have h0 : s.sRem = 0 := by omega
    obtain ⟨⟩ := s
    simp only at h0
    subst h0
    simp [fillLoop, chunksFrom_zero, chunkEvents]
  | succ n ih =>
    by_cases hz : s.sRem = 0
    · obtain ⟨⟩ := s
      simp only at hz
      subst hz
      simp [fillLoop, op_get_bind, chunksFrom_zero, chunkEvents]
    · simp only [fillLoop, op_get_bind, hz, if_false]
      rw [op_bind_ok (waitReady_high s (ready_wait h)), waited_eq]
      have e := ih { s with
        trace := s.trace ++ waitEvents s.cs s.dcs 0 ++
          [Event.mk (.writeBulk (List.replicate (min s.sRem chunkMax) s.endFill)) s.cs s.dcs]
        sRem := s.sRem - min s.sRem chunkMax } h
        (by simp only [chunkMax]; omega) (p + min s.sRem chunkMax)
        (by simp only; rw [hd]; congr 1; omega)
      refine Eq.trans (Eq.trans rfl e) ?_
      rw [chunksFrom_step data p s.sRem hz]
      have hc : (data.drop p).take (min s.sRem 32) = List.replicate (min s.sRem 32) s.endFill := by
        rw [hd, List.drop_replicate, List.take_replicate]; congr 1; omega
      simp [chunkEvents, waitEvents, hc, chunkMax]

theorem sendFillers_ready {s : State} (h : s.ready) (len : Nat) :
    sendFillers len s = .ok () { s with
      busOwned := false, cs := true, dcs := true, sRem := 0,
      trace := s.trace ++ streamEvents s.cs s.dcs (chunksOf (List.replicate len s.endFill) len) } := by
  refine (op_modify_bind _ _ s).trans ?_
  rw [op_bind_ok (dataModeOn_free _ (by exact h.1))]
  rw [op_bind_ok (fillLoop_ready len _ (by exact h.2) (Nat.le_refl len) (List.replicate len s.endFill) 0 (by simp))]
  rw [dataModeOff_run]
  simp [chunksFrom_start, streamEvents, chunkEvents, dataOffEvents]

theorem expandMidi_eq (data : List Byte) : expandMidi data = (data.map fun b => [0x00, b]).flatten := by
  induction data with
  | nil => rfl
  | cons b bs ih => simp [expandMidi, ih]

/-! ### The patch loader -/

theorem writeValue_ready {s : State} (h : s.ready) : writeValue s = .ok () (s.wrote (loByte s.pAddr) s.pVal) :=
  (op_get_bind _ s).trans (writeRegister_ready h _ _)

/-- The state after the writes of a list of register writes, each wait ending at once. -/
def State.wroteAll (s : State) : List (Byte × Word) → State
  | [] => s
  | (a, v) :: rest => (s.wrote a v).wroteAll rest

theorem ready_wroteAll {s : State} (h : s.ready) (ws : List (Byte × Word)) : (s.wroteAll ws).ready := by
  induction ws generalizing s with
  | nil => exact h
  | cons w ws ih => exact ih (ready_wrote h _ _)

theorem wroteAll_append (s : State) (ws vs : List (Byte × Word)) :
    s.wroteAll (ws ++ vs) = (s.wroteAll ws).wroteAll vs := by
  induction ws generalizing s with
  | nil => rfl
  | cons w ws ih => exact ih _

theorem writesEvents_append (cs dcs : Bool) (ws vs : List (Byte × Word)) :
    writesEvents cs dcs (ws ++ vs) =
      writesEvents cs dcs ws ++ writesEvents (cs || !ws.isEmpty) (dcs || !ws.isEmpty) vs := by
  induction ws generalizing cs dcs with
  | nil => simp [writesEvents]
  | cons w ws ih => simp [writesEvents, ih]

theorem wroteAll_trace (s : State) (ws : List (Byte × Word)) :
    (s.wroteAll ws).trace = s.trace ++ writesEvents s.cs s.dcs ws := by
  induction ws generalizing s with
  | nil => simp [State.wroteAll, writesEvents]
  | cons w ws ih =>
    rw [State.wroteAll, ih]
    simp [State.wrote, writesEvents]

/-- What a list of register writes changes: the lines, the bus, the trace and the chip's inputs. -/
theorem wroteAll_frame (s : State) (ws : List (Byte × Word)) :
    s.wroteAll ws = { s with cs := (s.wroteAll ws).cs, dcs := (s.wroteAll ws).dcs, busOwned := (s.wroteAll ws).busOwned,
                             trace := (s.wroteAll ws).trace, env := (s.wroteAll ws).env } := by
  induction ws generalizing s with
  | nil => rfl
  | cons w ws ih =>
    have := ih (s.wrote w.1 w.2)
    exact this

theorem repeatWrite_ready {s : State} (h : s.ready) (n : Nat) :
    repeatWrite n s = .ok () (s.wroteAll (List.replicate n (loByte s.pAddr, s.pVal))) := by
  induction n generalizing s with
  | zero => rfl
  | succ n ih => exact (op_bind_ok (writeValue_ready h)).trans (ih (ready_wrote h _ _))

/-- The writes of a copy record's values commute with the cursor and value bookkeeping around them. -/
theorem wroteAll_bookkeeping (s : State) (ws : List (Byte × Word)) (i l : Nat) (a c v : Word) :
    ({ s with pIdx := i, pLen := l, pAddr := a, pCnt := c, pVal := v } : State).wroteAll ws =
      { s.wroteAll ws with pIdx := i, pLen := l, pAddr := a, pCnt := c, pVal := v } := by
  induction ws generalizing s with
  | nil => rfl
  | cons w ws ih => exact ih (s.wrote w.1 w.2)

theorem copyValues_ready {s : State} (h : s.ready) (vs : List Word) :
    copyValues vs s = .ok () { s.wroteAll (vs.map fun v => (loByte s.pAddr, v)) with
      pIdx := s.pIdx + vs.length, pLen := s.pLen, pAddr := s.pAddr, pCnt := s.pCnt, pVal := vs.getLast?.getD s.pVal } := by
  induction vs generalizing s with
  | nil => rfl
  | cons v vs ih =>
    refine (op_modify_bind _ _ s).trans ?_
    rw [op_bind_ok (writeValue_ready (s := { s with pVal := v, pIdx := s.pIdx + 1 }) (by exact h))]
    rw [ih (ready_wrote (s := { s with pVal := v, pIdx := s.pIdx + 1 }) (by exact h) _ _)]
    have e := wroteAll_bookkeeping (s.wrote (loByte s.pAddr) v) (vs.map fun v => (loByte s.pAddr, v)) (s.pIdx + 1) s.pLen
      s.pAddr s.pCnt v
    have e1 : ({ s with pVal := v, pIdx := s.pIdx + 1 } : State).wrote (loByte s.pAddr) v =
      { s.wrote (loByte s.pAddr) v with pIdx := s.pIdx + 1, pLen := s.pLen, pAddr := s.pAddr, pCnt := s.pCnt, pVal := v } := rfl
    simp only [e1, e]
    have hl : (v :: vs).getLast?.getD s.pVal = vs.getLast?.getD v := by
      cases vs with
      | nil => rfl
      | cons w ws => simp [List.getLast?_eq_getLast_of_ne_nil]
    rw [hl]
    simp only [List.map_cons, State.wroteAll, List.length_cons]
    congr 2
    omega

theorem patchWord_in (words : List Word) (i : Nat) (s : State) (h : i < s.pLen) :
    patchWord words i s = .ok (words.getD i 0) s := by
  simp [patchWord, h]

theorem patchWord_out (words : List Word) (i : Nat) (s : State) (h : s.pLen ≤ i) :
    patchWord words i s = .error (.raised (.patchMalformed i .outOfBounds))
      (s.recordFault (.patchMalformed i .outOfBounds)) := by
  simp [patchWord, Nat.not_lt.mpr h, raise]

theorem takeAddress_narrow (a : Word) (s : State) (h : hiByte a = 0) :
    takeAddress a s = .ok () { s with pAddr := a } := by
  refine (op_modify_bind _ _ s).trans ((op_get_bind _ _).trans ?_)
  simp [h]

theorem takeAddress_wide (a : Word) (s : State) (h : hiByte a ≠ 0) :
    takeAddress a s = .error (.raised (.patchMalformed s.pIdx .addressTooWide))
      ({ s with pAddr := a }.recordFault (.patchMalformed s.pIdx .addressTooWide)) := by
  refine (op_modify_bind _ _ s).trans ((op_get_bind _ _).trans ?_)
  rw [if_neg h]
  rfl

/-- The loop of a copy record, when the table holds its words: its values are written as `copyValues` writes them. -/
theorem loadCopy_eq (words : List Word) (n : Nat) {s : State} (h : s.ready) (hl : s.pIdx + n ≤ s.pLen) (vs : List Word)
    (hv : vs.length = n) (hw : ∀ j, j < n → words.getD (s.pIdx + j) 0 = vs.getD j 0) :
    loadCopy words n s = copyValues vs s := by
  induction n generalizing s vs with
  | zero =>
    have : vs = [] := List.length_eq_zero_iff.mp hv
    subst this; rfl
  | succ n ih =>
    cases vs with
    | nil => cases hv
    | cons v vs =>
      have h0 := hw 0 (Nat.succ_pos n)
      simp only [Nat.add_zero, List.getD_cons_zero] at h0
      simp only [loadCopy, op_get_bind]
      rw [op_bind_ok (patchWord_in words s.pIdx s (by omega)), h0]
      refine Eq.trans ?_ (Eq.trans (op_modify_bind _ _ s).symm rfl)
      refine (op_modify_bind _ _ s).trans ?_
      have hr : ({ s with pVal := v, pIdx := s.pIdx + 1 } : State).ready := h
      rw [op_bind_ok (writeValue_ready hr), op_bind_ok (writeValue_ready hr)]
      refine ih (ready_wrote hr _ _) (by simp [State.wrote]; omega) vs (by simpa using hv) fun j hj => ?_
      have := hw (j + 1) (by omega)
      rw [List.getD_cons_succ] at this
      simp only [State.wrote, afterWrite_pIdx]
      rw [← this]
      congr 1
      omega

end Sys2Proof.Machine
end

