-- ==== Sys2Proof/Laws/Ends.lean ====
section
/-!
SUPPORT. Which operations complete when every wait ends, whatever low samples come in between: one lemma per shared
operation.
-/
namespace Sys2Proof.Machine

/-- The bus is free and every wait ends. -/
def State.calm (s : State) : Prop := s.busOwned = false ∧ s.waitsEnd

/-- What a completed operation keeps: the bus free, the waits ending, the mark of a hang, idle lines idle,
the sticky fault. -/
structure CalmAfter (s t : State) : Prop where
  calm : t.calm
  waiting : t.waiting = s.waiting
  lines : s.cs = true ∧ s.dcs = true → t.cs = true ∧ t.dcs = true
  fault : t.fault = s.fault

theorem CalmAfter.refl {s : State} (h : s.calm) : CalmAfter s s := ⟨h, rfl, id, rfl⟩

theorem CalmAfter.trans {s t u : State} (h1 : CalmAfter s t) (h2 : CalmAfter t u) : CalmAfter s u :=
  ⟨h2.calm, h2.waiting.trans h1.waiting, h2.lines ∘ h1.lines, h2.fault.trans h1.fault⟩

/-- What a raised malformed table leaves: the bus free, the waits ending, the mark of a hang, the fault recorded. -/
structure MalformedAfter (s t : State) : Prop where
  calm : t.calm
  waiting : t.waiting = s.waiting
  fault : t.fault = some .patchMalformed

theorem MalformedAfter.after {s t u : State} (h1 : CalmAfter s t) (h2 : MalformedAfter t u) : MalformedAfter s u :=
  ⟨h2.calm, h2.waiting.trans h1.waiting, h2.fault⟩

/-- An operation completes whenever the bus is free and every wait ends. -/
def Completes {α : Type} (op : Op α) : Prop := ∀ s, s.calm → ∃ a t, op s = .ok a t ∧ CalmAfter s t

/-- An operation completes, or raises a malformed table, whenever the bus is free and every wait ends. -/
def Settles {α : Type} (op : Op α) : Prop := ∀ s, s.calm →
  (∃ a t, op s = .ok a t ∧ CalmAfter s t) ∨
  (∃ i r t, op s = .error (.raised (.patchMalformed i r)) t ∧ MalformedAfter s t)

/-- A completed operation also keeps what it keeps however it ends. -/
theorem Completes.run {R : State → State → Prop} {α : Type} {op : Op α} (h : Completes op) (hk : Keeps R op) {s : State}
    (hs : s.calm) : ∃ a t, op s = .ok a t ∧ CalmAfter s t ∧ R s t := by
  obtain ⟨a, t, e, ht⟩ := h s hs
  have := hk s
  rw [endState_ok e] at this
  exact ⟨a, t, e, ht, this⟩

theorem Settles.run {R : State → State → Prop} {α : Type} {op : Op α} (h : Settles op) (hk : Keeps R op) {s : State}
    (hs : s.calm) : (∃ a t, op s = .ok a t ∧ CalmAfter s t ∧ R s t) ∨
      (∃ i r t, op s = .error (.raised (.patchMalformed i r)) t ∧ MalformedAfter s t ∧ R s t) := by
  have := hk s
  rcases h s hs with ⟨a, t, e, ht⟩ | ⟨i, r, t, e, ht⟩
  · rw [endState_ok e] at this; exact .inl ⟨a, t, e, ht, this⟩
  · rw [endState_error e] at this; exact .inr ⟨i, r, t, e, ht, this⟩

theorem Completes.settles {α : Type} {op : Op α} (h : Completes op) : Settles op := fun s hs => .inl (h s hs)

theorem Completes.bind {α β : Type} {x : Op α} {f : α → Op β} (hx : Completes x) (hf : ∀ a, Completes (f a)) :
    Completes (x >>= f) := by
  intro s hs
  obtain ⟨a, t, e, ht⟩ := hx s hs
  obtain ⟨b, u, e', hu⟩ := hf a t ht.calm
  exact ⟨b, u, (op_bind_ok e).trans e', ht.trans hu⟩

theorem Settles.bind {α β : Type} {x : Op α} {f : α → Op β} (hx : Settles x) (hf : ∀ a, Settles (f a)) :
    Settles (x >>= f) := by
  intro s hs
  rcases hx s hs with ⟨a, t, e, ht⟩ | ⟨i, r, t, e, ht⟩
  · rcases hf a t ht.calm with ⟨b, u, e', hu⟩ | ⟨i, r, u, e', hu⟩
    · exact .inl ⟨b, u, (op_bind_ok e).trans e', ht.trans hu⟩
    · exact .inr ⟨i, r, u, (op_bind_ok e).trans e', .after ht hu⟩
  · exact .inr ⟨i, r, t, op_bind_error e, ht⟩

theorem Completes.pure {α : Type} (a : α) : Completes (Pure.pure a : Op α) := fun s hs => ⟨a, s, rfl, .refl hs⟩

theorem Completes.get : Completes (get : Op State) := fun s hs => ⟨s, s, rfl, .refl hs⟩

theorem Completes.ite {α : Type} {c : Prop} [Decidable c] {x y : Op α} (hx : Completes x) (hy : Completes y) :
    Completes (if c then x else y) := by split <;> assumption

theorem Settles.ite {α : Type} {c : Prop} [Decidable c] {x y : Op α} (hx : Settles x) (hy : Settles y) :
    Settles (if c then x else y) := by split <;> assumption

theorem completes_modify {g : State → State} (hg : ∀ s, s.calm → CalmAfter s (g s)) : Completes (modify g : Op Unit) :=
  fun s hs => ⟨(), g s, rfl, hg s hs⟩

theorem completes_emit (p : Prim) : Completes (emit p) := fun s hs => ⟨(), s.emit p, rfl, hs, rfl, id, rfl⟩

theorem completes_writeRegister (a : Byte) (v : Word) : Completes (writeRegister a v) := by
  intro s hs
  obtain ⟨n, e, hw, h1, h2, h3, h4⟩ := wait_of_high (s.env.take s.cfg.regMap a v) ((by simp : _ = s.env.readyAfter).trans hs.2)
  exact ⟨(), _, writeRegister_done a v s hs.1 hw, ⟨rfl, h1⟩, rfl, fun _ => ⟨rfl, rfl⟩, rfl⟩

theorem completes_readRegister (a : Byte) : Completes (readRegister a) := by
  intro s hs
  obtain ⟨n, e, hw, h1, h2, h3, h4⟩ := wait_of_high (s.env.answer s.cfg.regMap a).2.2 ((by simp : _ = s.env.readyAfter).trans hs.2)
  exact ⟨_, _, readRegister_done a s hs.1 hw, ⟨rfl, h1⟩, rfl, fun _ => ⟨rfl, rfl⟩, rfl⟩

theorem completes_writeNamed (r : RegName) (v : Word) : Completes (writeNamed r v) :=
  Completes.get.bind fun _ => completes_writeRegister _ _

theorem completes_readNamed (r : RegName) : Completes (readNamed r) :=
  Completes.get.bind fun _ => completes_readRegister _

theorem completes_wramWrite (addr v : Word) : Completes (wramWrite addr v) :=
  (completes_writeNamed _ _).bind fun _ => completes_writeNamed _ _

theorem completes_wramRead (addr : Word) : Completes (wramRead addr) :=
  (completes_writeNamed _ _).bind fun _ => completes_readNamed _

theorem completes_setModeBits (f : Word → Word) : Completes (setModeBits f) :=
  (completes_readNamed _).bind fun _ => completes_writeNamed _ _

theorem completes_softReset : Completes softReset := Completes.get.bind fun _ => completes_setModeBits _

theorem completes_endSession : Completes endSession :=
  Completes.get.bind fun _ => (completes_setModeBits _).bind fun _ => completes_softReset.bind fun _ =>
    Completes.ite (completes_modify fun _ hs => ⟨hs, rfl, id, rfl⟩) (Completes.pure _)

theorem completes_stripHeader (n : Nat) : Completes (stripHeader n) := by
  induction n with
  | zero => exact Completes.pure _
  | succ n ih => exact (completes_readNamed _).bind fun _ => ih

theorem completes_skipHeader (keep : Bool) : Completes (skipHeader keep) :=
  Completes.ite (Completes.pure _) (completes_stripHeader _)

theorem completes_writeEq : Completes writeEq := Completes.get.bind fun _ => completes_writeNamed _ _

theorem completes_writeVolume : Completes writeVolume := Completes.get.bind fun _ => completes_writeNamed _ _

/-! ### Streaming -/

/-- In an open data-mode bracket in which every wait ends, the loop completes and the bracket stays open. -/
def State.streaming (s : State) : Prop := s.cs = true ∧ s.dcs = false ∧ s.waitsEnd

theorem waitReady_ends {s : State} (h : s.waitsEnd) :
    ∃ n e, waitReady s = .ok () (s.waited n e) ∧ e.readyAfter = .high := by
  obtain ⟨n, e, hw, h1, _⟩ := wait_of_high s.env h
  exact ⟨n, e, waitReady_high s hw, h1⟩

theorem sendLoop_ends (data : List Byte) (fuel : Nat) (s : State) (h : s.waitsEnd) :
    ∃ t, sendLoop data fuel s = .ok () t ∧ t.waitsEnd ∧ t.waiting = s.waiting ∧ t.fault = s.fault := by
  induction fuel generalizing s with
  | zero => exact ⟨s, rfl, h, rfl, rfl⟩
  | succ n ih =>
    by_cases hz : s.sRem = 0
    · exact ⟨s, by simp [sendLoop, op_get_bind, hz], h, rfl, rfl⟩
    · obtain ⟨k, e, hw, he⟩ := waitReady_ends h
      simp only [sendLoop, op_get_bind, hz, if_false]
      rw [op_bind_ok hw]
      exact ih { (s.waited k e).emit (.writeBulk ((data.drop s.sPos).take (min s.sRem chunkMax))) with
        sPos := s.sPos + min s.sRem chunkMax, sRem := s.sRem - min s.sRem chunkMax } he

theorem fillLoop_ends (fuel : Nat) (s : State) (h : s.waitsEnd) :
    ∃ t, fillLoop fuel s = .ok () t ∧ t.waitsEnd ∧ t.waiting = s.waiting ∧ t.fault = s.fault := by
  induction fuel generalizing s with
  | zero => exact ⟨s, rfl, h, rfl, rfl⟩
  | succ n ih =>
    by_cases hz : s.sRem = 0
    · exact ⟨s, by simp [fillLoop, op_get_bind, hz], h, rfl, rfl⟩
    · obtain ⟨k, e, hw, he⟩ := waitReady_ends h
      simp only [fillLoop, op_get_bind, hz, if_false]
      rw [op_bind_ok hw]
      exact ih { (s.waited k e).emit (.writeBulk (List.replicate (min s.sRem chunkMax) s.endFill)) with
        sRem := s.sRem - min s.sRem chunkMax } he

theorem completes_sendBuffer (data : List Byte) (len : Nat) : Completes (sendBuffer data len) := by
  intro s hs
  have e1 := dataModeOn_free { s with sPos := 0, sRem := len } hs.1
  obtain ⟨t, e2, h1, h2, h3⟩ := sendLoop_ends data len { s with
    sPos := 0, sRem := len, busOwned := true, cs := true, dcs := false
    trace := s.trace ++ dataOnEvents s.cs s.dcs } hs.2
  refine ⟨(), _, ((op_modify_bind _ _ s).trans (op_bind_ok e1)).trans ((op_bind_ok e2).trans (dataModeOff_run t)), ?_⟩
  exact ⟨⟨rfl, h1⟩, h2, fun _ => ⟨rfl, rfl⟩, h3⟩

theorem completes_sendFillers (len : Nat) : Completes (sendFillers len) := by
  intro s hs
  have e1 := dataModeOn_free { s with sRem := len } hs.1
  obtain ⟨t, e2, h1, h2, h3⟩ := fillLoop_ends len { s with
    sRem := len, busOwned := true, cs := true, dcs := false, trace := s.trace ++ dataOnEvents s.cs s.dcs } hs.2
  refine ⟨(), _, ((op_modify_bind _ _ s).trans (op_bind_ok e1)).trans ((op_bind_ok e2).trans (dataModeOff_run t)), ?_⟩
  exact ⟨⟨rfl, h1⟩, h2, fun _ => ⟨rfl, rfl⟩, h3⟩

/-! ### The patch loader -/

theorem settles_patchWord (words : List Word) (i : Nat) : Settles (patchWord words i) := by
  intro s hs
  by_cases hi : i < s.pLen
  · exact .inl ⟨words.getD i 0, s, by simp [patchWord, hi], .refl hs⟩
  · exact .inr ⟨i, .outOfBounds, s.recordFault (.patchMalformed i .outOfBounds), by simp [patchWord, hi, raise],
      hs, rfl, rfl⟩

theorem settles_takeAddress (a : Word) : Settles (takeAddress a) := by
  intro s hs
  by_cases ha : hiByte a = 0
  · exact .inl ⟨(), { s with pAddr := a }, takeAddress_narrow a s ha, hs, rfl, id, rfl⟩
  · exact .inr ⟨s.pIdx, .addressTooWide, _, takeAddress_wide a s ha, hs, rfl, rfl⟩

theorem completes_takeCount (c : Word) : Completes (takeCount c) := completes_modify fun _ hs => ⟨hs, rfl, id, rfl⟩

theorem completes_takeValue (v : Word) : Completes (takeValue v) := completes_modify fun _ hs => ⟨hs, rfl, id, rfl⟩

theorem completes_writeValue : Completes writeValue := Completes.get.bind fun _ => completes_writeRegister _ _

theorem completes_repeatWrite (n : Nat) : Completes (repeatWrite n) := by
  induction n with
  | zero => exact Completes.pure _
  | succ n ih => exact completes_writeValue.bind fun _ => ih

theorem settles_loadRle (words : List Word) (n : Nat) : Settles (loadRle words n) :=
  Completes.get.settles.bind fun _ => (settles_patchWord _ _).bind fun _ => (completes_takeValue _).settles.bind fun _ =>
    (completes_repeatWrite n).settles

theorem settles_loadCopy (words : List Word) (n : Nat) : Settles (loadCopy words n) := by
  induction n with
  | zero => exact (Completes.pure _).settles
  | succ n ih =>
    exact Completes.get.settles.bind fun _ => (settles_patchWord _ _).bind fun _ =>
      (completes_takeValue _).settles.bind fun _ => completes_writeValue.settles.bind fun _ => ih

theorem settles_loadRecord (words : List Word) : Settles (loadRecord words) :=
  Completes.get.settles.bind fun _ => (settles_patchWord _ _).bind fun _ => (settles_takeAddress _).bind fun _ =>
    (settles_patchWord _ _).bind fun _ => (completes_takeCount _).settles.bind fun _ =>
      Settles.ite (settles_loadRle _ _) (settles_loadCopy _ _)

theorem settles_loadLoop (words : List Word) (fuel : Nat) : Settles (loadLoop words fuel) := by
  induction fuel with
  | zero => exact (Completes.pure _).settles
  | succ n ih =>
    exact Completes.get.settles.bind fun _ => Settles.ite ((settles_loadRecord _).bind fun _ => ih)
      (Completes.pure _).settles

theorem settles_loadUserCode (words : List Word) (plen : Nat) : Settles (loadUserCode words plen) := by
  refine Settles.bind (Completes.settles (completes_modify fun _ hs => ?_)) fun _ => settles_loadLoop _ _
  exact ⟨hs, rfl, id, rfl⟩

theorem settles_loadTable (words : List Word) : Settles (loadTable words) := settles_loadUserCode _ _

/-! ### Chip initialisation -/

theorem completes_resetPins : Completes resetPins := by
  have hp : ∀ p l, l = true ∨ p = .rst → Completes (pinWrite p l) := by
    intro p l hl s hs
    refine ⟨(), _, rfl, ?_⟩
    rcases hl with rfl | rfl
    · cases p
      · exact ⟨hs, rfl, fun h => ⟨rfl, h.2⟩, rfl⟩
      · exact ⟨hs, rfl, fun h => ⟨h.1, rfl⟩, rfl⟩
      · exact ⟨hs, rfl, id, rfl⟩
      · exact ⟨hs, rfl, id, rfl⟩
    · exact ⟨hs, rfl, id, rfl⟩
  exact (completes_emit _).bind fun _ => (completes_emit _).bind fun _ => (completes_emit _).bind fun _ =>
    (hp _ _ (.inl rfl)).bind fun _ => (hp _ _ (.inl rfl)).bind fun _ => Completes.get.bind fun _ => Completes.ite
      ((completes_emit _).bind fun _ => (hp _ _ (.inr rfl)).bind fun _ => (completes_emit _).bind fun _ =>
        (hp _ _ (.inr rfl)).bind fun _ => completes_emit _)
      (Completes.pure _)

theorem sample_high (e : Env) (h : e.readyAfter = .high) : e.sample.2.readyAfter = .high := by
  unfold Env.sample
  split
  · exact h
  · rw [h]; exact h

theorem completes_sampleDreq : Completes sampleDreq := fun _ hs =>
  ⟨_, _, rfl, ⟨hs.1, sample_high _ hs.2⟩, rfl, id, rfl⟩

theorem completes_connectivityCheck (n : Nat) : Completes (connectivityCheck n) := by
  induction n with
  | zero => exact Completes.pure _
  | succ n ih =>
    exact completes_sampleDreq.bind fun _ => Completes.ite (Completes.pure _) ((completes_emit _).bind fun _ => ih)

theorem completes_selfTestLoop (stride : ℕ+) (fuel i fails : Nat) : Completes (selfTestLoop stride fuel i fails) := by
  induction fuel generalizing i fails with
  | zero => exact Completes.pure _
  | succ n ih =>
    exact Completes.get.bind fun _ => Completes.ite
      ((completes_writeNamed _ _).bind fun _ => (completes_readNamed _).bind fun _ => ih _ _) (Completes.pure _)

theorem completes_selfTest (phase : Nat) (stride : ℕ+) : Completes (selfTest phase stride) :=
  Completes.get.bind fun _ => (completes_selfTestLoop _ _ _ _).bind fun _ =>
    Completes.ite ((completes_emit _).bind fun _ => Completes.pure _) (Completes.pure _)

theorem completes_setClock (hz : Nat) : Completes (setClock hz) := fun _ hs => ⟨(), _, rfl, hs, rfl, id, rfl⟩

theorem completes_probeBus : Completes probeBus := by
  refine Completes.get.bind fun _ => (completes_setClock _).bind fun _ => (completes_connectivityCheck _).bind fun _ =>
    (completes_selfTest _ _).bind fun _ => (completes_modify fun _ hs => ?_).bind fun _ =>
      (completes_setClock _).bind fun _ => (completes_selfTest _ _).bind fun _ =>
        (completes_modify fun _ hs => ?_).bind fun _ => Completes.pure _
  all_goals exact ⟨hs, rfl, id, rfl⟩

theorem completes_programChip : Completes programChip := by
  refine Completes.get.bind fun _ => (completes_writeNamed _ _).bind fun _ => (completes_writeNamed _ _).bind fun _ =>
    (completes_readNamed _).bind fun _ => (completes_modify fun _ hs => ?_).bind fun _ =>
      (completes_wramRead _).bind fun _ => (completes_modify fun _ hs => ?_).bind fun _ => Completes.pure _
  all_goals exact ⟨hs, rfl, id, rfl⟩

theorem completes_initVerdict (c : Bool) : Completes (initVerdict c) := by
  refine (completes_modify fun _ hs => ?_).bind fun _ => Completes.get.bind fun _ => Completes.ite
    (Completes.ite (Completes.pure _) (Completes.pure _)) ((completes_emit _).bind fun _ => Completes.pure _)
  exact ⟨hs, rfl, id, rfl⟩

theorem completes_chipInit : Completes chipInit :=
  completes_resetPins.bind fun _ => completes_probeBus.bind fun _ => completes_programChip.bind fun _ =>
    completes_initVerdict _

end Sys2Proof.Machine
end

