-- ==== Sys2Proof/Laws/Init.lean ====
section
/-!
SUPPORT. Chip initialisation when every wait ends: what each of its steps leaves, and that it completes.
-/
namespace Sys2Proof.Machine

/-- Only the transport's own fields move: the select lines, the bus, the sticky fault, the trace, the chip's answers, the
mark of a hang. -/
def TransportOnly (s t : State) : Prop :=
  t = { s with cs := t.cs, dcs := t.dcs, busOwned := t.busOwned, fault := t.fault, trace := t.trace, env := t.env,
               waiting := t.waiting }

theorem transportOnly_closed : TransportClosed TransportOnly :=
  ⟨fun _ => rfl, fun _ _ _ h1 h2 => h2.trans (by rw [h1]), fun _ _ _ _ _ _ _ _ => rfl⟩

/-- A phase counts at most `ST_MAXFAIL` mismatches (44 R98). -/
theorem selfTestLoop_le (stride : ℕ+) (fuel i fails : Nat) (s t : State) (n : Nat)
    (e : selfTestLoop stride fuel i fails s = .ok n t) (hf : fails ≤ s.cfg.stMaxFail) : n ≤ s.cfg.stMaxFail := by
  induction fuel generalizing i fails s with
  | zero => cases e; exact hf
  | succ k ih =>
    simp only [selfTestLoop, op_get_bind] at e
    split at e
    · next hc =>
      obtain ⟨a, u, e1, e⟩ := op_bind_ok_inv e
      obtain ⟨r, w, e2, e⟩ := op_bind_ok_inv e
      have k1 := keeps_writeNamed transportOnly_closed.frames s.cfg.stReg (BitVec.ofNat 16 i) s
      rw [endState_ok e1] at k1
      have k2 := keeps_readNamed transportOnly_closed.frames s.cfg.stReg u
      rw [endState_ok e2] at k2
      have hcfg : w.cfg = s.cfg := by rw [k2, k1]
      have := ih _ _ w e (by rw [hcfg]; split <;> omega)
      rwa [hcfg] at this
    · cases e; exact hf

/-- One self-test phase when every wait ends (44 R98). -/
theorem selfTest_done (phase : Nat) (stride : ℕ+) {s : State} (hs : s.calm) :
    ∃ n t, selfTest phase stride s = .ok n t ∧ CalmAfter s t ∧ TransportOnly s t ∧ n ≤ s.cfg.stMaxFail := by
  obtain ⟨n, t, e, h1, h2⟩ :=
    (completes_selfTest phase stride).run (keeps_selfTest transportOnly_closed.frames phase stride) hs
  refine ⟨n, t, e, h1, h2, ?_⟩
  unfold selfTest at e
  simp only [op_get_bind] at e
  obtain ⟨k, u, e1, e⟩ := op_bind_ok_inv e
  have := selfTestLoop_le _ _ _ _ _ _ _ e1 (Nat.zero_le _)
  split at e
  · cases e; exact this
  · cases e; exact this

/-- Steps 2 and 3 of `chipInit` when every wait ends (44 R96). -/
theorem probeBus_done {s : State} (hs : s.calm) :
    ∃ c t, probeBus s = .ok c t ∧ CalmAfter s t ∧ t.busClk = s.cfg.clkFast ∧
      t.stFail1 ≤ s.cfg.stMaxFail ∧ t.stFail2 ≤ s.cfg.stMaxFail ∧
      TransportOnly { s with busClk := t.busClk, stFail1 := t.stFail1, stFail2 := t.stFail2 } t := by
  let s1 : State := ({ s with busClk := s.cfg.clkSlow }.emit (.setClock s.cfg.clkSlow))
  have hs1 : s1.calm := hs
  obtain ⟨c, s2, e2, c2, r2⟩ :=
    (completes_connectivityCheck s.cfg.startupPolls).run (moves_connectivityCheck transportOnly_closed _) hs1
  obtain ⟨f1, s3, e3, c3, r3, l3⟩ := selfTest_done 1 s.cfg.stStep1 c2.calm
  let s4 : State := { s3 with stFail1 := f1 }
  let s5 : State := ({ s4 with busClk := s.cfg.clkFast }.emit (.setClock s.cfg.clkFast))
  have hs5 : s5.calm := c3.calm
  obtain ⟨f2, s6, e6, c6, r6, l6⟩ := selfTest_done 2 s.cfg.stStep2 hs5
  have hcfg2 : s2.cfg = s.cfg := by rw [r2]; rfl
  have hcfg5 : s5.cfg = s.cfg := by show s3.cfg = _; rw [r3]; exact hcfg2
  refine ⟨c, { s6 with stFail2 := f2 }, ?_, ?_, ?_, ?_, ?_, ?_⟩
  · refine (op_get_bind _ s).trans ?_
    refine (op_bind_ok (show setClock s.cfg.clkSlow s = .ok () s1 from rfl)).trans ?_
    refine (op_bind_ok e2).trans ((op_bind_ok e3).trans ?_)
    refine (op_modify_bind _ _ s3).trans ?_
    refine (op_bind_ok (show setClock s.cfg.clkFast s4 = .ok () s5 from rfl)).trans ?_
    exact (op_bind_ok e6)
  · have := (c2.trans c3).trans (show CalmAfter s3 s6 from ⟨c6.calm, c6.waiting, c6.lines, c6.fault⟩)
    exact ⟨this.calm, this.waiting, this.lines, this.fault⟩
  · show s6.busClk = _; rw [r6]; rfl
  · show s6.stFail1 ≤ _; rw [r6]; show f1 ≤ _; rwa [hcfg2] at l3
  · show f2 ≤ _; rwa [hcfg5] at l6
  · show _ = _
    rw [r6]
    simp only [s5, s4, State.emit]
    rw [r3, r2]
    rfl

/-- Steps 4 and 5 of `chipInit` when every wait ends (44 R96, R99, R100). -/
theorem programChip_done {s : State} (hs : s.calm) :
    ∃ st t, programChip s = .ok st t ∧ CalmAfter s t ∧ t.family = familyOf s.cfg t.version ∧
      TransportOnly { s with version := t.version, family := t.family, endFill := t.endFill } t := by
  obtain ⟨_, s1, e1, c1, r1⟩ :=
    (completes_writeNamed .clockf s.cfg.clockfInit).run (keeps_writeNamed transportOnly_closed.frames _ _) hs
  obtain ⟨_, s2, e2, c2, r2⟩ :=
    (completes_writeNamed .audata s.cfg.audataInit).run (keeps_writeNamed transportOnly_closed.frames _ _) c1.calm
  obtain ⟨st, s3, e3, c3, r3⟩ :=
    (completes_readNamed .status).run (keeps_readNamed transportOnly_closed.frames _) c2.calm
  let s4 : State := { s3 with version := versionField s3.cfg st, family := familyOf s3.cfg (versionField s3.cfg st) }
  have hs4 : s4.calm := c3.calm
  obtain ⟨w, s5, e5, c5, r5⟩ :=
    (completes_wramRead s.cfg.endFillAddr).run (keeps_wramRead transportOnly_closed.frames _) hs4
  have hcfg : s3.cfg = s.cfg := by rw [r3, r2, r1]
  refine ⟨st, { s5 with endFill := loByte w }, ?_, ?_, ?_, ?_⟩
  · refine (op_get_bind _ s).trans ((op_bind_ok e1).trans ((op_bind_ok e2).trans ((op_bind_ok e3).trans ?_)))
    refine (op_modify_bind _ _ s3).trans ?_
    exact (op_bind_ok e5)
  · have := ((c1.trans c2).trans c3).trans (show CalmAfter s3 s5 from ⟨c5.calm, c5.waiting, c5.lines, c5.fault⟩)
    exact ⟨this.calm, this.waiting, this.lines, this.fault⟩
  · show s5.family = familyOf _ s5.version
    rw [r5]; simp only [s4]; rw [hcfg]
  · show _ = _
    rw [r5]
    simp only [s4]
    rw [r3, r2, r1]

theorem emit_leaves (p : Prim) (s : State) : ∃ t, emit p s = .ok () t ∧ t = { s with trace := t.trace } := ⟨_, rfl, rfl⟩

theorem pinWrite_cs_leaves (l : Bool) (s : State) :
    ∃ t, pinWrite .cs l s = .ok () t ∧ t = { s with cs := l, trace := t.trace } := ⟨_, rfl, rfl⟩

theorem pinWrite_dcs_leaves (l : Bool) (s : State) :
    ∃ t, pinWrite .dcs l s = .ok () t ∧ t = { s with dcs := l, trace := t.trace } := ⟨_, rfl, rfl⟩

theorem pinWrite_rst_leaves (l : Bool) (s : State) :
    ∃ t, pinWrite .rst l s = .ok () t ∧ t = { s with rst := l, trace := t.trace } := ⟨_, rfl, rfl⟩

/-- Step 1 of `chipInit` (44 R96). -/
theorem resetPins_done (s : State) (hs : s.calm) :
    ∃ t, resetPins s = .ok () t ∧ t.calm ∧ t.waiting = s.waiting ∧ t.cs = true ∧ t.dcs = true ∧ t.fault = s.fault ∧
      t.rst = (if s.cfg.hasRst then !s.cfg.rstActive else s.rst) ∧
      t = { s with cs := true, dcs := true, rst := t.rst, trace := t.trace } := by
  obtain ⟨s1, e1, h1⟩ := emit_leaves (.pinMode .dreq .input) s
  obtain ⟨s2, e2, h2⟩ := emit_leaves (.pinMode .cs .output) s1
  obtain ⟨s3, e3, h3⟩ := emit_leaves (.pinMode .dcs .output) s2
  obtain ⟨s4, e4, h4⟩ := pinWrite_cs_leaves true s3
  obtain ⟨s5, e5, h5⟩ := pinWrite_dcs_leaves true s4
  have f5 : s5 = { s with cs := true, dcs := true, trace := s5.trace } := by rw [h5, h4, h3, h2, h1]
  have h0 : resetPins s = (if s5.cfg.hasRst = true then do
          emit (.pinMode .rst .output)
          pinWrite .rst s5.cfg.rstActive
          emit (.delayMs s5.cfg.tRstLow)
          pinWrite .rst (!s5.cfg.rstActive)
          emit (.delayMs s5.cfg.tRstHigh)
        else pure () : Op Unit) s5 := by
    unfold resetPins
    rw [op_bind_ok e1, op_bind_ok e2, op_bind_ok e3, op_bind_ok e4, op_bind_ok e5, op_get_bind]
  have c5 : s5.cfg = s.cfg := by rw [f5]
  simp only [c5] at h0
  cases h : s.cfg.hasRst with
  | true =>
    rw [if_pos h] at h0
    obtain ⟨s6, e6, h6⟩ := emit_leaves (.pinMode .rst .output) s5
    obtain ⟨s7, e7, h7⟩ := pinWrite_rst_leaves s.cfg.rstActive s6
    obtain ⟨s8, e8, h8⟩ := emit_leaves (.delayMs s.cfg.tRstLow) s7
    obtain ⟨s9, e9, h9⟩ := pinWrite_rst_leaves (!s.cfg.rstActive) s8
    obtain ⟨t, e10, h10⟩ := emit_leaves (.delayMs s.cfg.tRstHigh) s9
    have f10 : t = { s with cs := true, dcs := true, rst := !s.cfg.rstActive, trace := t.trace } := by
      rw [h10, h9, h8, h7, h6, f5]
    refine ⟨t, h0.trans ?_, ?_, ?_, ?_, ?_, ?_, ?_, ?_⟩
    · rw [op_bind_ok e6, op_bind_ok e7, op_bind_ok e8, op_bind_ok e9, e10]
    · rw [f10]; exact hs
    · rw [f10]
    · rw [f10]
    · rw [f10]
    · rw [f10]
    · rw [f10]; simp
    · rw [f10]
  | false =>
    rw [if_neg (by simp [h])] at h0
    refine ⟨s5, h0, ?_, ?_, ?_, ?_, ?_, ?_, ?_⟩
    · rw [f5]; exact hs
    · rw [f5]
    · rw [f5]
    · rw [f5]
    · rw [f5]
    · rw [f5]; simp
    · rw [f5]

end Sys2Proof.Machine
end

