-- ==== Sys2Proof/Laws/Ready.lean ====
section
/-!
SUPPORT. Where every wait ends at once, it still does after chip initialisation and after a table is loaded; and the
payload bytes of a trace.
-/
namespace Sys2Proof.Machine

/-- Readiness at once is kept, and the configuration is. -/
def KeepsReady (s t : State) : Prop := (s.ready → t.ready) ∧ t.cfg = s.cfg

theorem KeepsReady.refl (s : State) : KeepsReady s s := ⟨id, rfl⟩

theorem KeepsReady.trans (s t u : State) (h1 : KeepsReady s t) (h2 : KeepsReady t u) : KeepsReady s u :=
  ⟨h2.1 ∘ h1.1, h2.2.trans h1.2⟩

theorem keepsReady_frames : FrameClosed KeepsReady where
  refl := KeepsReady.refl
  trans := KeepsReady.trans
  write a v s := by
    refine ⟨fun h => ?_, ?_⟩
    · rw [endState_ok (writeRegister_ready h a v)]; exact ready_wrote h a v
    · rcases writeRegister_cases a v s with ⟨_, e⟩ | ⟨_, n, e', _, e⟩ | ⟨_, n, _, e⟩
      · rw [endState_error e]; rfl
      · rw [endState_ok e]; rfl
      · rw [endState_error e]; rfl
  read a s := by
    refine ⟨fun h => ?_, ?_⟩
    · rw [endState_ok (readRegister_ready h a)]; exact ready_didRead h a
    · rcases readRegister_cases a s with ⟨_, e⟩ | ⟨_, n, e', _, e⟩ | ⟨_, n, _, e⟩
      · rw [endState_error e]; rfl
      · rw [endState_ok e]; rfl
      · rw [endState_error e]; rfl
  log _ _ := ⟨id, rfl⟩
  fault _ _ := ⟨id, rfl⟩

theorem keepsReady_sample (s : State) (h : s.ready) : s.env.sample.2.ready = [] ∧ s.env.sample.2.readyAfter = .high := by
  obtain ⟨_, h2, h3⟩ := h
  simp [Env.sample, h2, h3]

theorem keepsReady_resetPins : Keeps KeepsReady resetPins := by
  have em (p : Prim) : Keeps KeepsReady (emit p) := fun _ => ⟨id, rfl⟩
  have pw (p : Pin) (l : Bool) : Keeps KeepsReady (pinWrite p l) := fun _ => by cases p <;> exact ⟨id, rfl⟩
  have seq {α β : Type} {x : Op α} {f : α → Op β} (hx : Keeps KeepsReady x) (hf : ∀ a, Keeps KeepsReady (f a)) :
      Keeps KeepsReady (x >>= f) := Keeps.bind KeepsReady.trans hx hf
  exact seq (em _) fun _ => seq (em _) fun _ => seq (em _) fun _ => seq (pw _ _) fun _ => seq (pw _ _) fun _ =>
    seq (fun _ => ⟨id, rfl⟩) fun _ => Keeps.ite
      (seq (em _) fun _ => seq (pw _ _) fun _ => seq (em _) fun _ => seq (pw _ _) fun _ => em _) fun _ => ⟨id, rfl⟩

theorem keepsReady_chip : ChipClosed KeepsReady where
  toFrameClosed := keepsReady_frames
  pins := keepsReady_resetPins
  check n := by
    induction n with
    | zero => exact fun _ => ⟨id, rfl⟩
    | succ n ih =>
      refine Keeps.bind KeepsReady.trans (fun s => ⟨fun h => ⟨h.1, keepsReady_sample s h⟩, rfl⟩) fun _ => ?_
      exact Keeps.ite (fun _ => ⟨id, rfl⟩) (Keeps.bind KeepsReady.trans (fun _ => ⟨id, rfl⟩) fun _ => ih)
  clock _ _ := ⟨id, rfl⟩
  fields _ _ _ _ _ _ _ _ := ⟨id, rfl⟩

/-- After chip initialisation every wait still ends at once. -/
theorem ready_chipInit {s u : State} {r : Result} (h : s.ready) (e : chipInit s = .ok r u) : u.ready ∧ u.cfg = s.cfg := by
  have k := keeps_chipInit keepsReady_chip s
  rw [endState_ok e] at k
  exact ⟨k.1 h, k.2⟩

/-- After a table is loaded every wait still ends at once. -/
theorem ready_loadTable {s u : State} {words : List Word} (h : s.ready) (e : loadTable words s = .ok () u) :
    u.ready ∧ u.cfg = s.cfg := by
  have k := keeps_loadTable keepsReady_frames (fun _ _ _ _ _ _ => ⟨id, rfl⟩) words s
  rw [endState_ok e] at k
  exact ⟨k.1 h, k.2⟩

/-! ### The payload bytes of a trace -/

theorem streamedBytes_append (t u : List Event) : streamedBytes (t ++ u) = streamedBytes t ++ streamedBytes u := by
  induction t with
  | nil => rfl
  | cons e t ih =>
    obtain ⟨p, c, d⟩ := e
    cases p <;> simp [streamedBytes, ih]

theorem streamedBytes_wait (cs dcs : Bool) (n : Nat) : streamedBytes (waitEvents cs dcs n) = [] := by
  unfold waitEvents
  rw [streamedBytes_append]
  have polls : streamedBytes (List.replicate n [Event.mk (.sampleDreq false) cs dcs, Event.mk .yield cs dcs]).flatten =
      [] := by
    induction n with
    | zero => rfl
    | succ n ih => rw [List.replicate_succ, List.flatten_cons, streamedBytes_append, ih]; rfl
  rw [polls]
  rfl

end Sys2Proof.Machine
end

