-- ==== Sys2Proof/Laws/InitRun.lean ====
section
/-!
SUPPORT. The steps of chip initialisation as equations, where the ready-signal reads low a few times and high from then
on (44 R96, R97, R98).
-/
namespace Sys2Proof.Machine

/-! ### The connectivity check -/

theorem sample_replicate (e : Env) (n : Nat) (h : e.ready = List.replicate (n + 1) false) :
    e.sample = (false, { e with ready := List.replicate n false }) := by
  simp [Env.sample, h, List.replicate_succ]

theorem sample_high_after (e : Env) (h : e.ready = []) (h' : e.readyAfter = .high) : e.sample = (true, e) := by
  simp [Env.sample, h, h']

/-- The check meets `n` low samples, and a high one where it still samples (44 R97). -/
theorem connectivityCheck_run (k n : Nat) (s : State) (hr : s.env.ready = List.replicate n false)
    (ha : s.env.readyAfter = .high) (hn : n ≤ k) :
    connectivityCheck k s = .ok (decide (n < k)) { s with
      env := { s.env with ready := [] }
      trace := s.trace ++
        (List.replicate n [Event.mk (.sampleDreq false) s.cs s.dcs, Event.mk .yield s.cs s.dcs]).flatten ++
        if n < k then [Event.mk (.sampleDreq true) s.cs s.dcs] else [] } := by
  induction k generalizing n s with
  | zero =>
    obtain rfl : n = 0 := by omega
    obtain ⟨⟩ := s
    rename_i e
    obtain ⟨⟩ := e
    simp only [List.replicate_zero] at hr
    subst hr
    simp [connectivityCheck]
  | succ k ih =>
    rw [show connectivityCheck (k + 1) s = (do
      let level ← sampleDreq
      if level then return true
      else do
        emit .yield
        connectivityCheck k : Op Bool) s from rfl]
    rw [op_bind_ok (rfl : sampleDreq s = .ok s.env.sample.1 ({ s with env := s.env.sample.2 }.emit (.sampleDreq s.env.sample.1)))]
    cases n with
    | zero =>
      rw [sample_high_after s.env (by simpa using hr) ha]
      obtain ⟨⟩ := s
      rename_i e
      obtain ⟨⟩ := e
      simp only [List.replicate_zero] at hr
      subst hr
      simp [State.emit]
    | succ n =>
      rw [sample_replicate s.env n hr]
      have e := ih n (({ s with env := { s.env with ready := List.replicate n false } }.emit (.sampleDreq false)).emit .yield)
        rfl ha (by omega)
      refine Eq.trans (Eq.trans rfl e) ?_
      simp [State.emit, List.replicate_succ]

/-! ### The self-test -/

theorem tested_ready (a : Byte) (maxFail : Nat) (is : List Nat) {s : State} (fails : Nat) (h : s.ready) :
    (s.tested a maxFail is fails).1.ready := by
  induction is generalizing s fails with
  | nil => exact h
  | cons i is ih =>
    unfold State.tested
    split
    · exact ih _ (ready_didRead (ready_wrote h _ _) _)
    · exact h

theorem tested_cfg (a : Byte) (maxFail : Nat) (is : List Nat) (s : State) (fails : Nat) :
    (s.tested a maxFail is fails).1.cfg = s.cfg := by
  induction is generalizing s fails with
  | nil => rfl
  | cons i is ih =>
    unfold State.tested
    split
    · exact ih _ _
    · rfl

/-- The patterns from `i` on. -/
def patternsFrom (limit step i : Nat) : List Nat := (List.range ((limit - i + step - 1) / step)).map (i + step * ·)

theorem patternsFrom_done (limit step i : Nat) (hs : 0 < step) (h : limit ≤ i) : patternsFrom limit step i = [] := by
  have : (limit - i + step - 1) / step = 0 := by rw [Nat.div_eq_zero_iff]; omega
  simp [patternsFrom, this]

theorem patternsFrom_step (limit step i : Nat) (hs : 0 < step) (h : i < limit) :
    patternsFrom limit step i = i :: patternsFrom limit step (i + step) := by
  have hn : (limit - i + step - 1) / step = (limit - (i + step) + step - 1) / step + 1 := by
    by_cases hl : step ≤ limit - i
    · rw [show limit - i + step - 1 = (limit - (i + step) + step - 1) + step by omega, Nat.add_div_right _ hs]
    · rw [show limit - (i + step) + step - 1 = step - 1 by omega, Nat.div_eq_of_lt (by omega : step - 1 < step)]
      exact Nat.div_eq_of_lt_le (by omega) (by omega)
  unfold patternsFrom
  rw [hn, List.range_succ_eq_map, List.map_cons, List.map_map]
  congr 1
  apply List.map_congr_left
  intro j _
  simp only [Function.comp_apply, Nat.succ_eq_add_one]
  ring

/-- The loop of a phase writes and reads the patterns in order and counts the mismatches (44 R98). -/
theorem selfTestLoop_run (step : ℕ+) (fuel i fails : Nat) {s : State} (h : s.ready) (hf : s.cfg.stLimit ≤ i + fuel) :
    selfTestLoop step fuel i fails s =
      .ok (s.tested (s.regAddr s.cfg.stReg) s.cfg.stMaxFail (patternsFrom s.cfg.stLimit step i) fails).2
        (s.tested (s.regAddr s.cfg.stReg) s.cfg.stMaxFail (patternsFrom s.cfg.stLimit step i) fails).1 := by
  induction fuel generalizing s i fails with
  | zero => rw [patternsFrom_done _ _ _ step.pos (by omega)]; rfl
  | succ fuel ih =>
    simp only [selfTestLoop, op_get_bind]
    by_cases hl : i < s.cfg.stLimit
    · rw [patternsFrom_step _ _ _ step.pos hl]
      by_cases hm : fails < s.cfg.stMaxFail
      · rw [if_pos ⟨hl, hm⟩]
        have h1 := ready_wrote h (s.regAddr s.cfg.stReg) (BitVec.ofNat 16 i)
        rw [op_bind_ok (writeNamed_ready h _ _), op_bind_ok (readNamed_ready h1 _)]
        have h2 := ready_didRead h1 (s.regAddr s.cfg.stReg)
        have e := ih (i + step) (if (s.wrote (s.regAddr s.cfg.stReg) (BitVec.ofNat 16 i)).answered (s.regAddr s.cfg.stReg) =
          BitVec.ofNat 16 i then fails else fails + 1) h2 (by have := step.pos; show s.cfg.stLimit ≤ _; omega)
        rw [State.tested, if_pos hm]
        refine Eq.trans ?_ e
        rw [wrote_regAddr]
        congr 1
        by_cases hr : (s.wrote (s.regAddr s.cfg.stReg) (BitVec.ofNat 16 i)).answered (s.regAddr s.cfg.stReg) =
          BitVec.ofNat 16 i <;> simp [hr]
      · rw [if_neg (by simp [hm]), State.tested, if_neg hm]
        rfl
    · rw [if_neg (by simp [hl]), patternsFrom_done _ _ _ step.pos (by omega)]
      rfl

theorem patterns_eq (limit step : Nat) : patterns limit step = patternsFrom limit step 0 := by
  simp [patterns, patternsFrom]

/-- One phase as one equation (44 R98). -/
theorem selfTest_run (phase : Nat) (step : ℕ+) {s : State} (h : s.ready) :
    selfTest phase step s = .ok (s.selfTested phase step).2 (s.selfTested phase step).1 := by
  refine (op_get_bind _ s).trans ?_
  rw [op_bind_ok (selfTestLoop_run step s.cfg.stLimit 0 0 h (by omega)), ← patterns_eq]
  unfold State.selfTested
  simp only
  split <;> rfl

theorem selfTested_ready (phase : Nat) (step : ℕ+) {s : State} (h : s.ready) : (s.selfTested phase step).1.ready := by
  unfold State.selfTested
  simp only
  split
  · exact tested_ready _ _ _ _ h
  · exact tested_ready _ _ _ _ h

theorem selfTested_cfg (phase : Nat) (step : ℕ+) (s : State) : (s.selfTested phase step).1.cfg = s.cfg := by
  unfold State.selfTested
  simp only
  split <;> exact tested_cfg _ _ _ _ _

/-! ### The pins, and the steps up to the fast self-test -/

/-- Step 1 as one equation (44 R96). -/
theorem resetPins_run (s : State) : resetPins s = .ok () { s with
    cs := true
    dcs := true
    rst := if s.cfg.hasRst then !s.cfg.rstActive else s.rst
    trace := s.trace ++ pinEvents s.cfg s.cs s.dcs } := by
  cases h : s.cfg.hasRst <;>
    simp [resetPins, pinEvents, h, bind, EStateM.bind, emit, pinWrite, State.drive, State.emit, get, getThe,
      MonadStateOf.get, EStateM.get]

/-- Steps 1 to 3 as one equation (44 R96, R97, R98). -/
theorem resetPins_probeBus_run {s : State} {n : Nat} (hb : s.busOwned = false) (hr : s.env.ready = List.replicate n false)
    (ha : s.env.readyAfter = .high) (hn : n ≤ s.cfg.startupPolls) :
    let a := (s.probed n).selfTested 1 s.cfg.stStep1
    let b := State.selfTested { a.1 with
      stFail1 := a.2, busClk := s.cfg.clkFast
      trace := a.1.trace ++ [⟨.setClock s.cfg.clkFast, a.1.cs, a.1.dcs⟩] } 2 s.cfg.stStep2
    (do resetPins; probeBus) s = .ok (decide (n < s.cfg.startupPolls)) { b.1 with stFail2 := b.2 } ∧ b.1.ready ∧
      b.1.cfg = s.cfg := by
  intro a b
  have hp : (s.probed n).ready := ⟨hb, rfl, ha⟩
  have hra : a.1.ready := selfTested_ready 1 s.cfg.stStep1 hp
  have hrb : b.1.ready := selfTested_ready 2 s.cfg.stStep2 (s := { a.1 with
    stFail1 := a.2, busClk := s.cfg.clkFast
    trace := a.1.trace ++ [⟨.setClock s.cfg.clkFast, a.1.cs, a.1.dcs⟩] }) hra
  refine ⟨?_, hrb, (selfTested_cfg _ _ _).trans (selfTested_cfg _ _ _)⟩
  let s1 : State := { s with
    cs := true, dcs := true, rst := if s.cfg.hasRst then !s.cfg.rstActive else s.rst
    trace := s.trace ++ pinEvents s.cfg s.cs s.dcs }
  let s2 : State := { s1 with busClk := s.cfg.clkSlow }.emit (.setClock s.cfg.clkSlow)
  have e3 : connectivityCheck s.cfg.startupPolls s2 = .ok (decide (n < s.cfg.startupPolls)) (s.probed n) := by
    refine (connectivityCheck_run s.cfg.startupPolls n s2 hr ha hn).trans ?_
    simp [State.probed, s2, s1, State.emit]
  let a2 : State := { a.1 with
    stFail1 := a.2, busClk := s.cfg.clkFast
    trace := a.1.trace ++ [⟨.setClock s.cfg.clkFast, a.1.cs, a.1.dcs⟩] }
  refine (op_bind_ok (resetPins_run s)).trans ((op_get_bind _ s1).trans ?_)
  refine (op_bind_ok (show setClock s.cfg.clkSlow s1 = .ok () s2 from rfl)).trans ((op_bind_ok e3).trans ?_)
  refine (op_bind_ok (selfTest_run 1 s.cfg.stStep1 hp)).trans ((op_modify_bind _ _ _).trans ?_)
  refine (op_bind_ok (show setClock s.cfg.clkFast { a.1 with stFail1 := a.2 } = .ok () a2 from rfl)).trans ?_
  exact (op_bind_ok (selfTest_run 2 s.cfg.stStep2 (s := a2) hra)).trans rfl

end Sys2Proof.Machine
end

