-- ==== Sys2Proof/Laws/Solver.lean ====
section
/-!
SUPPORT. The solver's answer does not depend on what its scratch fields hold before (45 R122, 10_state R28), its run as
one equation, and a bound on the rate it reports.
-/
namespace Sys2Proof.Machine

/-- Two bests that differ at most in the scratch fields a search without a find leaves alone. -/
def SameBest (b b' : SolverBest) : Prop := b.diff = b'.diff ∧ b.found = b'.found ∧ (b.found = true → b = b')

theorem SameBest.betterOf {b b' : SolverBest} (h : SameBest b b') (d : Frac) (k div : Nat) :
    SameBest (betterOf b d k div) (betterOf b' d k div) := by
  unfold Machine.betterOf
  rw [h.1]
  split
  · exact ⟨rfl, rfl, fun _ => rfl⟩
  · exact h

theorem scanDividers_same (base target k n div : Nat) (b b' : SolverBest) (h : SameBest b b') :
    (scanDividers base target k n div b).2 = (scanDividers base target k n div b').2 ∧
    SameBest (scanDividers base target k n div b).1 (scanDividers base target k n div b').1 := by
  induction n generalizing div b b' with
  | zero => exact ⟨rfl, h⟩
  | succ n ih =>
    have hb := h.betterOf (excess (solverRate base k div) target) k div
    unfold scanDividers
    split
    · exact ⟨rfl, h⟩
    split
    · exact ⟨rfl, hb⟩
    · exact ih (div + 1) _ _ hb

theorem scanMultipliers_same (base target n k : Nat) (b b' : SolverBest) (h : SameBest b b') :
    (scanMultipliers base target n k b).2 = (scanMultipliers base target n k b').2 ∧
    SameBest (scanMultipliers base target n k b).1 (scanMultipliers base target n k b').1 := by
  induction n generalizing k b b' with
  | zero => exact ⟨rfl, h⟩
  | succ n ih =>
    obtain ⟨e2, e1⟩ := scanDividers_same base target k 123 4 b b' h
    unfold scanMultipliers
    rcases hx : scanDividers base target k 123 4 b with ⟨x, _ | p⟩ <;>
      rcases hy : scanDividers base target k 123 4 b' with ⟨y, _ | q⟩ <;> rw [hx, hy] at e2 e1
    · exact ih (k + 1) x y e1
    · cases e2
    · cases e2
    · exact ⟨e2, e1⟩

theorem answerOf_same (x y : SolverBest × Option (Nat × Nat)) (h2 : x.2 = y.2) (h1 : SameBest x.1 y.1) :
    answerOf x = answerOf y := by
  obtain ⟨x, p⟩ := x
  obtain ⟨y, q⟩ := y
  obtain rfl : p = q := h2
  obtain ⟨_, hf, he⟩ := h1
  cases p with
  | some point => rfl
  | none =>
    simp only [answerOf] at *
    rw [← hf]
    cases h : x.found with
    | true => rw [he h]
    | false => rfl

/-- The answer does not depend on the scratch fields. -/
theorem answerOf_searchFrom (base target k div : Nat) : answerOf (searchFrom base target k div) = solverPoint base target :=
  let h := scanMultipliers_same base target 7 0 { diff := { num := target, den := 1 }, k := k, div := div, found := false }
    { diff := { num := target, den := 1 }, k := 0, div := 0, found := false } ⟨rfl, rfl, fun h => nomatch h⟩
  answerOf_same _ _ h.1 h.2

/-- `solve` answers the solver's point and writes its scratch fields, nothing else (45 R122). -/
theorem solve_run (target : Nat) (s : State) :
    solve target s = .ok (solverPoint s.cfg.baseClock target) (s.searched target) := by
  unfold solve
  simp only [answerOf_searchFrom]
  rfl

/-! ### The reported rate is bounded -/

/-- A best whose distance is at most the target, and whose rate, where one was found, is at most twice the target. -/
def BoundedBest (base target : Nat) (b : SolverBest) : Prop :=
  b.diff.num ≤ target * b.diff.den ∧ (b.found = true → achievedRate base b.k b.div ≤ 2 * target)

theorem BoundedBest.betterOf {base target : Nat} {b : SolverBest} (h : BoundedBest base target b) (k div : Nat) :
    BoundedBest base target (betterOf b (excess (solverRate base k div) target) k div) := by
  unfold Machine.betterOf
  split
  · next hl =>
    simp only [fracLess, decide_eq_true_eq] at hl
    have h1 : b.diff.num * (excess (solverRate base k div) target).den ≤
        target * (excess (solverRate base k div) target).den * b.diff.den :=
      (Nat.mul_le_mul_right _ h.1).trans (Nat.le_of_eq (by ring))
    have h2 : (excess (solverRate base k div) target).num < target * (excess (solverRate base k div) target).den :=
      Nat.lt_of_mul_lt_mul_right (hl.trans_le h1)
    refine ⟨h2.le, fun _ => ?_⟩
    simp only [excess] at h2
    show achievedRate base k div ≤ _
    refine (Nat.div_lt_of_lt_mul ?_).le
    rw [show (solverRate base k div).den * (2 * target) =
      target * (solverRate base k div).den + target * (solverRate base k div).den by ring]
    omega
  · exact h

theorem scanDividers_bounded (base target k n div : Nat) (b : SolverBest) (h : BoundedBest base target b) :
    BoundedBest base target (scanDividers base target k n div b).1 ∧
    ∀ p, (scanDividers base target k n div b).2 = some p → achievedRate base p.1 p.2 ≤ 2 * target := by
  induction n generalizing div b with
  | zero => exact ⟨h, fun _ e => nomatch e⟩
  | succ n ih =>
    unfold scanDividers
    split
    · exact ⟨h, fun _ e => nomatch e⟩
    split
    · next hz =>
      refine ⟨h.betterOf k div, fun p e => ?_⟩
      cases e
      simp only [excess] at hz
      show achievedRate base k div ≤ _
      refine Nat.div_le_of_le_mul ?_
      rw [show (solverRate base k div).den * (2 * target) =
        target * (solverRate base k div).den + target * (solverRate base k div).den by ring]
      omega
    · exact ih (div + 1) _ (h.betterOf k div)

theorem scanMultipliers_bounded (base target n k : Nat) (b : SolverBest) (h : BoundedBest base target b) :
    BoundedBest base target (scanMultipliers base target n k b).1 ∧
    ∀ p, (scanMultipliers base target n k b).2 = some p → achievedRate base p.1 p.2 ≤ 2 * target := by
  induction n generalizing k b with
  | zero => exact ⟨h, fun _ e => nomatch e⟩
  | succ n ih =>
    have hd := scanDividers_bounded base target k 123 4 b h
    unfold scanMultipliers
    rcases hx : scanDividers base target k 123 4 b with ⟨x, _ | p⟩ <;> rw [hx] at hd
    · exact ih (k + 1) x hd.1
    · exact hd

/-- The reported rate of an answer is at most twice the target. -/
theorem achievedRate_le (base target k div : Nat) (h : solverPoint base target = some (k, div)) :
    achievedRate base k div ≤ 2 * target := by
  have hb := scanMultipliers_bounded base target 7 0
    { diff := { num := target, den := 1 }, k := 0, div := 0, found := false } ⟨(Nat.mul_one _).ge, fun h => nomatch h⟩
  unfold solverPoint searchFrom at h
  rcases hx : scanMultipliers base target 7 0 { diff := { num := target, den := 1 }, k := 0, div := 0, found := false }
    with ⟨x, _ | p⟩ <;> rw [hx] at hb h <;> simp only [answerOf] at h
  · split at h
    · cases h; exact hb.1.2 ‹_›
    · cases h
  · cases h; exact hb.2 _ rfl

end Sys2Proof.Machine
end

