-- ==== Sys2Proof/Laws/Trace.lean ====
section
/-!
SUPPORT. The discipline of the trace under appending, the segments each shared operation appends, and that each shared
operation keeps the invariant.
-/
namespace Sys2Proof.Machine

/-! ### Appending -/

theorem disciplined_append {t u : List Event} (ht : disciplined t = true) (hu : disciplined u = true)
    (hj : ∀ e f, t.getLast? = some e → u.head? = some f → mayFollow e.prim f.prim = true) :
    disciplined (t ++ u) = true := by
  induction t with
  | nil => exact hu
  | cons e t ih =>
    cases t with
    | nil =>
      cases u with
      | nil => rfl
      | cons f u => simpa [disciplined, hu] using hj e f rfl rfl
    | cons f t =>
      simp only [disciplined, Bool.and_eq_true] at ht
      simp only [List.cons_append, disciplined, Bool.and_eq_true]
      exact ⟨ht.1, ih ht.2 fun a b ha hb => hj a b (by simpa using ha) hb⟩

/-- A stretch of events that may be appended to any trace between operations: disciplined, every transfer selected, no
chunk first, no frame byte or low sample last. -/
structure Segment (u : List Event) : Prop where
  disc : disciplined u = true
  sel : traceSelected u = true
  yld : yielded u = true
  closed : frameClosed u = true
  first : ∀ f, u.head? = some f → f.prim.isChunk = false

/-- The last event of a segment may be followed by anything but a chunk. -/
theorem mayFollow_of_closed {u : List Event} (hy : yielded u = true) (hc : frameClosed u = true) {e : Event}
    (he : u.getLast? = some e) {p : Prim} (hp : p.isChunk = false) : mayFollow e.prim p = true := by
  unfold yielded at hy
  unfold frameClosed at hc
  rw [he] at hy hc
  simp only [Bool.not_eq_true', decide_eq_true_eq] at hy hc
  simp [mayFollow, hc, hp, hy]

theorem yielded_append {t u : List Event} (ht : yielded t = true) (hu : yielded u = true) : yielded (t ++ u) = true := by
  unfold yielded at *
  cases h : u.getLast? with
  | none => rw [List.getLast?_append, h]; simpa using ht
  | some e => rw [List.getLast?_append, h]; rw [h] at hu; simpa using hu

theorem frameClosed_append {t u : List Event} (ht : frameClosed t = true) (hu : frameClosed u = true) :
    frameClosed (t ++ u) = true := by
  unfold frameClosed at *
  cases h : u.getLast? with
  | none => rw [List.getLast?_append, h]; simpa using ht
  | some e => rw [List.getLast?_append, h]; rw [h] at hu; simpa using hu

theorem traceSelected_append {t u : List Event} (ht : traceSelected t = true) (hu : traceSelected u = true) :
    traceSelected (t ++ u) = true := by
  unfold traceSelected at *
  rw [List.all_append, ht, hu]
  rfl

theorem Segment.append {t u : List Event} (ht : Segment t) (hu : Segment u) : Segment (t ++ u) where
  disc := disciplined_append ht.disc hu.disc fun _ f he hf => mayFollow_of_closed ht.yld ht.closed he (hu.first f hf)
  sel := traceSelected_append ht.sel hu.sel
  yld := yielded_append ht.yld hu.yld
  closed := frameClosed_append ht.closed hu.closed
  first f hf := by
    cases t with
    | nil => exact hu.first f hf
    | cons e t => exact ht.first f hf

theorem Segment.nil : Segment [] := ⟨rfl, rfl, rfl, rfl, fun _ h => by cases h⟩

/-- One event that is no transfer and no low sample. -/
theorem Segment.single (e : Event) (ht : e.prim.isTransfer = false) (hl : e.prim ≠ .sampleDreq false) :
    Segment [e] := by
  obtain ⟨p, cs, dcs⟩ := e
  cases p <;> first
    | exact ⟨rfl, rfl, by simp_all [yielded], rfl, fun f h => by cases h; rfl⟩
    | cases ht

/-- A low sample with its yield. -/
theorem Segment.lowPoll (cs dcs : Bool) :
    Segment [Event.mk (.sampleDreq false) cs dcs, Event.mk .yield cs dcs] :=
  ⟨rfl, rfl, rfl, rfl, fun f h => by cases h; rfl⟩

theorem Segment.lowPolls (cs dcs : Bool) (n : Nat) :
    Segment (List.replicate n [Event.mk (.sampleDreq false) cs dcs, Event.mk .yield cs dcs]).flatten := by
  induction n with
  | zero => exact Segment.nil
  | succ n ih =>
    rw [List.replicate_succ, List.flatten_cons]
    exact (Segment.lowPoll cs dcs).append ih

theorem Segment.wait (cs dcs : Bool) (n : Nat) : Segment (waitEvents cs dcs n) :=
  (Segment.lowPolls cs dcs n).append (Segment.single _ rfl (by simp))

theorem waitEvents_head (cs dcs : Bool) (n : Nat) :
    ∃ l rest, waitEvents cs dcs n = Event.mk (.sampleDreq l) cs dcs :: rest := by
  cases n with
  | zero => exact ⟨true, [], rfl⟩
  | succ n => exact ⟨false, _, rfl⟩

/-- Frame bytes sent in control mode, followed by a segment that begins with a sample. -/
theorem Segment.frame (bytes : List Prim) (hb : ∀ p ∈ bytes, p.isFrameByte = true) (u : List Event) (hu : Segment u)
    (l : Bool) (cs dcs : Bool) (rest : List Event) (e : u = Event.mk (.sampleDreq l) cs dcs :: rest) :
    Segment (bytes.map (fun p => Event.mk p false true) ++ u) := by
  induction bytes with
  | nil => exact hu
  | cons p bytes ih =>
    have ih := ih fun q hq => hb q (List.mem_cons_of_mem _ hq)
    have hp := hb p (List.mem_cons_self ..)
    have hnext : ∃ f tail, bytes.map (fun p => Event.mk p false true) ++ u = f :: tail ∧
        (f.prim.isFrameByte = true ∨ f.prim.isSample = true) := by
      cases bytes with
      | nil => exact ⟨_, rest, e, .inr rfl⟩
      | cons q bytes => exact ⟨_, _, rfl, .inl (hb q (by simp))⟩
    obtain ⟨f, tail, hf, hfp⟩ := hnext
    rw [List.map_cons, List.cons_append]
    rw [hf] at ih ⊢
    have hchunk : f.prim.isChunk = false := ih.first f rfl
    refine ⟨?_, ?_, ?_, ?_, ?_⟩
    · simp only [disciplined, Bool.and_eq_true]
      refine ⟨?_, ih.disc⟩
      have hp' : p ≠ .sampleDreq false := fun h => by subst h; cases hp
      rcases hfp with h | h <;> simp [mayFollow, hchunk, h, hp']
    · have := ih.sel
      unfold traceSelected at this ⊢
      rw [List.all_cons, this]
      simp [Event.selected]
    · have := ih.yld
      unfold yielded at this ⊢
      rw [List.getLast?_cons_cons]
      exact this
    · have := ih.closed
      unfold frameClosed at this ⊢
      rw [List.getLast?_cons_cons]
      exact this
    · intro g hg
      cases hg
      cases p <;> first | rfl | cases hp

theorem Segment.controlOn (cs dcs : Bool) : Segment (controlOnEvents cs dcs) :=
  ⟨rfl, rfl, rfl, rfl, fun f h => by cases h; rfl⟩

theorem Segment.dataOn (cs dcs : Bool) : Segment (dataOnEvents cs dcs) :=
  ⟨rfl, rfl, rfl, rfl, fun f h => by cases h; rfl⟩

/-- The release of a bracket from any levels. -/
theorem Segment.controlOff (dcs : Bool) : Segment [Event.mk (.pinWrite .cs true) true dcs,
    Event.mk (.pinWrite .dcs true) true true, Event.mk .endTxn true true] :=
  ⟨rfl, rfl, rfl, rfl, fun f h => by cases h; rfl⟩

theorem Segment.dataOff (cs : Bool) : Segment [Event.mk (.pinWrite .dcs true) cs true,
    Event.mk (.pinWrite .cs true) true true, Event.mk .endTxn true true] :=
  ⟨rfl, rfl, rfl, rfl, fun f h => by cases h; rfl⟩

theorem Segment.writeFrame (cs dcs : Bool) (a : Byte) (v : Word) (n : Nat) : Segment (writeFrameEvents cs dcs a v n) := by
  obtain ⟨l, rest, e⟩ := waitEvents_head false true n
  have h := Segment.frame [.write8 0x02, .write8 a, .write16 v] (by simp [Prim.isFrameByte]) _
    (Segment.wait false true n) l false true rest e
  have := (Segment.controlOn cs dcs).append (h.append (Segment.controlOff true))
  simpa [writeFrameEvents, controlOffEvents] using this

theorem Segment.readFrame (cs dcs : Bool) (a hi lo : Byte) (n : Nat) : Segment (readFrameEvents cs dcs a hi lo n) := by
  obtain ⟨l, rest, e⟩ := waitEvents_head false true n
  have h := Segment.frame [.write8 0x03, .write8 a, .xfer8 0xFF hi, .xfer8 0xFF lo] (by simp [Prim.isFrameByte]) _
    (Segment.wait false true n) l false true rest e
  have := (Segment.controlOn cs dcs).append (h.append (Segment.controlOff true))
  simpa [readFrameEvents, controlOffEvents] using this

/-- A wait and the chunk after it, in data mode. -/
theorem Segment.chunk (n : Nat) (ds : List Byte) :
    Segment (waitEvents true false n ++ [Event.mk (.writeBulk ds) true false]) := by
  have hw := Segment.wait true false n
  refine ⟨?_, ?_, ?_, ?_, ?_⟩
  · refine disciplined_append hw.disc rfl fun e f he hf => ?_
    cases hf
    have : e = Event.mk (.sampleDreq true) true false := by
      simpa [waitEvents] using he.symm
    subst this
    rfl
  · exact traceSelected_append hw.sel rfl
  · simp [yielded]
  · simp [frameClosed, Prim.isFrameByte]
  · intro f hf
    obtain ⟨l, rest, e⟩ := waitEvents_head true false n
    rw [e] at hf
    cases hf
    rfl

/-! ### Brackets -/

theorem bracketAfter_append (b : Bracket) (t u : List Event) :
    bracketAfter b (t ++ u) = (bracketAfter b t).bind fun c => bracketAfter c u := by
  induction t generalizing b with
  | nil => rfl
  | cons e t ih =>
    simp only [List.cons_append, bracketAfter]
    cases b.next e.prim with
    | none => rfl
    | some c => exact ih c

/-- A stretch of events that opens and closes no bracket and puts no frame byte out. -/
def Neutral (u : List Event) : Prop :=
  ∀ b, ∃ c, bracketAfter b u = some c ∧ c.isOpen = b.isOpen ∧ (c.unready = true → b.unready = true)

theorem Neutral.append {t u : List Event} (ht : Neutral t) (hu : Neutral u) : Neutral (t ++ u) := by
  intro b
  obtain ⟨c, hc, oc, rc⟩ := ht b
  obtain ⟨d, hd, od, rd⟩ := hu c
  exact ⟨d, by rw [bracketAfter_append, hc]; exact hd, od.trans oc, rc ∘ rd⟩

theorem Neutral.single (e : Event) (h1 : e.prim ≠ .beginTxn) (h2 : e.prim ≠ .endTxn) (h3 : e.prim.isFrameByte = false)
    (h4 : e.prim.isChunk = false) : Neutral [e] := by
  intro b
  have hn : ∃ c, b.next e.prim = some c ∧ c.isOpen = b.isOpen ∧ (c.unready = true → b.unready = true) := by
    simp only [Bracket.next, h1, h2, h3, h4, Bool.false_eq_true, if_false]
    by_cases h5 : e.prim = .sampleDreq true
    · cases b <;> simp [h5, Bracket.isOpen, Bracket.unready]
    · by_cases h6 : e.prim.isSelect = true
      · cases b <;> simp [h5, h6, Bracket.isOpen, Bracket.unready]
      · simp [h5, h6]
  obtain ⟨c, hc, h⟩ := hn
  exact ⟨c, by simp [bracketAfter, hc], h⟩

/-- Samples that read low, with their yields, leave a bracket where it stands. -/
theorem bracketAfter_lowPolls (b : Bracket) (cs dcs : Bool) (n : Nat) :
    bracketAfter b (List.replicate n [Event.mk (.sampleDreq false) cs dcs, Event.mk .yield cs dcs]).flatten = some b := by
  induction n with
  | zero => rfl
  | succ n ih =>
    rw [List.replicate_succ, List.flatten_cons, bracketAfter_append]
    cases b <;> exact ih

theorem Neutral.lowPolls (cs dcs : Bool) (n : Nat) :
    Neutral (List.replicate n [Event.mk (.sampleDreq false) cs dcs, Event.mk .yield cs dcs]).flatten :=
  fun b => ⟨b, bracketAfter_lowPolls b cs dcs n, rfl, id⟩

theorem Neutral.wait (cs dcs : Bool) (n : Nat) : Neutral (waitEvents cs dcs n) :=
  (Neutral.lowPolls cs dcs n).append (Neutral.single _ (by simp) (by simp) rfl rfl)

/-- A wait after frame bytes ends with the bracket ready to be closed. -/
theorem bracketAfter_wait (cs dcs : Bool) (n : Nat) : bracketAfter .sent (waitEvents cs dcs n) = some .opened := by
  rw [waitEvents, bracketAfter_append, bracketAfter_lowPolls]
  rfl

/-- A wait in a bracket without frame bytes changes nothing of it. -/
theorem bracketAfter_wait_opened (cs dcs : Bool) (n : Nat) :
    bracketAfter .opened (waitEvents cs dcs n) = some .opened := by
  rw [waitEvents, bracketAfter_append, bracketAfter_lowPolls]
  rfl

theorem bracketAfter_writeFrame (cs dcs : Bool) (a : Byte) (v : Word) (n : Nat) :
    bracketAfter .closed (writeFrameEvents cs dcs a v n) = some .closed := by
  rw [writeFrameEvents, bracketAfter_append, bracketAfter_append]
  have : bracketAfter .closed (controlOnEvents cs dcs ++
      [⟨.write8 0x02, false, true⟩, ⟨.write8 a, false, true⟩, ⟨.write16 v, false, true⟩]) = some .sent := rfl
  rw [this]
  simp only [Option.bind_some, bracketAfter_wait]
  rfl

theorem bracketAfter_readFrame (cs dcs : Bool) (a hi lo : Byte) (n : Nat) :
    bracketAfter .closed (readFrameEvents cs dcs a hi lo n) = some .closed := by
  rw [readFrameEvents, bracketAfter_append, bracketAfter_append]
  have : bracketAfter .closed (controlOnEvents cs dcs ++
      [⟨.write8 0x03, false, true⟩, ⟨.write8 a, false, true⟩, ⟨.xfer8 0xFF hi, false, true⟩,
       ⟨.xfer8 0xFF lo, false, true⟩]) = some .sent := rfl
  rw [this]
  simp only [Option.bind_some, bracketAfter_wait]
  rfl

/-- Neutral events keep the brackets of a trace. -/
theorem Neutral.bracketed {s t : State} {u : List Event} (hu : Neutral u) (e : t.trace = s.trace ++ u)
    (hb : t.busOwned = s.busOwned) (hw : s.waiting = true → t.waiting = true) (h : s.bracketed) : t.bracketed := by
  obtain ⟨b, h1, h2, h3⟩ := h
  obtain ⟨c, hc, oc, rc⟩ := hu b
  exact ⟨c, by rw [e, bracketAfter_append, h1]; exact hc, (oc.trans h2).trans hb.symm, hw ∘ h3 ∘ rc⟩

/-- With the bus free, no bracket is open. -/
theorem State.bracketed.closed {s : State} (h : s.bracketed) (hs : s.busOwned = false) :
    bracketAfter .closed s.trace = some .closed := by
  obtain ⟨b, h1, h2, _⟩ := h
  rw [hs] at h2
  cases b with
  | closed => exact h1
  | opened => cases h2
  | sent => cases h2
  | cut => cases h2

/-- Events that begin with the bus free. -/
theorem bracketed_free {s t : State} {u : List Event} {b : Bracket} (hs : s.busOwned = false) (e : t.trace = s.trace ++ u)
    (hu : bracketAfter .closed u = some b) (hb : b.isOpen = t.busOwned) (hw : b.unready = true → t.waiting = true)
    (h : s.bracketed) : t.bracketed :=
  ⟨b, by rw [e, bracketAfter_append, h.closed hs]; exact hu, hb, hw⟩

/-- A bracket is open and no frame in it waits for its high sample. -/
def State.holding (s : State) : Prop := s.busOwned = true ∧ bracketAfter .closed s.trace = some .opened

theorem State.holding.bracketed {s : State} (h : s.holding) : s.bracketed :=
  ⟨.opened, h.2, h.1.symm, by simp [Bracket.unready]⟩

/-- Where no operation hangs, an open bracket is one that may be closed. -/
theorem State.bracketed.holding {s : State} (h : s.bracketed) (hb : s.busOwned = true) (hw : s.waiting = false) :
    s.holding := by
  obtain ⟨b, h1, h2, h3⟩ := h
  rw [hb] at h2
  rw [hw] at h3
  cases b with
  | closed => cases h2
  | opened => exact ⟨hb, h1⟩
  | sent => cases h3 rfl
  | cut => cases h3 rfl

/-- Events that begin with a bracket that may be closed. -/
theorem bracketed_held {s t : State} {u : List Event} {b : Bracket} (hs : s.holding) (e : t.trace = s.trace ++ u)
    (hu : bracketAfter .opened u = some b) (hb : b.isOpen = t.busOwned) (hw : b.unready = true → t.waiting = true) :
    t.bracketed := ⟨b, by rw [e, bracketAfter_append, hs.2]; exact hu, hb, hw⟩

/-! ### The invariant -/

/-- Appending a segment keeps the discipline of the trace. -/
theorem Segment.traceDisciplined {s t : State} {u : List Event} (hu : Segment u) (e : t.trace = s.trace ++ u)
    (h : s.traceDisciplined) : t.traceDisciplined := by
  obtain ⟨h1, h2, h3⟩ := h
  refine ⟨?_, ?_, ?_⟩
  · rw [e]; exact disciplined_append h1 hu.disc fun _ f he hf => mayFollow_of_closed h2 h3 he (hu.first f hf)
  · rw [e]; exact yielded_append h2 hu.yld
  · rw [e]; exact frameClosed_append h3 hu.closed

/-- The invariant is kept where a segment is appended, the cached fields and the buffer are unchanged, and the lines are
legal and the brackets whole after. -/
theorem Segment.inv {s t : State} {u : List Event} (hu : Segment u) (e : t.trace = s.trace ++ u)
    (hr : s.inRange → t.inRange) (hb : t.buf = s.buf) (hl : s.linesLegal → t.linesLegal)
    (hk : s.bracketed → t.bracketed) (h : s.Inv) : t.Inv := by
  obtain ⟨h1, h2, h3, h4, h5, h6⟩ := h
  exact ⟨hr h1, hl h2, by rw [e]; exact traceSelected_append h3 hu.sel, hu.traceDisciplined e h4, hk h5,
    by rw [hb]; exact h6⟩

/-- The invariant as a relation: where it holds before, it holds after. -/
def KeepsInv (s t : State) : Prop := s.Inv → t.Inv

theorem inv_emit (p : Prim) (ht : p.isTransfer = false) (hl : p ≠ .sampleDreq false) (h1 : p ≠ .beginTxn)
    (h2 : p ≠ .endTxn) : Keeps KeepsInv (emit p) := fun s =>
  (Segment.single (s.event p) ht hl).inv (t := s.emit p) rfl id rfl id
    ((Neutral.single (s.event p) h1 h2 (by cases p <;> first | rfl | cases ht)
      (by cases p <;> first | rfl | cases ht)).bracketed rfl rfl id)

theorem inv_pinHigh (p : Pin) (hp : p = .cs ∨ p = .dcs ∨ p = .rst) (l : Bool) (hl : p ≠ .rst → l = true) :
    Keeps KeepsInv (pinWrite p l) := by
  intro s
  have hseg := Segment.single ((s.drive p l).event (.pinWrite p l)) rfl (by simp)
  have hn : Neutral [(s.drive p l).event (.pinWrite p l)] := Neutral.single _ (by simp) (by simp) rfl rfl
  rcases hp with rfl | rfl | rfl
  · have := hl (by simp); subst this
    exact hseg.inv (t := (s.drive .cs true).emit _) rfl id rfl (fun _ _ => .inl rfl) (hn.bracketed rfl rfl id)
  · have := hl (by simp); subst this
    exact hseg.inv (t := (s.drive .dcs true).emit _) rfl id rfl (fun _ _ => .inr rfl) (hn.bracketed rfl rfl id)
  · exact hseg.inv (t := (s.drive .rst l).emit _) rfl id rfl id (hn.bracketed rfl rfl id)

/-- The mark of a hang and its low samples keep the invariant. -/
theorem inv_hanging (s : State) (n : Nat) : KeepsInv s (s.hanging n) :=
  have e : (s.hanging n).trace = s.trace ++
      (List.replicate (n + 1) [Event.mk (.sampleDreq false) s.cs s.dcs, Event.mk .yield s.cs s.dcs]).flatten := by
    rw [hanging_trace, lowPolls_eq]
  (Segment.lowPolls s.cs s.dcs (n + 1)).inv e id rfl id ((Neutral.lowPolls s.cs s.dcs (n + 1)).bracketed e rfl fun _ => rfl)

theorem inv_waitReady : Keeps KeepsInv waitReady := by
  intro s
  rcases hw : s.env.wait with ⟨n, _ | e⟩
  · rw [endState_error (waitReady_never s hw)]
    exact inv_hanging s n
  · rw [endState_ok (waitReady_high s hw), waited_eq]
    exact (Segment.wait s.cs s.dcs n).inv rfl id rfl id ((Neutral.wait s.cs s.dcs n).bracketed rfl rfl id)

theorem inv_controlModeOn : Keeps KeepsInv controlModeOn := by
  intro s
  cases hb : s.busOwned with
  | true => rw [endState_error (controlModeOn_owned s hb)]; exact id
  | false =>
    rw [endState_ok (controlModeOn_free s hb)]
    exact (Segment.controlOn s.cs s.dcs).inv rfl id rfl (fun _ _ => .inr rfl)
      (bracketed_free (b := .opened) hb rfl rfl rfl (by simp [Bracket.unready]))

theorem inv_dataModeOn : Keeps KeepsInv dataModeOn := by
  intro s
  cases hb : s.busOwned with
  | true => rw [endState_error (dataModeOn_owned s hb)]; exact id
  | false =>
    rw [endState_ok (dataModeOn_free s hb)]
    exact (Segment.dataOn s.cs s.dcs).inv rfl id rfl (fun _ _ => .inl rfl)
      (bracketed_free (b := .opened) hb rfl rfl rfl (by simp [Bracket.unready]))

/-- Closing a bracket that may be closed. -/
theorem inv_controlModeOff (s : State) (hh : s.holding) : KeepsInv s (endState controlModeOff s) := by
  rw [endState_ok (controlModeOff_run s)]
  exact (Segment.controlOff s.dcs).inv rfl id rfl (fun _ h => by cases h)
    fun _ => bracketed_held (b := .closed) hh rfl rfl rfl (by simp [Bracket.unready])

theorem inv_dataModeOff (s : State) (hh : s.holding) : KeepsInv s (endState dataModeOff s) := by
  rw [endState_ok (dataModeOff_run s)]
  exact (Segment.dataOff s.cs).inv rfl id rfl (fun _ h => by cases h)
    fun _ => bracketed_held (b := .closed) hh rfl rfl rfl (by simp [Bracket.unready])

theorem Segment.frameHang (cs dcs : Bool) (bytes : List Prim) (hb : ∀ p ∈ bytes, p.isFrameByte = true) (n : Nat) :
    Segment (controlOnEvents cs dcs ++ bytes.map (fun p => Event.mk p false true) ++
      (List.replicate (n + 1) [Event.mk (.sampleDreq false) false true, Event.mk .yield false true]).flatten) := by
  rw [List.append_assoc]
  refine (Segment.controlOn cs dcs).append (Segment.frame bytes hb _ (Segment.lowPolls false true (n + 1)) false false true
    (Event.mk .yield false true ::
      (List.replicate n [Event.mk (.sampleDreq false) false true, Event.mk .yield false true]).flatten) ?_)
  simp [List.replicate_succ]

theorem inv_writeRegister (a : Byte) (v : Word) : Keeps KeepsInv (writeRegister a v) := by
  intro s
  rcases writeRegister_cases a v s with ⟨_, e⟩ | ⟨hb, n, e', _, e⟩ | ⟨hb, n, _, e⟩
  · rw [endState_error e]; exact id
  · rw [endState_ok e]
    exact (Segment.writeFrame s.cs s.dcs a v n).inv rfl id rfl (fun _ h => by cases h)
      (bracketed_free hb rfl (bracketAfter_writeFrame s.cs s.dcs a v n) rfl (by simp [Bracket.unready]))
  · rw [endState_error e]
    exact (Segment.frameHang s.cs s.dcs [.write8 0x02, .write8 a, .write16 v] (by simp [Prim.isFrameByte]) n).inv
      (t := s.writeHangs a v n) rfl id rfl (fun _ _ => .inr rfl)
      (bracketed_free (b := .sent) hb rfl
        (by rw [bracketAfter_append]; exact bracketAfter_lowPolls .sent false true (n + 1)) rfl fun _ => rfl)

theorem inv_readRegister (a : Byte) : Keeps KeepsInv (readRegister a) := by
  intro s
  rcases readRegister_cases a s with ⟨_, e⟩ | ⟨hb, n, e', _, e⟩ | ⟨hb, n, _, e⟩
  · rw [endState_error e]; exact id
  · rw [endState_ok e]
    exact (Segment.readFrame s.cs s.dcs a _ _ n).inv rfl id rfl (fun _ h => by cases h)
      (bracketed_free hb rfl (bracketAfter_readFrame s.cs s.dcs a _ _ n) rfl (by simp [Bracket.unready]))
  · rw [endState_error e]
    exact (Segment.frameHang s.cs s.dcs [.write8 0x03, .write8 a, .xfer8 0xFF (s.env.answer s.cfg.regMap a).1,
      .xfer8 0xFF (s.env.answer s.cfg.regMap a).2.1] (by simp [Prim.isFrameByte]) n).inv
      (t := s.readHangs a n) rfl id rfl (fun _ _ => .inr rfl)
      (bracketed_free (b := .sent) hb rfl
        (by rw [bracketAfter_append]; exact bracketAfter_lowPolls .sent false true (n + 1)) rfl fun _ => rfl)

/-- In data mode, in a bracket that may be closed. -/
def State.inData (s : State) : Prop := s.cs = true ∧ s.dcs = false ∧ s.holding

/-- A wait and the chunk after it, in data mode: the invariant is kept, and where the wait ends data mode stays on. -/
theorem inv_waitChunk (ds : List Byte) (s : State) (h : s.Inv) (hd : s.inData) :
    (∃ n, waitReady s = .error .hung (s.hanging n) ∧ (s.hanging n).Inv) ∨
    (∃ n e, waitReady s = .ok () (s.waited n e) ∧ ((s.waited n e).emit (.writeBulk ds)).Inv ∧
      ((s.waited n e).emit (.writeBulk ds)).inData) := by
  obtain ⟨hc, hdc, hh⟩ := hd
  rcases hw : s.env.wait with ⟨n, _ | e⟩
  · exact .inl ⟨n, waitReady_never s hw, inv_hanging s n h⟩
  · have he : ((s.waited n e).emit (.writeBulk ds)).trace =
        s.trace ++ (waitEvents true false n ++ [Event.mk (.writeBulk ds) true false]) := by
      rw [waited_eq, ← hc, ← hdc]; simp [State.emit]
    have hb : bracketAfter .opened (waitEvents true false n ++ [Event.mk (.writeBulk ds) true false]) = some .opened := by
      rw [bracketAfter_append, bracketAfter_wait_opened]; rfl
    have hh' : ((s.waited n e).emit (.writeBulk ds)).holding := ⟨hh.1, by rw [he, bracketAfter_append, hh.2]; exact hb⟩
    exact .inr ⟨n, e, waitReady_high s hw, (Segment.chunk n ds).inv he id rfl id (fun _ => hh'.bracketed) h, hc, hdc, hh'⟩

theorem inv_sendLoop (data : List Byte) (fuel : Nat) (s : State) (h : s.Inv) (hd : s.inData) :
    (∃ t, sendLoop data fuel s = .ok () t ∧ t.Inv ∧ t.inData) ∨ (∃ e t, sendLoop data fuel s = .error e t ∧ t.Inv) := by
  induction fuel generalizing s with
  | zero => exact .inl ⟨s, rfl, h, hd⟩
  | succ n ih =>
    by_cases hz : s.sRem = 0
    · exact .inl ⟨s, by simp [sendLoop, op_get_bind, hz], h, hd⟩
    · have e : sendLoop data (n + 1) s = (do
          waitReady
          sendChunk ((data.drop s.sPos).take (min s.sRem chunkMax)) (min s.sRem chunkMax)
          sendLoop data n) s := by
        simp only [sendLoop, op_get_bind, hz, if_false]
      rcases inv_waitChunk ((data.drop s.sPos).take (min s.sRem chunkMax)) s h hd with ⟨k, hw, hi⟩ | ⟨k, e', hw, hi, hd'⟩
      · exact .inr ⟨_, _, e.trans (op_bind_error hw), hi⟩
      · have e2 := e.trans (op_bind_ok hw)
        exact e2.symm ▸ ih { (s.waited k e').emit (.writeBulk ((data.drop s.sPos).take (min s.sRem chunkMax))) with
          sPos := s.sPos + min s.sRem chunkMax, sRem := s.sRem - min s.sRem chunkMax } hi hd'

theorem inv_fillLoop (fuel : Nat) (s : State) (h : s.Inv) (hd : s.inData) :
    (∃ t, fillLoop fuel s = .ok () t ∧ t.Inv ∧ t.inData) ∨ (∃ e t, fillLoop fuel s = .error e t ∧ t.Inv) := by
  induction fuel generalizing s with
  | zero => exact .inl ⟨s, rfl, h, hd⟩
  | succ n ih =>
    by_cases hz : s.sRem = 0
    · exact .inl ⟨s, by simp [fillLoop, op_get_bind, hz], h, hd⟩
    · have e : fillLoop (n + 1) s = (do
          waitReady
          emit (.writeBulk (List.replicate (min s.sRem chunkMax) s.endFill))
          modify fun t : State => { t with sRem := t.sRem - min s.sRem chunkMax }
          fillLoop n) s := by
        simp only [fillLoop, op_get_bind, hz, if_false]
      rcases inv_waitChunk (List.replicate (min s.sRem chunkMax) s.endFill) s h hd with ⟨k, hw, hi⟩ | ⟨k, e', hw, hi, hd'⟩
      · exact .inr ⟨_, _, e.trans (op_bind_error hw), hi⟩
      · have e2 := e.trans (op_bind_ok hw)
        exact e2.symm ▸ ih { (s.waited k e').emit (.writeBulk (List.replicate (min s.sRem chunkMax) s.endFill)) with
          sRem := s.sRem - min s.sRem chunkMax } hi hd'

/-- A loop between entering data mode and leaving it keeps the invariant. -/
theorem inv_dataRun (loop : Op Unit) (hl : ∀ s : State, s.Inv → s.inData →
    (∃ t, loop s = .ok () t ∧ t.Inv ∧ t.inData) ∨ (∃ e t, loop s = .error e t ∧ t.Inv)) :
    Keeps KeepsInv (do dataModeOn; loop; dataModeOff) := by
  intro s h
  cases hb : s.busOwned with
  | true => rw [endState_error (op_bind_error (dataModeOn_owned s hb))]; exact h
  | false =>
    have e1 := dataModeOn_free s hb
    have hi := inv_dataModeOn s h
    rw [endState_ok e1] at hi
    have hh : State.holding { s with
        busOwned := true, cs := true, dcs := false, trace := s.trace ++ dataOnEvents s.cs s.dcs } :=
      ⟨rfl, by rw [bracketAfter_append, h.2.2.2.2.1.closed hb]; rfl⟩
    rcases hl _ hi ⟨rfl, rfl, hh⟩ with ⟨t, e2, ht, hdt⟩ | ⟨x, t, e2, ht⟩
    · rw [endState, op_bind_ok e1, op_bind_ok e2]
      exact inv_dataModeOff t hdt.2.2 ht
    · rw [endState_error ((op_bind_ok e1).trans (op_bind_error e2))]
      exact ht

theorem inv_sendBuffer (data : List Byte) (len : Nat) : Keeps KeepsInv (sendBuffer data len) := fun s h =>
  inv_dataRun (sendLoop data len) (inv_sendLoop data len) { s with sPos := 0, sRem := len } h

theorem inv_sendFillers (len : Nat) : Keeps KeepsInv (sendFillers len) := fun s h =>
  inv_dataRun (fillLoop len) (inv_fillLoop len) { s with sRem := len } h

theorem connectivityCheck_succ (n : Nat) (s : State) :
    connectivityCheck (n + 1) s =
      if s.env.sample.1 then .ok true ({ s with env := s.env.sample.2 }.emit (.sampleDreq true))
      else connectivityCheck n (({ s with env := s.env.sample.2 }.emit (.sampleDreq false)).emit .yield) := by
  simp only [connectivityCheck]
  rw [op_bind_ok (by rfl : sampleDreq s = .ok s.env.sample.1 ({ s with env := s.env.sample.2 }.emit (.sampleDreq s.env.sample.1)))]
  cases s.env.sample.1 <;> rfl

theorem inv_connectivityCheck (n : Nat) : Keeps KeepsInv (connectivityCheck n) := by
  induction n with
  | zero => exact fun s => id
  | succ n ih =>
    intro s h
    rw [endState, connectivityCheck_succ]
    cases s.env.sample.1 with
    | true =>
      exact (Segment.single (Event.mk (.sampleDreq true) s.cs s.dcs) rfl (by simp)).inv (s := s)
        (t := { s with env := s.env.sample.2 }.emit (.sampleDreq true)) rfl id rfl id
        ((Neutral.single (Event.mk (.sampleDreq true) s.cs s.dcs) (by simp) (by simp) rfl rfl).bracketed rfl rfl id) h
    | false =>
      refine ih (({ s with env := s.env.sample.2 }.emit (.sampleDreq false)).emit .yield) ?_
      have e : (({ s with env := s.env.sample.2 }.emit (.sampleDreq false)).emit .yield).trace =
          s.trace ++ [Event.mk (.sampleDreq false) s.cs s.dcs, Event.mk .yield s.cs s.dcs] := by simp [State.emit]
      exact (Segment.lowPoll s.cs s.dcs).inv (s := s) e id rfl id ((Neutral.lowPolls s.cs s.dcs 1).bracketed e rfl id) h

end Sys2Proof.Machine
end

