-- ==== Sys2Proof/Laws/Invariant.lean ====
section
/-!
SUPPORT. The invariant under changes of cached fields, chip initialisation and `beginInput`, whose achieved rate the
solver bounds.
-/
namespace Sys2Proof.Machine

/-- The invariant is kept where only fields outside the trace, the lines, the bus and the buffer change, and the changed
ones stay in range. -/
theorem State.Inv.frame {s t : State} (h : s.Inv) (hr : s.inRange → t.inRange) (h1 : t.trace = s.trace := by rfl)
    (h2 : t.buf = s.buf := by rfl) (h3 : t.cs = s.cs := by rfl) (h4 : t.dcs = s.dcs := by rfl)
    (h5 : t.busOwned = s.busOwned := by rfl) (h6 : t.waiting = s.waiting := by rfl) : t.Inv := by
  obtain ⟨a1, a2, a3, a4, a5, a6⟩ := h
  refine ⟨hr a1, ?_, by rwa [h1], ?_, ?_, by rwa [h2]⟩
  · unfold State.linesLegal; rwa [h3, h4, h5]
  · unfold State.traceDisciplined; rwa [h1]
  · unfold State.bracketed; rwa [h1, h5, h6]

/-- The version field of a status word fits the field (10_state R18). -/
theorem versionField_lt (c : Config) (st : Word) :
    (versionField c st).toNat < 2 ^ (c.verHi.val - c.verLo.val + 1) := by
  unfold versionField
  rw [BitVec.toNat_setWidth]
  exact (Nat.mod_le _ _).trans_lt (BitVec.isLt _)

theorem inv_resetPins : Keeps KeepsInv resetPins := by
  have seq {α β : Type} {x : Op α} {f : α → Op β} (hx : Keeps KeepsInv x) (hf : ∀ a, Keeps KeepsInv (f a)) :
      Keeps KeepsInv (x >>= f) := Keeps.bind (R := KeepsInv) (fun _ _ _ h1 h2 => h2 ∘ h1) hx hf
  have em (p : Prim) (h1 : p.isTransfer = false := by rfl) (h2 : p ≠ .sampleDreq false := by simp)
      (h3 : p ≠ .beginTxn := by simp) (h4 : p ≠ .endTxn := by simp) : Keeps KeepsInv (emit p) := inv_emit p h1 h2 h3 h4
  have pw (p : Pin) (l : Bool) (hp : p = .cs ∨ p = .dcs ∨ p = .rst := by simp) (hl : p ≠ .rst → l = true := by simp) :
      Keeps KeepsInv (pinWrite p l) := inv_pinHigh p hp l hl
  exact seq (em _) fun _ => seq (em _) fun _ => seq (em _) fun _ => seq (pw _ _) fun _ => seq (pw _ _) fun _ =>
    seq (fun _ => id) fun _ => Keeps.ite
      (seq (em _) fun _ => seq (pw _ _) fun _ => seq (em _) fun _ => seq (pw _ _) fun _ => em _) fun _ => id

/-- The parts of chip initialisation keep the invariant. -/
theorem inv_chip : ChipClosed KeepsInv where
  refl _ := id
  trans _ _ _ h1 h2 := h2 ∘ h1
  write := inv_writeRegister
  read := inv_readRegister
  log _ := inv_emit _ rfl (by simp) (by simp) (by simp)
  fault _ _ h := h.frame id
  pins := inv_resetPins
  check := inv_connectivityCheck
  clock hz s h := inv_emit (.setClock hz) rfl (by simp) (by simp) (by simp) { s with busClk := hz } (h.frame id)
  fields s _ _ ver _ _ _ hv h := by
    refine h.frame fun hr => ?_
    have : ver.toNat < 2 ^ (s.cfg.verHi.val - s.cfg.verLo.val + 1) := by
      rcases hv with rfl | ⟨st, rfl⟩
      · unfold State.inRange at hr; omega
      · exact versionField_lt _ _
    unfold State.inRange at *
    simp only at *
    omega

theorem inv_loader (s : State) (i l : Nat) (a c v : Word) :
    KeepsInv s { s with pIdx := i, pLen := l, pAddr := a, pCnt := c, pVal := v } := fun h => h.frame id

/-! ### `beginInput` -/

/-- The invariant is kept, and the configuration and the requested rate are unchanged. -/
def KeepsRate (s t : State) : Prop := KeepsInv s t ∧ t.cfg = s.cfg ∧ t.recRate = s.recRate

theorem rateOnly_closed : TransportClosed fun s t => t.cfg = s.cfg ∧ t.recRate = s.recRate :=
  ⟨fun _ => ⟨rfl, rfl⟩, fun _ _ _ h1 h2 => ⟨h2.1.trans h1.1, h2.2.trans h1.2⟩, fun _ _ _ _ _ _ _ _ => ⟨rfl, rfl⟩⟩

theorem keepsRate_frames : FrameClosed KeepsRate where
  refl _ := ⟨id, rfl, rfl⟩
  trans _ _ _ h1 h2 := ⟨h2.1 ∘ h1.1, h2.2.1.trans h1.2.1, h2.2.2.trans h1.2.2⟩
  write a v s := ⟨inv_writeRegister a v s, rateOnly_closed.frames.write a v s⟩
  read a s := ⟨inv_readRegister a s, rateOnly_closed.frames.read a s⟩
  log i s := ⟨inv_chip.log i s, rfl, rfl⟩
  fault s i := ⟨inv_chip.fault s i, rfl, rfl⟩

/-- The register writes of Family A input setup, without the achieved rate (44 R105). -/
def captureWritesA (k div : Nat) : Op Unit := do
  let s ← get
  writeNamed .clockf (s.cfg.clockfBaseA ||| multBits s.cfg.multEnc k)
  writeNamed s.cfg.aDivReg (BitVec.ofNat 16 div)
  writeNamed s.cfg.aGainReg (gain1024 s.recGain)
  setModeBits fun m => withBit m s.cfg.bitRec
  writeNamed .aiAddr s.cfg.capEntryA

theorem programCaptureA_eq (k div : Nat) : programCaptureA k div = captureWritesA k div >>= fun _ =>
    modify fun t => { t with recAchieved := achievedRate t.cfg.baseClock k div } := by
  simp only [programCaptureA, captureWritesA, bind_assoc]

/-- A solved point whose rate has 17 bits (10_state R22). -/
theorem inv_programCaptureA (k div : Nat) (s : State) (hb : achievedRate s.cfg.baseClock k div < 2 ^ 17) (h : s.Inv) :
    (endState (programCaptureA k div) s).Inv := by
  have f := keepsRate_frames
  have key : Keeps KeepsRate (captureWritesA k div) :=
    f.bind f.get fun _ => f.bind (keeps_writeNamed f _ _) fun _ => f.bind (keeps_writeNamed f _ _) fun _ =>
      f.bind (keeps_writeNamed f _ _) fun _ => f.bind (keeps_setModeBits f _) fun _ => keeps_writeNamed f _ _
  have kk := key s
  rw [programCaptureA_eq]
  rcases hx : captureWritesA k div s with ⟨a, t⟩ | ⟨x, t⟩
  · rw [endState_ok hx] at kk
    rw [← kk.2.1] at hb
    have r : State.Inv { t with recAchieved := achievedRate t.cfg.baseClock k div } := (kk.1 h).frame fun hr => by
      unfold State.inRange at *
      simp only at *
      omega
    rw [endState, op_bind_ok hx]
    exact r
  · rw [endState_error hx] at kk
    rw [endState_error (op_bind_error hx)]
    exact kk.1 h

/-- Family A input setup: the requested rate is at most 48000, so the solved one has 17 bits (44 R105, 45 R126). -/
theorem inv_inputSetupA : Keeps KeepsInv inputSetupA := by
  intro s h
  have kk := keeps_loadTable keepsRate_frames (fun s i l a c v => ⟨inv_loader s i l a c v, rfl, rfl⟩) s.cfg.tables.capA s
  rcases hx : loadTable s.cfg.tables.capA s with ⟨a, t⟩ | ⟨x, t⟩
  · rw [endState_ok hx] at kk
    have hu : (t.searched s.recRate).Inv := (kk.1 h).frame id
    have e : inputSetupA s = (match solverPoint t.cfg.baseClock s.recRate with
      | some (k, div) => do
        programCaptureA k div
        return okResult
      | none => do
        logEvent .solver
        return solverMiss : Op Result) (t.searched s.recRate) := by
      refine (op_get_bind _ s).trans ((op_bind_ok hx).trans ((op_bind_ok (solve_run s.recRate t)).trans ?_))
      rcases solverPoint t.cfg.baseClock s.recRate with _ | ⟨k, d⟩ <;> rfl
    rw [endState, e]
    rcases hp : solverPoint t.cfg.baseClock s.recRate with _ | ⟨k, d⟩
    · exact inv_chip.log .solver _ hu
    · have hb := achievedRate_le _ _ _ _ hp
      have hr : s.recRate ≤ 48000 := by have := h.1; unfold State.inRange at this; omega
      have hi := inv_programCaptureA k d (t.searched s.recRate) (by show achievedRate t.cfg.baseClock k d < _; omega) hu
      rw [← endState_bind_pure _ (fun _ => okResult)] at hi
      exact hi
  · rw [endState_error hx] at kk
    have e : inputSetupA s = .error x t := (op_get_bind _ s).trans (op_bind_error hx)
    rw [endState_error e]
    exact kk.1 h

theorem inv_inputSetupB : Keeps KeepsInv inputSetupB := by
  have h := inv_chip.toFrameClosed
  refine h.bind h.get fun _ => h.bind (keeps_writeNamed h _ _) fun _ => h.bind (keeps_writeNamed h _ _) fun _ =>
    h.bind (keeps_writeNamed h _ _) fun _ => h.bind (keeps_writeNamed h _ _) fun _ =>
      h.bind (keeps_setModeBits h _) fun _ => h.bind (keeps_loadTable h inv_loader _) fun _ =>
        h.bind (keeps_skipHeader h _) fun _ => h.bind (keeps_modify fun s hs => hs.frame fun hr => ?_) fun _ => h.pure _
  unfold State.inRange at *
  simp only at *
  omega

theorem inv_beginInput (o : RecOptions) : Keeps KeepsInv (beginInput o) := by
  have h := inv_chip.toFrameClosed
  have hx : ∀ s : State, KeepsInv s { s with chMult := s.recCh, mode := .input } := fun s hs => hs.frame fun hr => by
    unfold State.inRange at *
    simp only at *
    omega
  have ho : ∀ s : State, KeepsInv s (s.withOptions o) := fun s hs => hs.frame fun hr => by
    unfold State.inRange at *
    simp only [State.withOptions] at *
    unfold clamp
    omega
  refine h.bind (keeps_modify ho) fun _ => h.bind (keeps_chipInit inv_chip) fun _ => h.bind h.get fun s => ?_
  cases s.family with
  | unknown => exact keeps_unsupported h
  | familyA => exact h.bind inv_inputSetupA fun _ => keeps_enterInput h hx _
  | familyB => exact h.bind inv_inputSetupB fun _ => keeps_enterInput h hx _

end Sys2Proof.Machine
end

