-- ==== Sys2Proof/Laws/Patch.lean ====
section
/-!
SUPPORT. One record of a patch table, and a run of records, when every wait ends at its first sample.
-/
namespace Sys2Proof.Machine

theorem getD_of_drop {words ws rest : List Word} {i : Nat} (h : words.drop i = ws ++ rest) (j : Nat)
    (hj : j < ws.length) : words.getD (i + j) 0 = ws.getD j 0 := by
  have h1 : (words.drop i)[j]? = words[i + j]? := by rw [List.getElem?_drop]
  rw [h, List.getElem?_append_left hj] at h1
  simp [List.getD_eq_getElem?_getD, h1]

theorem rleCount_bit (n : BitVec 15) : (1#1 ++ n).getLsbD 15 = true := by
  rw [BitVec.getLsbD_append]; rfl

theorem rleCount_low (n : BitVec 15) : (1#1 ++ n).extractLsb' 0 15 = n := by
  apply BitVec.eq_of_getLsbD_eq
  intro j hj
  rw [BitVec.getLsbD_extractLsb', BitVec.getLsbD_append]
  simp [hj]

theorem copyCount_bit (n : BitVec 15) : (0#1 ++ n).getLsbD 15 = false := by
  rw [BitVec.getLsbD_append]; rfl

theorem copyCount_low (n : BitVec 15) : (0#1 ++ n).extractLsb' 0 15 = n := by
  apply BitVec.eq_of_getLsbD_eq
  intro j hj
  rw [BitVec.getLsbD_extractLsb', BitVec.getLsbD_append]
  simp [hj]

/-- The two header words of a record whose address is narrow (43 R85, R89). -/
theorem loadRecord_header (words : List Word) {s : State} {a count : Word} (h0 : s.pIdx + 1 < s.pLen)
    (ha : words.getD s.pIdx 0 = a) (hc : words.getD (s.pIdx + 1) 0 = count) (hn : hiByte a = 0) :
    loadRecord words s =
      (if count.getLsbD 15 then loadRle words (count.extractLsb' 0 15).toNat
        else loadCopy words (count.extractLsb' 0 15).toNat)
      { s with pAddr := a, pCnt := count, pIdx := s.pIdx + 2 } := by
  simp only [loadRecord, op_get_bind]
  rw [op_bind_ok (patchWord_in words s.pIdx s (by omega)), ha, op_bind_ok (takeAddress_narrow a s hn)]
  rw [op_bind_ok (patchWord_in words (s.pIdx + 1) { s with pAddr := a } h0), hc]
  rfl

/-- An RLE record (43 R86). -/
theorem loadRecord_rle (words : List Word) {s : State} (h : s.ready) {a v : Word} {n : BitVec 15} {rest : List Word}
    (hw : words.drop s.pIdx = [a, 1#1 ++ n, v] ++ rest) (hl : s.pIdx + 3 ≤ s.pLen) (hn : hiByte a = 0) :
    loadRecord words s = .ok () { s.wroteAll (List.replicate n.toNat (loByte a, v)) with
      pIdx := s.pIdx + 3, pLen := s.pLen, pAddr := a, pCnt := 1#1 ++ n, pVal := v } := by
  have g0 := getD_of_drop hw 0 (by simp)
  have g1 := getD_of_drop hw 1 (by simp)
  have g2 := getD_of_drop hw 2 (by simp)
  rw [loadRecord_header words (by omega) g0 g1 hn]
  simp only [List.getD_cons_succ, List.getD_cons_zero, rleCount_bit, rleCount_low, if_true] at g2 ⊢
  simp only [loadRle, op_get_bind]
  rw [op_bind_ok (patchWord_in words (s.pIdx + 2) { s with pAddr := a, pCnt := 1#1 ++ n, pIdx := s.pIdx + 2 } (by
    simp only; omega)), g2]
  refine (op_modify_bind _ _ _).trans ?_
  rw [repeatWrite_ready (s := { s with pAddr := a, pCnt := 1#1 ++ n, pIdx := s.pIdx + 3, pVal := v }) (by exact h)]
  rw [← wroteAll_bookkeeping]

/-- A copy record (43 R87). -/
theorem loadRecord_copy (words : List Word) {s : State} (h : s.ready) {a : Word} {vs rest : List Word}
    (hw : words.drop s.pIdx = (a :: (0#1 ++ BitVec.ofNat 15 vs.length) :: vs) ++ rest)
    (hl : s.pIdx + 2 + vs.length ≤ s.pLen) (hv : vs.length < 2 ^ 15) (hn : hiByte a = 0) :
    loadRecord words s = .ok () { s.wroteAll (vs.map fun v => (loByte a, v)) with
      pIdx := s.pIdx + 2 + vs.length, pLen := s.pLen, pAddr := a, pCnt := 0#1 ++ BitVec.ofNat 15 vs.length
      pVal := vs.getLast?.getD s.pVal } := by
  have g0 := getD_of_drop hw 0 (by simp)
  have g1 := getD_of_drop hw 1 (by simp)
  rw [loadRecord_header words (by omega) g0 g1 hn]
  simp only [List.getD_cons_succ, List.getD_cons_zero, copyCount_bit, copyCount_low]
  have hc : (BitVec.ofNat 15 vs.length).toNat = vs.length := by
    simp only [BitVec.toNat_ofNat]; exact Nat.mod_eq_of_lt hv
  simp only [hc, Bool.false_eq_true, if_false]
  let u : State := { s with pAddr := a, pCnt := 0#1 ++ BitVec.ofNat 15 vs.length, pIdx := s.pIdx + 2 }
  have hu : u.ready := h
  refine (loadCopy_eq words vs.length (s := u) hu hl vs rfl fun j hj => ?_).trans ?_
  · have := getD_of_drop hw (j + 2) (by simp; omega)
    simp only [List.getD_cons_succ] at this
    rw [← this]
    congr 1
    show s.pIdx + 2 + j = _
    omega
  · rw [copyValues_ready hu vs]
    have := wroteAll_bookkeeping s (vs.map fun v => (loByte a, v)) (s.pIdx + 2) s.pLen a
      (0#1 ++ BitVec.ofNat 15 vs.length) s.pVal
    have e : u.wroteAll (vs.map fun v => (loByte u.pAddr, v)) = _ := this
    rw [e]

/-- What a record leaves in the record registers: its address, its count word, its last value. -/
def recordRegisters (v0 : Word) : Instr → Word × Word × Word
  | .patchRle a n v => (a, 1#1 ++ n, v)
  | .patchCopy a vs => (a, 0#1 ++ BitVec.ofNat 15 vs.length, vs.getLast?.getD v0)
  | _ => (0, 0, v0)

/-- One record at the cursor, of either kind (43 R86, R87, R90). -/
theorem loadRecord_record (words : List Word) {s : State} (h : s.ready) {r : Instr} {rest : List Word}
    (hr : isRecord r = true) (hw : words.drop s.pIdx = recordWords r ++ rest)
    (hl : s.pIdx + (recordWords r).length ≤ s.pLen) :
    loadRecord words s = .ok () { s.wroteAll (recordWrites r) with
      pIdx := s.pIdx + (recordWords r).length, pLen := s.pLen, pAddr := (recordRegisters s.pVal r).1
      pCnt := (recordRegisters s.pVal r).2.1, pVal := (recordRegisters s.pVal r).2.2 } := by
  cases r with
  | patchRle a n v =>
    exact loadRecord_rle words h hw hl (by simpa [isRecord] using hr)
  | patchCopy a vs =>
    simp only [isRecord, Bool.and_eq_true, decide_eq_true_eq] at hr
    have hlen : s.pIdx + (recordWords (.patchCopy a vs)).length = s.pIdx + 2 + vs.length := by
      simp [recordWords]; omega
    rw [hlen] at hl ⊢
    exact loadRecord_copy words h hw hl hr.2 hr.1
  | _ => cases hr

/-- A record takes two words at least, so a table has no more records than words. -/
theorem recordWords_length {r : Instr} (hr : isRecord r = true) : 2 ≤ (recordWords r).length := by
  cases r <;> first | cases hr | simp [recordWords]

/-- The state after a run of records. -/
def State.afterRecords (s : State) : List Instr → State
  | [] => s
  | r :: rs => ({ s.wroteAll (recordWrites r) with
      pIdx := s.pIdx + (recordWords r).length, pLen := s.pLen, pAddr := (recordRegisters s.pVal r).1
      pCnt := (recordRegisters s.pVal r).2.1, pVal := (recordRegisters s.pVal r).2.2 } : State).afterRecords rs

theorem ready_afterRecords {s : State} (h : s.ready) (rs : List Instr) : (s.afterRecords rs).ready := by
  induction rs generalizing s with
  | nil => exact h
  | cons r rs ih => exact ih (s := { s.wroteAll (recordWrites r) with
      pIdx := _, pLen := _, pAddr := _, pCnt := _, pVal := _ }) (by exact ready_wroteAll h _)

/-- The loop over a run of records at the cursor: their writes in order, then the loop goes on behind them (43 R85). -/
theorem loadLoop_records (words : List Word) (rs : List Instr) (rest : List Word) (fuel : Nat) {s : State} (h : s.ready)
    (hr : ∀ r ∈ rs, isRecord r = true) (hw : words.drop s.pIdx = (rs.map recordWords).flatten ++ rest)
    (hl : s.pIdx + (rs.map recordWords).flatten.length ≤ s.pLen) :
    loadLoop words (rs.length + fuel) s = loadLoop words fuel (s.afterRecords rs) := by
  induction rs generalizing s with
  | nil => simp [State.afterRecords]
  | cons r rs ih =>
    have hr0 := hr r (List.mem_cons_self ..)
    have h2 := recordWords_length hr0
    simp only [List.map_cons, List.flatten_cons, List.length_append, List.append_assoc] at hw hl
    have e : (r :: rs).length + fuel = (rs.length + fuel) + 1 := by simp; omega
    rw [e]
    simp only [loadLoop, op_get_bind]
    rw [if_pos (by omega), op_bind_ok (loadRecord_record words h hr0 hw (by omega))]
    refine ih (s := { s.wroteAll (recordWrites r) with
      pIdx := _, pLen := _, pAddr := _, pCnt := _, pVal := _ }) (by exact ready_wroteAll h _)
      (fun q hq => hr q (List.mem_cons_of_mem _ hq)) ?_ ?_
    · simp only
      rw [← List.drop_drop, hw, List.drop_left]
    · simp only; omega

/-- A run of records is its register writes in order, and the bookkeeping of the cursor and the record registers. -/
theorem afterRecords_eq (s : State) (rs : List Instr) :
    ∃ a c v, s.afterRecords rs = { s.wroteAll (rs.map recordWrites).flatten with
      pIdx := s.pIdx + (rs.map recordWords).flatten.length, pLen := s.pLen, pAddr := a, pCnt := c, pVal := v } := by
  induction rs generalizing s with
  | nil => exact ⟨s.pAddr, s.pCnt, s.pVal, rfl⟩
  | cons r rs ih =>
    obtain ⟨a, c, v, e⟩ := ih { s.wroteAll (recordWrites r) with
      pIdx := s.pIdx + (recordWords r).length, pLen := s.pLen, pAddr := (recordRegisters s.pVal r).1
      pCnt := (recordRegisters s.pVal r).2.1, pVal := (recordRegisters s.pVal r).2.2 }
    refine ⟨a, c, v, e.trans ?_⟩
    rw [wroteAll_bookkeeping, ← wroteAll_append]
    simp only [List.map_cons, List.flatten_cons, List.length_append, Nat.add_assoc]

end Sys2Proof.Machine
end

