-- ==== Sys2Proof/Laws/PerInstr.lean ====
section
/-!
SUPPORT. Per instruction: the bytes the encoder writes carry the fixed bits the opcode table gives the row, where the
table gives them.
-/
namespace Sys2Proof.Laws

/-- A field of an opcode-table row whose value is fixed: its highest bit, its lowest bit, its value. -/
structure FixedField where
  hi : Nat
  lo : Nat
  value : Nat
  deriving DecidableEq, Repr

/-- The number of bits the opcode table gives the row's fixed part, in bytes (30 R46, R47, R50, R51, R53, R55, R59). -/
def rowBytes : Instr → Nat
  | .wrFrame _ _ => 4
  | .rdFrame _ => 4
  | .dataChunk _ => 1
  | .patchRle _ _ _ => 6
  | .patchCopy _ _ => 4
  | .eqWord _ _ _ _ => 2
  | _ => 1

/-- The fixed fields of each row, from opcode_table.json. -/
def rowFixed : Instr → List FixedField
  | .wrFrame _ _ => [⟨31, 24, 0x02⟩]
  | .rdFrame _ => [⟨15, 0, 0xFFFF⟩, ⟨31, 24, 0x03⟩]
  | .dataChunk _ => []
  | .patchRle _ _ _ => [⟨31, 31, 1⟩]
  | .patchCopy _ _ => [⟨15, 15, 0⟩]
  | .eqWord _ _ _ _ => []
  | .controlModeOn => [⟨7, 0, 0x10⟩]
  | .controlModeOff => [⟨7, 0, 0x11⟩]
  | .dataModeOn => [⟨7, 0, 0x12⟩]
  | .dataModeOff => [⟨7, 0, 0x13⟩]
  | .waitReady => [⟨7, 0, 0x14⟩]
  | .readRegister _ => [⟨7, 0, 0x20⟩]
  | .writeRegister _ _ => [⟨7, 0, 0x21⟩]
  | .wramWrite _ _ => [⟨7, 0, 0x22⟩]
  | .wramRead _ => [⟨7, 0, 0x23⟩]
  | .sendBuffer _ _ => [⟨7, 0, 0x30⟩]
  | .sendFillers _ => [⟨7, 0, 0x31⟩]
  | .writeAudio _ _ => [⟨7, 0, 0x32⟩]
  | .sendMidiMessage _ _ _ _ => [⟨7, 0, 0x33⟩]
  | .loadUserCode _ _ => [⟨7, 0, 0x40⟩]
  | .chipInit => [⟨7, 0, 0x50⟩]
  | .beginOutput => [⟨7, 0, 0x51⟩]
  | .beginMidi => [⟨7, 0, 0x52⟩]
  | .beginInput _ => [⟨7, 0, 0x53⟩]
  | .endOp => [⟨7, 0, 0x54⟩]
  | .available => [⟨7, 0, 0x55⟩]
  | .readBytes _ _ => [⟨7, 0, 0x56⟩]
  | .softReset => [⟨7, 0, 0x57⟩]
  | .solveRate _ => [⟨7, 0, 0x60⟩]
  | .setBassAmplitude _ => [⟨7, 0, 0x70⟩]
  | .setBassFrequencyLimit _ => [⟨7, 0, 0x71⟩]
  | .setTrebleAmplitude _ => [⟨7, 0, 0x72⟩]
  | .setTrebleFrequencyLimit _ => [⟨7, 0, 0x73⟩]
  | .setVolume _ => [⟨7, 0, 0x74⟩]
  | .setBalance _ => [⟨7, 0, 0x75⟩]
  | .getState _ => [⟨7, 0, 0x76⟩]

/-- Bytes as one number, the first byte most significant (30 section 1). -/
def bytesNat : Nat → List Byte → Nat
  | acc, [] => acc
  | acc, b :: rest => bytesNat (acc * 256 + b.toNat) rest

/-- A number carries a fixed field. -/
def carries (w : Nat) (f : FixedField) : Prop := w / 2 ^ f.lo % 2 ^ (f.hi + 1 - f.lo) = f.value

/-- The bytes of a well-formed instruction are at least the row's, and carry its fixed fields. -/
def EncodesToTable.Statement (i : Instr) : Prop :=
  i.wellFormed = true → rowBytes i ≤ (encode i).length ∧
    ∀ f ∈ rowFixed i, carries (bytesNat 0 ((encode i).take (rowBytes i))) f

/-- A host operation: its first byte is its code, whatever operands follow. -/
theorem EncodesToTable.of_code (i : Instr) (code : Byte) (ops : List Byte) (h1 : rowBytes i = 1)
    (h2 : rowFixed i = [⟨7, 0, code.toNat⟩]) (h3 : encode i = code :: ops) : EncodesToTable.Statement i := by
  intro _
  rw [h1, h2, h3]
  have := code.isLt
  refine ⟨by simp, fun f hf => ?_⟩
  simp only [List.mem_singleton] at hf
  subst hf
  simp only [carries, List.take_succ_cons, List.take_zero, bytesNat]
  omega

theorem EncodesToTable.wrFrame (a : Byte) (v : Word) : EncodesToTable.Statement (.wrFrame a v) := by
  intro _
  refine ⟨by simp [rowBytes, encode, wordBytes], fun f hf => ?_⟩
  simp only [rowFixed, List.mem_singleton] at hf
  subst hf
  have h1 := a.isLt
  have h2 := (hiByte v).isLt
  have h3 := (loByte v).isLt
  have h4 : (0x02 : Byte).toNat = 0x02 := rfl
  simp only [carries, rowBytes, encode, wordBytes, List.take_succ_cons, List.take_zero, bytesNat]
  omega

theorem EncodesToTable.rdFrame (a : Byte) : EncodesToTable.Statement (.rdFrame a) := by
  intro _
  refine ⟨by simp [rowBytes, encode], fun f hf => ?_⟩
  have h1 := a.isLt
  have h2 : (0x03 : Byte).toNat = 0x03 := rfl
  have h3 : (0xFF : Byte).toNat = 0xFF := rfl
  simp only [rowFixed, List.mem_cons, List.not_mem_nil, or_false] at hf
  rcases hf with rfl | rfl <;>
    simp only [carries, rowBytes, encode, List.take_succ_cons, List.take_zero, bytesNat] <;> omega

theorem EncodesToTable.dataChunk (ds : List Byte) : EncodesToTable.Statement (.dataChunk ds) := by
  intro h
  simp only [Instr.wellFormed, Bool.and_eq_true, decide_eq_true_eq] at h
  exact ⟨h.1, fun f hf => by simp [rowFixed] at hf⟩

/-- The bytes of a word as one number. -/
theorem bytesNat_word (w : Word) : (hiByte w).toNat * 256 + (loByte w).toNat = w.toNat := by
  have := w.isLt
  simp only [hiByte, loByte, BitVec.extractLsb'_toNat, Nat.shiftRight_eq_div_pow]
  omega

theorem EncodesToTable.patchRle (a : Word) (n : BitVec 15) (v : Word) : EncodesToTable.Statement (.patchRle a n v) := by
  intro _
  refine ⟨by simp [rowBytes, encode, wordBytes], fun f hf => ?_⟩
  simp only [rowFixed, List.mem_singleton] at hf
  subst hf
  have h1 := bytesNat_word a
  have h2 := bytesNat_word (1#1 ++ n)
  have h3 := bytesNat_word v
  have h4 : (1#1 ++ n).toNat = 2 ^ 15 + n.toNat := by
    rw [BitVec.toNat_append, ← Nat.shiftLeft_add_eq_or_of_lt n.isLt]
    rfl
  have h5 := n.isLt
  have h6 := v.isLt
  simp only [carries, rowBytes, encode, wordBytes, List.cons_append, List.nil_append, List.take_succ_cons,
    List.take_zero, bytesNat]
  omega

theorem EncodesToTable.patchCopy (a : Word) (vs : List Word) : EncodesToTable.Statement (.patchCopy a vs) := by
  intro _
  refine ⟨by simp [rowBytes, encode, wordBytes], fun f hf => ?_⟩
  simp only [rowFixed, List.mem_singleton] at hf
  subst hf
  have h1 := bytesNat_word a
  have h2 := bytesNat_word (0#1 ++ BitVec.ofNat 15 vs.length)
  have h4 : (0#1 ++ BitVec.ofNat 15 vs.length).toNat = (BitVec.ofNat 15 vs.length).toNat := by
    rw [BitVec.toNat_append, ← Nat.shiftLeft_add_eq_or_of_lt (BitVec.ofNat 15 vs.length).isLt]
    simp
  have h5 := (BitVec.ofNat 15 vs.length).isLt
  simp only [carries, rowBytes, encode, wordBytes, List.cons_append, List.nil_append, List.take_succ_cons,
    List.take_zero, bytesNat]
  omega

theorem EncodesToTable.eqWord (ta tf ba bf : BitVec 4) : EncodesToTable.Statement (.eqWord ta tf ba bf) := by
  intro _
  exact ⟨by simp [rowBytes, encode, wordBytes], fun f hf => by simp [rowFixed] at hf⟩

theorem EncodesToTable.controlModeOn : EncodesToTable.Statement .controlModeOn :=
  EncodesToTable.of_code _ 0x10 _ rfl rfl rfl

theorem EncodesToTable.controlModeOff : EncodesToTable.Statement .controlModeOff :=
  EncodesToTable.of_code _ 0x11 _ rfl rfl rfl

theorem EncodesToTable.dataModeOn : EncodesToTable.Statement .dataModeOn :=
  EncodesToTable.of_code _ 0x12 _ rfl rfl rfl

theorem EncodesToTable.dataModeOff : EncodesToTable.Statement .dataModeOff :=
  EncodesToTable.of_code _ 0x13 _ rfl rfl rfl

theorem EncodesToTable.waitReady : EncodesToTable.Statement .waitReady :=
  EncodesToTable.of_code _ 0x14 _ rfl rfl rfl

theorem EncodesToTable.readRegister (a : Byte) : EncodesToTable.Statement (.readRegister a) :=
  EncodesToTable.of_code _ 0x20 _ rfl rfl rfl

theorem EncodesToTable.writeRegister (a : Byte) (v : Word) : EncodesToTable.Statement (.writeRegister a v) :=
  EncodesToTable.of_code _ 0x21 _ rfl rfl rfl

theorem EncodesToTable.wramWrite (addr v : Word) : EncodesToTable.Statement (.wramWrite addr v) :=
  EncodesToTable.of_code _ 0x22 _ rfl rfl rfl

theorem EncodesToTable.wramRead (addr : Word) : EncodesToTable.Statement (.wramRead addr) :=
  EncodesToTable.of_code _ 0x23 _ rfl rfl rfl

theorem EncodesToTable.sendBuffer (data : List Byte) (len : Nat) : EncodesToTable.Statement (.sendBuffer data len) :=
  EncodesToTable.of_code _ 0x30 _ rfl rfl rfl

theorem EncodesToTable.sendFillers (len : Nat) : EncodesToTable.Statement (.sendFillers len) :=
  EncodesToTable.of_code _ 0x31 _ rfl rfl rfl

theorem EncodesToTable.writeAudio (data : List Byte) (len : Nat) : EncodesToTable.Statement (.writeAudio data len) :=
  EncodesToTable.of_code _ 0x32 _ rfl rfl rfl

theorem EncodesToTable.sendMidiMessage (n b0 b1 b2 : Byte) : EncodesToTable.Statement (.sendMidiMessage n b0 b1 b2) :=
  EncodesToTable.of_code _ 0x33 _ rfl rfl rfl

theorem EncodesToTable.loadUserCode (words : List Word) (plen : Nat) : EncodesToTable.Statement (.loadUserCode words plen) :=
  EncodesToTable.of_code _ 0x40 _ rfl rfl rfl

theorem EncodesToTable.chipInit : EncodesToTable.Statement .chipInit :=
  EncodesToTable.of_code _ 0x50 _ rfl rfl rfl

theorem EncodesToTable.beginOutput : EncodesToTable.Statement .beginOutput :=
  EncodesToTable.of_code _ 0x51 _ rfl rfl rfl

theorem EncodesToTable.beginMidi : EncodesToTable.Statement .beginMidi :=
  EncodesToTable.of_code _ 0x52 _ rfl rfl rfl

theorem EncodesToTable.beginInput (o : RecOptions) : EncodesToTable.Statement (.beginInput o) :=
  EncodesToTable.of_code _ 0x53 _ rfl rfl rfl

theorem EncodesToTable.endOp : EncodesToTable.Statement .endOp :=
  EncodesToTable.of_code _ 0x54 _ rfl rfl rfl

theorem EncodesToTable.available : EncodesToTable.Statement .available :=
  EncodesToTable.of_code _ 0x55 _ rfl rfl rfl

theorem EncodesToTable.readBytes (buf n : Nat) : EncodesToTable.Statement (.readBytes buf n) :=
  EncodesToTable.of_code _ 0x56 _ rfl rfl rfl

theorem EncodesToTable.softReset : EncodesToTable.Statement .softReset :=
  EncodesToTable.of_code _ 0x57 _ rfl rfl rfl

theorem EncodesToTable.solveRate (target : Nat) : EncodesToTable.Statement (.solveRate target) :=
  EncodesToTable.of_code _ 0x60 _ rfl rfl rfl

theorem EncodesToTable.setBassAmplitude (a : Int) : EncodesToTable.Statement (.setBassAmplitude a) :=
  EncodesToTable.of_code _ 0x70 _ rfl rfl rfl

theorem EncodesToTable.setBassFrequencyLimit (f : Int) : EncodesToTable.Statement (.setBassFrequencyLimit f) :=
  EncodesToTable.of_code _ 0x71 _ rfl rfl rfl

theorem EncodesToTable.setTrebleAmplitude (a : Int) : EncodesToTable.Statement (.setTrebleAmplitude a) :=
  EncodesToTable.of_code _ 0x72 _ rfl rfl rfl

theorem EncodesToTable.setTrebleFrequencyLimit (f : Int) : EncodesToTable.Statement (.setTrebleFrequencyLimit f) :=
  EncodesToTable.of_code _ 0x73 _ rfl rfl rfl

theorem EncodesToTable.setVolume (v : Int) : EncodesToTable.Statement (.setVolume v) :=
  EncodesToTable.of_code _ 0x74 _ rfl rfl rfl

theorem EncodesToTable.setBalance (b : Int) : EncodesToTable.Statement (.setBalance b) :=
  EncodesToTable.of_code _ 0x75 _ rfl rfl rfl

theorem EncodesToTable.getState (sel : Selector) : EncodesToTable.Statement (.getState sel) :=
  EncodesToTable.of_code _ 0x76 _ rfl rfl rfl

end Sys2Proof.Laws
end

