-- ==== Sys2Proof/Tests/Slice0.lean ====
section
/-!
SUPPORT. Small tests with results from 95_test_vectors and the rules, and for every statement with hypotheses a witness
that meets them, one for each clause.
-/
namespace Sys2Proof.Tests
open Sys2Proof Sys2Proof.Machine

/-! ### Well-formedness refuses what cannot be written down -/

theorem test_wf_chunk_empty : (Instr.dataChunk []).wellFormed = false := by decide

theorem test_wf_chunk_long : (Instr.dataChunk (List.replicate 33 0)).wellFormed = false := by decide

theorem test_wf_chunk_full : (Instr.dataChunk (List.replicate 32 0)).wellFormed = true := by decide

theorem test_wf_copy_long (vs : List Word) (h : vs.length = 2 ^ 15) : (Instr.patchCopy 0x20 vs).wellFormed = false := by
  simp [Instr.wellFormed, h]

theorem test_wf_payload_length :
    (Instr.sendBuffer [0x11] 2).wellFormed = false ∧ (Instr.writeAudio [0x11] 0).wellFormed = false := by decide

theorem test_wf_payload_huge (data : List Byte) :
    (Instr.sendBuffer data (2 ^ 32)).wellFormed = false ∧ (Instr.writeAudio data (2 ^ 32)).wellFormed = false := by
  simp [Instr.wellFormed, fits32]

theorem test_wf_fillers_huge : (Instr.sendFillers (2 ^ 32)).wellFormed = false := by decide

theorem test_wf_table_length : (Instr.loadUserCode [0x10] 2).wellFormed = false := by decide

theorem test_wf_table_huge (words : List Word) : (Instr.loadUserCode words (2 ^ 32)).wellFormed = false := by
  simp [Instr.wellFormed, fits32]

theorem test_wf_read_huge :
    (Instr.readBytes (2 ^ 32) 0).wellFormed = false ∧ (Instr.readBytes 0 (2 ^ 32)).wellFormed = false := by decide

theorem test_wf_rate_huge : (Instr.solveRate (2 ^ 32)).wellFormed = false := by decide

theorem test_wf_options :
    (RecOptions.mk (2 ^ 32) 1 0 0 .mic false).wellFormed = false ∧
    (RecOptions.mk 8000 256 0 0 .mic false).wellFormed = false ∧
    (RecOptions.mk 8000 1 (2 ^ 31) 0 .mic false).wellFormed = false ∧
    (RecOptions.mk 8000 1 0 (-(2 ^ 31) - 1) .mic false).wellFormed = false ∧
    (Instr.beginInput (RecOptions.mk 8000 256 0 0 .mic false)).wellFormed = false ∧
    (Instr.beginInput (RecOptions.mk 8000 255 50 0 .mic false)).wellFormed = true := by decide

theorem test_wf_setters :
    (Instr.setBassAmplitude (2 ^ 31)).wellFormed = false ∧
    (Instr.setBassFrequencyLimit (-(2 ^ 31) - 1)).wellFormed = false ∧
    (Instr.setTrebleAmplitude (2 ^ 31)).wellFormed = false ∧
    (Instr.setTrebleFrequencyLimit (2 ^ 31)).wellFormed = false ∧
    (Instr.setVolume (2 ^ 31)).wellFormed = false ∧
    (Instr.setBalance (-(2 ^ 31) - 1)).wellFormed = false ∧
    (Instr.setBalance (-(2 ^ 31))).wellFormed = true := by decide

/-! ### Decoding, by words written out from the spec's encodings -/

/-- 30 R46, R47; 95_test_vectors 2.2. -/
theorem test_decode_frames :
    decode .frame [0x02, 0x0B, 0x20, 0x20] = .ok (.wrFrame 0x0B 0x2020) [] ∧
    decode .frame [0x02, 0x03, 0x80, 0x01] = .ok (.wrFrame 0x03 0x8001) [] ∧
    decode .frame [0x03, 0x01, 0xFF, 0xFF] = .ok (.rdFrame 0x01) [] ∧
    decode .frame [0x03, 0x01, 0xFF, 0xFE] = .rejected .readFill ∧
    decode .frame [0x04, 0x01, 0xFF, 0xFF] = .rejected (.noFrame 0x04) ∧
    decode .frame [0x02, 0x0B, 0x20] = .rejected .truncated := by decide

/-- 30 R59, 42 R75. -/
theorem test_decode_chunk :
    decode .stream [0x00, 0x90, 0x00, 0x3C] = .ok (.dataChunk [0x00, 0x90, 0x00, 0x3C]) [] ∧
    decode .stream [] = .rejected .chunkLength := by decide

/-- 30 R50, R51; 95_test_vectors 2.4. -/
theorem test_decode_records :
    decode .patch [0x00, 0x10, 0x80, 0x03, 0x55, 0xAA] = .ok (.patchRle 0x0010 3 0x55AA) [] ∧
    decode .patch [0x00, 0x06, 0xFF, 0xFF, 0xBE, 0xEF] = .ok (.patchRle 0x0006 32767 0xBEEF) [] ∧
    decode .patch [0x00, 0x20, 0x00, 0x02, 0x11, 0x11, 0x22, 0x22] = .ok (.patchCopy 0x0020 [0x1111, 0x2222]) [] ∧
    decode .patch [0x00, 0x07, 0x00, 0x00] = .ok (.patchCopy 0x0007 []) [] ∧
    decode .patch [0x00, 0x20, 0x00, 0x02, 0x11, 0x11] = .rejected .truncated := by decide

/-- 30 R53; 95_test_vectors 2.6. -/
theorem test_decode_equalizer : decode .regValue [0x7A, 0xFF] = .ok (.eqWord 7 10 15 15) [] := by decide

/-- 30 R55, the transport group. -/
theorem test_decode_transport :
    decode .host [0x10] = .ok .controlModeOn [] ∧ decode .host [0x11] = .ok .controlModeOff [] ∧
    decode .host [0x12] = .ok .dataModeOn [] ∧ decode .host [0x13] = .ok .dataModeOff [] ∧
    decode .host [0x14] = .ok .waitReady [] := by decide

/-- 30 R55, the register group; 95_test_vectors 2.9. -/
theorem test_decode_register :
    decode .host [0x20, 0x0B] = .ok (.readRegister 0x0B) [] ∧
    decode .host [0x21, 0x0B, 0x20, 0x20] = .ok (.writeRegister 0x0B 0x2020) [] ∧
    decode .host [0x22, 0x1E, 0x06, 0x00, 0x55] = .ok (.wramWrite 0x1E06 0x0055) [] ∧
    decode .host [0x23, 0x1E, 0x06] = .ok (.wramRead 0x1E06) [] := by decide

/-- 30 R55, the streaming group; lengths in four bytes (log 7). -/
theorem test_decode_streaming :
    decode .host [0x30, 0, 0, 0, 2, 0xAA, 0xBB] = .ok (.sendBuffer [0xAA, 0xBB] 2) [] ∧
    decode .host [0x31, 0, 0, 1, 0] = .ok (.sendFillers 256) [] ∧
    decode .host [0x32, 0, 0, 0, 1, 0x90] = .ok (.writeAudio [0x90] 1) [] ∧
    decode .host [0x33, 3, 0x90, 0x3C, 0x7F] = .ok (.sendMidiMessage 3 0x90 0x3C 0x7F) [] ∧
    decode .host [0x30, 0, 0, 0, 2, 0xAA] = .rejected .truncated := by decide

/-- 30 R55, the loader. -/
theorem test_decode_loader :
    decode .host [0x40, 0, 0, 0, 2, 0x00, 0x07, 0x00, 0x00] = .ok (.loadUserCode [0x0007, 0x0000] 2) [] := by decide

/-- 30 R55, the mode group. -/
theorem test_decode_mode :
    decode .host [0x50] = .ok .chipInit [] ∧ decode .host [0x51] = .ok .beginOutput [] ∧
    decode .host [0x52] = .ok .beginMidi [] ∧
    decode .host [0x53, 0, 0, 0x1F, 0x40, 1, 0, 0, 0, 50, 0xFF, 0xFF, 0xFF, 0xFF, 1, 0] =
      .ok (.beginInput { rate := 8000, channels := 1, gain := 50, agc := -1, source := .aux, keepHeader := false }) [] ∧
    decode .host [0x54] = .ok .endOp [] ∧ decode .host [0x55] = .ok .available [] ∧
    decode .host [0x56, 0, 0, 0, 16, 0, 0, 0, 5] = .ok (.readBytes 16 5) [] ∧
    decode .host [0x57] = .ok .softReset [] := by decide

/-- 30 R56: the one-bit options are clamped, not rejected. -/
theorem test_decode_options_clamped :
    decode .host [0x53, 0, 0, 0x1F, 0x40, 1, 0, 0, 0, 50, 0, 0, 0, 0, 7, 0xFF] =
      .ok (.beginInput { rate := 8000, channels := 1, gain := 50, agc := 0, source := .aux, keepHeader := true }) [] := by
  decide

/-- 30 R55, the solver, the setters and the getter. -/
theorem test_decode_settings :
    decode .host [0x60, 0, 0, 0x1F, 0x40] = .ok (.solveRate 8000) [] ∧
    decode .host [0x70, 0, 0, 0, 100] = .ok (.setBassAmplitude 100) [] ∧
    decode .host [0x71, 0, 0, 0, 150] = .ok (.setBassFrequencyLimit 150) [] ∧
    decode .host [0x72, 0, 0, 0, 50] = .ok (.setTrebleAmplitude 50) [] ∧
    decode .host [0x73, 0, 0, 0x27, 0x10] = .ok (.setTrebleFrequencyLimit 10000) [] ∧
    decode .host [0x74, 0xFF, 0xFF, 0xFF, 0xFB] = .ok (.setVolume (-5)) [] ∧
    decode .host [0x75, 0xFF, 0xFF, 0xFE, 0xD4] = .ok (.setBalance (-300)) [] ∧
    decode .host [0x76, 6] = .ok (.getState .mode) [] ∧
    decode .host [0x76, 11] = .rejected .operandRange := by decide

/-- 95_test_vectors 2.9: the reserved codes. -/
theorem test_decode_reserved :
    ([0x00, 0x0F, 0x15, 0x24, 0x34, 0x41, 0x58, 0x61, 0x77, 0xFF] : List Byte).map (fun b => decode .host [b]) =
      ([0x00, 0x0F, 0x15, 0x24, 0x34, 0x41, 0x58, 0x61, 0x77, 0xFF] : List Byte).map
        fun b => .rejected (.noOperation b) := by decide

/-- The table's numbering (log 26): a frame, an RLE record, a host code with zero operands. -/
theorem test_table_words :
    decodeTableWord 32 0x020B2020 = some (.wrFrame 0x0B 0x2020) ∧
    decodeTableWord 48 0x0010800355AA = some (.patchRle 0x0010 3 0x55AA) ∧
    decodeTableWord 8 0x76 = some (.getState .volume) := by decide

/-! ### One step on a small state -/

/-- The premises of 95_test_vectors P6, with the read-back of `AUDATA` as the MIDI verification value. -/
def cfg : Config :=
  { Config.suggested with
    stLimit := 4, stStep1 := 2, stStep2 := 2, clockfInit := 0x8800, audataInit := 0xAC45, clockfBaseA := 0x0800,
    tables := { patch := [], capA := [0x0007, 0x8001, 0x8010, 0x0006, 0x0002, 0x0000, 0x0000], capB := [],
                midiA := [], midiB := [0x0007, 0x8001, 0x8010] } }

/-- An idle state in Output mode with every cached value at its lowest and every wait ending at once. -/
def base : State :=
  { cfg := cfg, mode := .output, cs := true, dcs := true, rst := true, busOwned := false, busClk := 0, fault := none,
    initOk := false, stFail1 := 0, stFail2 := 0, volume := 0, balance := 0, endFill := 0xA5, version := 0,
    family := .unknown, chMult := 1, bassF := 0, bassA := 0, trebF := 0, trebA := 0, recRate := 8000, recCh := 1,
    recGain := 0, recAgc := 0, recSrc := .mic, recKeepHdr := false, recAchieved := 0, pIdx := 0, pLen := 0, pAddr := 0,
    pCnt := 0, pVal := 0, sPos := 0, sRem := 0, bestDiff := { num := 0, den := 1 }, bestK := 0, bestDiv := 4,
    bestFound := false, buf := [], trace := [], result := none, waiting := false, pending := [],
    env := { ready := [], readyAfter := .high, miso := [], draws := 0, chip := none } }

/-- The same in another mode. -/
def inMode (m : Mode) : State := { base with mode := m }

/-- The same with the bytes the chip returns and the ready-signal's samples written out. -/
def scripted (m : Mode) (miso : List Byte) (ready : List Bool) : State :=
  { base with mode := m, env := { base.env with miso := miso, ready := ready } }

/-- The same with the ideal chip, its registers preset (D28). -/
def withChip (regs : WordStore) : State :=
  { base with mode := .notActive, env := { base.env with chip := some { regs := regs, ram := [] } } }

/-- The same with a ready-signal that reads low at every sample of the connectivity check, and high from then on. -/
def startsLow (regs : WordStore) : State :=
  { withChip regs with env := { (withChip regs).env with ready := [false] } }

/-- The same with a bracket open. -/
def bracket (cs dcs : Bool) : State := { base with busOwned := true, cs := cs, dcs := dcs }

/-- The same with the ready-signal low for ever after `n` low samples. -/
def dead (n : Nat) : State := { base with env := { base.env with ready := List.replicate n false, readyAfter := .low } }

/-- The state after one instruction. -/
def after (i : Instr) (s : State) : Option State :=
  match exec i s with
  | .next t => some t
  | .fault _ => none
  | .refused _ => none

/-- A frame as 95_test_vectors abbreviates it. -/
inductive Frame where
  | w (a : Byte) (v : Word)
  | r (a hi lo : Byte)
  deriving DecidableEq, Repr

/-- The frames of a trace, in order. -/
def framesOf : List Prim → List Frame
  | .write8 0x02 :: .write8 a :: .write16 v :: rest => .w a v :: framesOf rest
  | .write8 0x03 :: .write8 a :: .xfer8 _ hi :: .xfer8 _ lo :: rest => .r a hi lo :: framesOf rest
  | _ :: rest => framesOf rest
  | [] => []

/-- The primitives an instruction emits. -/
def prims (i : Instr) (s : State) : Option (List Prim) := (after i s).map fun t => t.trace.map Event.prim

/-- The frames an instruction sends. -/
def frames (i : Instr) (s : State) : Option (List Frame) := (prims i s).map framesOf

/-- What an instruction answers. -/
def answer (i : Instr) (s : State) : Option Result := (after i s).bind State.result

/-- 95_test_vectors 2.1, rows 1 to 4 and 6. -/
theorem test_brackets :
    prims .controlModeOn base = some [.beginTxn, .pinWrite .dcs true, .pinWrite .cs false] ∧
    prims .controlModeOff (bracket false true) = some [.pinWrite .cs true, .pinWrite .dcs true, .endTxn] ∧
    prims .dataModeOn base = some [.beginTxn, .pinWrite .cs true, .pinWrite .dcs false] ∧
    prims .dataModeOff (bracket true false) = some [.pinWrite .dcs true, .pinWrite .cs true, .endTxn] ∧
    (after .controlModeOn (bracket false true)).map (fun t => (t.fault, t.trace)) = some (some .nestedTxn, []) := by
  decide +kernel

/-- 95_test_vectors 2.1, `waitReady` with draws 0, 0, 1. -/
theorem test_wait :
    prims .waitReady (scripted .output [] [false, false, true]) =
      some [.sampleDreq false, .yield, .sampleDreq false, .yield, .sampleDreq true] := by decide +kernel

/-- 95_test_vectors 2.2, wait placement. -/
theorem test_write_wait_placement :
    prims (.writeRegister 0x0B 0x2020) (scripted .output [] [false, true]) =
      some [.beginTxn, .pinWrite .dcs true, .pinWrite .cs false, .write8 0x02, .write8 0x0B, .write16 0x2020,
        .sampleDreq false, .yield, .sampleDreq true, .pinWrite .cs true, .pinWrite .dcs true, .endTxn] := by decide +kernel

/-- 95_test_vectors 2.2: the address goes out unchanged. -/
theorem test_write_high_address : frames (.writeRegister 0xFF 0x1234) base = some [.w 0xFF 0x1234] := by decide +kernel

/-- 95_test_vectors 2.2: the first byte captured is the high byte. -/
theorem test_read_high_first :
    answer (.readRegister 0x01) (scripted .output [0x12, 0x34] []) = some (okWord 0x1234) ∧
    frames (.readRegister 0x01) (scripted .output [0x12, 0x34] []) = some [.r 0x01 0x12 0x34] := by decide +kernel

theorem test_frames_alone :
    frames (.wrFrame 0x03 0x8001) base = some [.w 0x03 0x8001] ∧
    answer (.rdFrame 0x01) (scripted .output [0x00, 0x40] []) = some (okWord 0x0040) := by decide +kernel

/-- 95_test_vectors 2.2, the RAM compounds. -/
theorem test_wram :
    frames (.wramWrite 0x1E06 0x0000) base = some [.w 0x07 0x1E06, .w 0x06 0x0000] ∧
    frames (.wramRead 0x1E06) (scripted .output [0x00, 0x55] []) = some [.w 0x07 0x1E06, .r 0x06 0x00 0x55] ∧
    answer (.wramRead 0x1E06) (scripted .output [0x00, 0x55] []) = some (okWord 0x0055) := by decide +kernel

/-- 95_test_vectors 2.3, the full trace at length 33 with draws 1, 0, 1. -/
theorem test_send_33 :
    prims (.sendBuffer (List.replicate 33 0x11) 33) (scripted .output [] [true, false, true]) =
      some [.beginTxn, .pinWrite .cs true, .pinWrite .dcs false, .sampleDreq true,
        .writeBulk (List.replicate 32 0x11), .sampleDreq false, .yield, .sampleDreq true, .writeBulk [0x11],
        .pinWrite .dcs true, .pinWrite .cs true, .endTxn] := by decide +kernel

/-- The lengths of the chunks an instruction sends. -/
def chunkLengths (i : Instr) (s : State) : Option (List Nat) :=
  (prims i s).map fun ps => ps.filterMap fun p => match p with
    | .writeBulk bs => some bs.length
    | _ => none

/-- 95_test_vectors 2.3, lengths 64 and 70. -/
theorem test_send_lengths :
    chunkLengths (.sendBuffer (List.replicate 64 0) 64) base = some [32, 32] ∧
    chunkLengths (.sendBuffer (List.replicate 70 0) 70) base = some [32, 32, 6] := by decide +kernel

/-- 95_test_vectors 2.3, fillers. -/
theorem test_fillers :
    chunkLengths (.sendFillers 40) base = some [32, 8] ∧
    (prims (.sendFillers 10) base).map (fun ps => ps.contains (.writeBulk (List.replicate 10 0xA5))) = some true := by
  decide +kernel

/-- 95_test_vectors 2.3: expanded in Midi mode, unchanged in Output mode. -/
theorem test_write_audio :
    (after (.writeAudio [0x90, 0x3C] 2) (inMode .midi)).map (fun t => streamedBytes t.trace) =
      some [0x00, 0x90, 0x00, 0x3C] ∧
    (after (.writeAudio [0x11, 0x22, 0x33] 3) base).map (fun t => streamedBytes t.trace) =
      some [0x11, 0x22, 0x33] := by decide +kernel

theorem test_write_audio_chunks :
    chunkLengths (.writeAudio (List.replicate 17 0x40) 17) (inMode .midi) = some [32, 2] := by decide +kernel

/-- 95_test_vectors P5. -/
theorem test_midi_wrong_mode :
    prims (.sendMidiMessage 3 0x90 0x3C 0x7F) base = some [.log .warning .midiGuard] ∧
    answer (.sendMidiMessage 3 0x90 0x3C 0x7F) base = some (failResult .guardViolation) := by decide +kernel

/-- 95_test_vectors 2.3. -/
theorem test_midi_message :
    (after (.sendMidiMessage 2 0xC0 0x05 0x00) (inMode .midi)).map (fun t => streamedBytes t.trace) =
      some [0x00, 0xC0, 0x00, 0x05] ∧
    answer (.sendMidiMessage 4 0x90 0x3C 0x7F) (inMode .midi) = some (failResult .badOp) := by decide +kernel

/-- Inside an open bracket, the wait and the chunk (42 R75). -/
theorem test_data_chunk :
    prims (.dataChunk [0x11, 0x22]) (bracket true false) = some [.sampleDreq true, .writeBulk [0x11, 0x22]] := by decide +kernel

/-- 95_test_vectors P1. -/
theorem test_load_two_records :
    frames (.loadUserCode [0x0010, 0x8003, 0x55AA, 0x0020, 0x0002, 0x1111, 0x2222] 7) base =
      some [.w 0x10 0x55AA, .w 0x10 0x55AA, .w 0x10 0x55AA, .w 0x20 0x1111, .w 0x20 0x2222] := by decide +kernel

/-- 95_test_vectors P4. -/
theorem test_load_truncated :
    (after (.loadUserCode [0x0007, 0x0003, 0x1E06, 0xAAAA] 4) base).map
        (fun t => (t.result, t.fault, t.pIdx, t.pVal, t.busOwned)) =
      some (some { st := .fault (.patchMalformed 4 .outOfBounds), val := .absent }, some .patchMalformed, 4, 0xAAAA,
        false) := by decide +kernel

/-- 95_test_vectors 2.4: a count of 0, and a wide address. -/
theorem test_records :
    frames (.patchRle 0x0007 0 0x1234) base = some [] ∧
    frames (.patchRle 0x0010 2 0x55AA) base = some [.w 0x10 0x55AA, .w 0x10 0x55AA] ∧
    frames (.patchCopy 0x0020 [0x1111, 0x2222]) base = some [.w 0x20 0x1111, .w 0x20 0x2222] ∧
    answer (.patchCopy 0x0120 [0x1111]) base =
      some { st := .fault (.patchMalformed 0 .addressTooWide), val := .absent } := by decide +kernel

/-- 95_test_vectors P6, operation 1. -/
theorem test_capture_family_a :
    frames (.beginInput { rate := 8000, channels := 1, gain := 50, agc := 0, source := .mic, keepHeader := false })
        (withChip [(0x0, 0x0800), (0x1, 0x0030), (0x8, 0x1234), (0x9, 0x0003)]) =
      some [.w 0x0B 0x0000, .r 0x0B 0x00 0x00, .w 0x0B 0x0002, .r 0x0B 0x00 0x02,
        .w 0x0B 0x0000, .r 0x0B 0x00 0x00, .w 0x0B 0x0002, .r 0x0B 0x00 0x02,
        .w 0x03 0x8800, .w 0x05 0xAC45, .r 0x01 0x00 0x30, .w 0x07 0x1E06, .r 0x06 0x00 0x00,
        .w 0x07 0x8010, .w 0x06 0x0000, .w 0x06 0x0000,
        .w 0x03 0x2800, .w 0x0C 0x000C, .w 0x0D 0x0200, .r 0x00 0x08 0x00, .w 0x00 0x1800, .w 0x0A 0x0030] := by
  decide +kernel

/-- 95_test_vectors P6, the state after operation 1. -/
theorem test_capture_state :
    (after (.beginInput { rate := 8000, channels := 1, gain := 50, agc := 0, source := .mic, keepHeader := false })
        (withChip [(0x0, 0x0800), (0x1, 0x0030)])).map
        (fun t => (t.result, t.mode, t.family, t.recAchieved, t.initOk, t.pIdx)) =
      some (some (okNum 8000), .input, .familyA, 8000, true, 7) := by decide +kernel

/-- 44 R97, 60 R152; 95_test_vectors 2.8: a status word of ones; and no high sample in `STARTUP_POLLS`. -/
theorem test_init_verdicts :
    answer .chipInit (withChip [(0x1, 0x0040)]) = some okResult ∧
    answer .chipInit (startsLow [(0x1, 0x0040)]) = some (failResult .connectivityFailure) ∧
    answer .chipInit (withChip [(0x1, 0xFFFF)]) = some (failResult .connectivityFailure) ∧
    (after .chipInit (withChip [(0x1, 0x0048)])).map (fun t => (t.family, t.version)) = some (.familyB, 4) := by
  decide +kernel

/-- 95_test_vectors 2.8: a chip that never echoes; 44 R98: each phase logs its count. -/
theorem test_init_no_echo :
    (after .chipInit (scripted .notActive (List.replicate 40 0x30) [])).map (fun t => (t.stFail1, t.stFail2, t.result)) =
      some (2, 2, some (failResult .selfTestFailure)) ∧
    ((prims .chipInit (scripted .notActive (List.replicate 40 0x30) [])).map fun ps =>
      ps.filter fun p => decide (p = .log .error (.selfTest 1 2) ∨ p = .log .error (.selfTest 2 2))) =
      some [.log .error (.selfTest 1 2), .log .error (.selfTest 2 2)] := by decide +kernel

/-- 95_test_vectors 2.8: Output mode even after a failed check (D15). -/
theorem test_begin_output :
    (after .beginOutput (withChip [(0x1, 0x0040)])).map (fun t => (t.mode, t.result)) = some (.output, some okResult) ∧
    (after .beginOutput (withChip [(0x1, 0xFFFF)])).map (fun t => (t.mode, t.result)) =
      some (.output, some (failResult .connectivityFailure)) := by decide +kernel

/-- 95_test_vectors 2.8: verified on Family B, and a version of neither family. -/
theorem test_begin_midi :
    (after .beginMidi (withChip [(0x1, 0x0040)])).map (fun t => (t.mode, t.result)) = some (.midi, some okResult) ∧
    (after .beginMidi (withChip [(0x1, 0x0050)])).map (fun t => (t.mode, t.result)) =
      some (.notActive, some (failResult .unsupportedFamily)) := by decide +kernel

/-- 95_test_vectors 2.8, `end` and `softReset`. -/
theorem test_end :
    frames .endOp (scripted .input [0x18, 0x00, 0x08, 0x00] []) =
      some [.r 0x00 0x18 0x00, .w 0x00 0x0800, .r 0x00 0x08 0x00, .w 0x00 0x0804] ∧
    (after .endOp (scripted .input [0x18, 0x00, 0x08, 0x00] [])).map State.mode = some .input := by decide +kernel

theorem test_soft_reset :
    frames .softReset (scripted .output [0x08, 0x00] []) = some [.r 0x00 0x08 0x00, .w 0x00 0x0804] := by
  decide +kernel

/-- 95_test_vectors 2.8, the capture reads. -/
theorem test_available :
    answer .available (scripted .input [0x00, 0x03] []) = some (okNum 6) ∧
    answer .available (inMode .notActive) = some (okNum 0) := by decide +kernel

theorem test_read_bytes :
    (after (.readBytes 100 5) (scripted .input [0x00, 0x03, 0x12, 0x34, 0x12, 0x34] [])).map
        (fun t => (t.result, t.buf)) =
      some (some (okNum 4), [(100, 0x34), (101, 0x12), (102, 0x34), (103, 0x12)]) := by decide +kernel

theorem test_read_bytes_short :
    (after (.readBytes 0 1) (scripted .input [0x00, 0x03] [])).map (fun t => (t.result, t.buf)) =
      some (some (okNum 0), []) := by decide +kernel

/-- 95_test_vectors 2.5. -/
theorem test_solver_points :
    ([7999, 8000, 11025, 22050, 48001, 60000, 60001] : List Nat).map (solverPoint 12288000) =
      [some (0, 12), some (0, 12), some (2, 13), some (0, 4), some (5, 4), some (6, 4), none] := by decide +kernel

theorem test_solve_rate :
    answer (.solveRate 8001) base = some (okNum 8275) ∧ answer (.solveRate 60001) base = some solverMiss := by
  decide +kernel

/-- 95_test_vectors 2.6 and P3. -/
theorem test_bass :
    frames (.setBassAmplitude 200) { base with bassF := 100 } = some [.w 0x02 0x00FA] ∧
    frames (.setBassFrequencyLimit 150) base = some [.w 0x02 0x000F] ∧
    (after (.setBassFrequencyLimit 30000) base).map State.bassF = some 15000 := by decide +kernel

theorem test_treble :
    frames (.setTrebleAmplitude 50) base = some [.w 0x02 0x7000] ∧
    frames (.setTrebleFrequencyLimit 10000) { base with trebA := 50 } = some [.w 0x02 0x7A00] ∧
    (after (.setTrebleAmplitude (-1)) base).map State.trebA = some 0 := by decide +kernel

theorem test_eq_word : frames (.eqWord 7 10 15 15) base = some [.w 0x02 0x7AFF] := by decide +kernel

/-- 44 R104; 95_test_vectors 2.8. -/
theorem test_scalings :
    ([0, 1, 33, 50, 99, 100] : List Nat).map gain1024 = [0, 10, 337, 512, 1013, 1024] ∧
    ([0, 1, 33, 50, 99, 100] : List Nat).map agc65535 = [0, 655, 21626, 32767, 64879, 65535] := by decide

/-- 95_test_vectors 2.7: the stored values are clamped. -/
theorem test_volume :
    (after (.setVolume 150) base).map State.volume = some 100 ∧ (after (.setVolume (-5)) base).map State.volume = some 0 ∧
    (after (.setBalance (-300)) base).map State.balance = some (-100) := by decide +kernel

theorem test_get_state :
    answer (.getState .volume) { base with volume := 42 } = some (okNum 42) ∧
    prims (.getState .mode) base = some [] := by decide +kernel

/-- The state with one presentation at the port. -/
def presented (s : State) (p : Presenter) (f : Format) (bytes : List Byte) : State :=
  { s with pending := [{ presenter := p, format := f, bytes := bytes }] }

/-- The result and the trace after one step. -/
def stepped (s : State) : Option (Option Result × List Prim) :=
  match step s with
  | .next t => some (t.result, t.trace.map Event.prim)
  | .fault _ => none
  | .refused _ => none

/-- 95_test_vectors 2.9. -/
theorem test_port :
    stepped (presented base .host .host [0x15]) = some (some (failResult .badOp), []) ∧
    stepped (presented base .host .host [0x10]) = some (some (failResult .badOp), []) ∧
    stepped (presented base .host .host [0x76, 0x06]) = some (some { st := .ok, val := .mode .output }, []) ∧
    stepped (presented (inMode .input) .host .host [0x31, 0, 0, 0, 1]) = none := by decide +kernel

/-- Never below the request (45 R123; 95_test_vectors 2.5). -/
theorem test_solver_from_above : solverPoint 12288000 8001 = some (6, 29) := by decide +kernel

/-! ### Witnesses: every premise of every statement is met -/

/-- A well-formed instruction of each format; the stream's own clause at its longest chunk. -/
theorem witness_DecodeUndoesEncode :
    (Instr.patchCopy 0x0020 [0x1111, 0x2222]).wellFormed = true ∧ (Instr.patchCopy 0x0020 []).format ≠ .stream ∧
    (Instr.wrFrame 0xFF 0xFFFF).wellFormed = true ∧ (Instr.wrFrame 0xFF 0xFFFF).format ≠ .stream ∧
    (Instr.eqWord 15 15 15 15).wellFormed = true ∧ (Instr.eqWord 15 15 15 15).format ≠ .stream ∧
    (Instr.setBalance (-(2 ^ 31))).wellFormed = true ∧ (Instr.setBalance (-(2 ^ 31))).format ≠ .stream ∧
    (Instr.dataChunk (List.replicate 32 0)).wellFormed = true := by decide

theorem witness_RecordLengthFromCount :
    (0x8000 : Word).getLsbD 15 = true ∧ (0xFFFF : Word).getLsbD 15 = true ∧
    (0x0000 : Word).getLsbD 15 = false ∧ ([] : List Word).length = ((0x0000 : Word).extractLsb' 0 15).toNat ∧
    (0x0002 : Word).getLsbD 15 = false ∧
    ([0x1111, 0x2222] : List Word).length = ((0x0002 : Word).extractLsb' 0 15).toNat := by decide

theorem witness_ModeOnOpensBracket : base.busOwned = false ∧ (bracket false true).busOwned = true := by decide

theorem witness_ModeOffClosesBracket : (bracket true false).busOwned = true ∧ base.busOwned = false := by decide

theorem witness_FrameInsideBracketFaults : (bracket false true).busOwned = true := by decide

theorem witness_WaitPollsUntilHigh :
    (scripted .output [] [true]).env.ready = List.replicate 0 false ++ true :: [] ∧
    (scripted .output [] [false, false, true, false]).env.ready = List.replicate 2 false ++ true :: [false] ∧
    (dead 0).env.ready = List.replicate 0 false ∧ (dead 2).env.ready = List.replicate 2 false ∧
    (dead 2).env.readyAfter = .low := by decide

theorem witness_StuckFrameHangs :
    (dead 0).busOwned = false ∧ (dead 0).env.ready = List.replicate 0 false ∧
    (dead 3).env.ready = List.replicate 3 false ∧ (dead 3).env.readyAfter = .low := by decide

theorem witness_WriteRegisterSendsFrame :
    base.busOwned = false ∧ (base.env.take base.cfg.regMap 0xFF 0x1234).wait = (0, some base.env) ∧
    ((scripted .output [] [false, true]).env.take cfg.regMap 0x0B 0x2020).wait =
      (1, some (scripted .output [] []).env) := by decide

theorem witness_ReadRegisterReturnsCapture :
    base.busOwned = false ∧
    (scripted .output [0x12, 0x34] [false, true]).env.answer cfg.regMap 0x01 =
      (0x12, 0x34, (scripted .output [] [false, true]).env) ∧
    (scripted .output [] [false, true]).env.wait = (1, some (scripted .output [] []).env) := by decide

theorem witness_FramesRunWhole :
    base.busOwned = false ∧ (base.env.take base.cfg.regMap 0xFF 0x1234).wait = (0, some base.env) ∧
    (scripted .output [0x12, 0x34] [true]).env.answer cfg.regMap 0x01 = (0x12, 0x34, (scripted .output [] [true]).env) ∧
    (scripted .output [] [true]).env.wait = (0, some base.env) := by decide

theorem witness_RamCompoundsAreTwoFrames : base.busOwned = false ∧ base.readyAtOnce := ⟨rfl, rfl, rfl⟩

theorem witness_CompoundsComplete :
    (scripted .output [] [false, false]).busOwned = false ∧ (scripted .output [] [false, false]).waitsEnd := ⟨rfl, rfl⟩

theorem witness_RegisterOpsFrame :
    (∃ t, exec (.wrFrame 0xFF 0x1234) base = .next t) ∧ (∃ t, exec (.wramRead 0x1E06) base = .next t) ∧
    (∃ t, exec .controlModeOff (bracket false true) = .next t) ∧ (∃ t, exec .available (inMode .input) = .next t) :=
  ⟨⟨_, rfl⟩, ⟨_, rfl⟩, ⟨_, rfl⟩, ⟨_, rfl⟩⟩

theorem witness_SendBufferSendsChunks :
    base.busOwned = false ∧ base.readyAtOnce ∧ 0 ≤ ([] : List Byte).length ∧ 33 ≤ (List.replicate 33 (0 : Byte)).length :=
  ⟨rfl, ⟨rfl, rfl⟩, by decide, by decide⟩

theorem witness_SendBufferDeliversPayload :
    (scripted .output [] [false, true]).busOwned = false ∧ (scripted .output [] [false, true]).waitsEnd ∧
    33 ≤ (List.replicate 40 (0 : Byte)).length := ⟨rfl, rfl, by decide⟩

theorem witness_EmptyPayloadEmptyBracket : base.busOwned = false := rfl

theorem witness_SendFillersSendsEndFill : base.busOwned = false ∧ base.readyAtOnce := ⟨rfl, rfl, rfl⟩

theorem witness_DataChunkWaitsThenSends :
    1 ≤ ([0x11] : List Byte).length ∧ (List.replicate 32 (0 : Byte)).length ≤ 32 ∧
    (bracket true false).busOwned = true ∧ (bracket true false).cs = true ∧ (bracket true false).dcs = false ∧
    (bracket true false).env.wait = (0, some base.env) ∧ base.busOwned = false ∧ base.readyAtOnce :=
  ⟨by decide, by decide, rfl, rfl, rfl, rfl, rfl, rfl, rfl⟩

theorem witness_WriteAudioExpandsInMidi :
    base.busOwned = false ∧ base.readyAtOnce ∧ 17 ≤ (List.replicate 17 (0 : Byte)).length ∧
    (inMode .midi).mode = .midi ∧ base.mode ≠ .midi := ⟨rfl, ⟨rfl, rfl⟩, by decide, rfl, by decide⟩

theorem witness_MidiSendGuarded :
    1 ≤ (1 : Byte).toNat ∧ (3 : Byte).toNat ≤ 3 ∧ (inMode .notActive).mode ≠ .midi ∧ base.mode ≠ .midi := by decide

theorem witness_MidiSendFramesMessage :
    1 ≤ (1 : Byte).toNat ∧ (3 : Byte).toNat ≤ 3 ∧ (inMode .midi).mode = .midi ∧ (inMode .midi).busOwned = false ∧
    (inMode .midi).readyAtOnce ∧ (0 : Byte).toNat = 0 ∧ 3 < (4 : Byte).toNat :=
  ⟨by decide, by decide, rfl, rfl, ⟨rfl, rfl⟩, rfl, by decide⟩

theorem witness_StreamOpsFrame :
    (∃ t, exec (.dataChunk [0x11]) base = .next t) ∧ (∃ t, exec (.sendBuffer [0x11] 1) (inMode .input) = .next t) ∧
    (∃ t, exec (.sendFillers 40) base = .next t) ∧ (∃ t, exec (.writeAudio [0x11] 1) (inMode .midi) = .next t) ∧
    (∃ t, exec (.sendMidiMessage 0 0 0 0) base = .next t) :=
  ⟨⟨_, rfl⟩, ⟨_, rfl⟩, ⟨_, rfl⟩, ⟨_, rfl⟩, ⟨_, rfl⟩⟩

/-- The records of 95_test_vectors P1. -/
def records : List Instr := [.patchRle 0x0010 3 0x55AA, .patchCopy 0x00FF [0x1111, 0x2222], .patchCopy 0x0007 []]

theorem witness_LoaderExecutesRecords :
    base.busOwned = false ∧ base.readyAtOnce ∧ ∀ r ∈ records, isRecord r = true := ⟨rfl, ⟨rfl, rfl⟩, by decide⟩

theorem witness_TruncatedTableFaults :
    base.busOwned = false ∧ base.readyAtOnce ∧ (∀ r ∈ records, isRecord r = true) ∧ hiByte 0x00FF = 0 ∧
    (0x8000 : Word).getLsbD 15 = true ∧ (0x0001 : Word).getLsbD 15 = false ∧
    ([] : List Word).length < ((0x0001 : Word).extractLsb' 0 15).toNat ∧ (0x0003 : Word).getLsbD 15 = false ∧
    ([0x1111, 0x2222] : List Word).length < ((0x0003 : Word).extractLsb' 0 15).toNat :=
  ⟨rfl, ⟨rfl, rfl⟩, by decide, by decide, by decide, by decide, by decide, by decide, by decide⟩

theorem witness_WideAddressFaults :
    base.busOwned = false ∧ base.readyAtOnce ∧ (∀ r ∈ records, isRecord r = true) ∧ hiByte 0x0100 ≠ 0 :=
  ⟨rfl, ⟨rfl, rfl⟩, by decide, by decide⟩

theorem witness_RecordRunsAlone :
    base.busOwned = false ∧ base.readyAtOnce ∧ ([] : List Word).length < 2 ^ 15 ∧
    (List.replicate 32767 (0 : Word)).length < 2 ^ 15 ∧ hiByte 0x00FF = 0 ∧ hiByte 0x0100 ≠ 0 :=
  ⟨rfl, ⟨rfl, rfl⟩, by decide, by rw [List.length_replicate]; decide, by decide, by decide⟩

theorem witness_PatchOpsFrame :
    (∃ t, exec (.patchRle 0x0120 1 0) base = .next t) ∧ (∃ t, exec (.patchCopy 0x0020 [0x1111]) base = .next t) ∧
    (∃ t, exec (.loadUserCode [0x0010] 1) base = .next t) := ⟨⟨_, rfl⟩, ⟨_, rfl⟩, ⟨_, rfl⟩⟩

/-- The status word chip initialisation reads where the ready-signal first reads low `n` times (44 R96). -/
def statusRead (s : State) (n : Nat) : Word :=
  let a := (s.probed n).selfTested 1 s.cfg.stStep1
  let b := State.selfTested { a.1 with
    stFail1 := a.2, busClk := s.cfg.clkFast
    trace := a.1.trace ++ [⟨.setClock s.cfg.clkFast, a.1.cs, a.1.dcs⟩] } 2 s.cfg.stStep2
  ((State.wrote { b.1 with stFail2 := b.2 } (s.regAddr .clockf) s.cfg.clockfInit).wrote
    (s.regAddr .audata) s.cfg.audataInit).answered (s.regAddr .status)

/-- The first part's premises; the second's at no low sample and at `STARTUP_POLLS` of them; connected, and not for each
of the three reasons. -/
theorem witness_ChipInitCompletes :
    (scripted .output [] [false, false]).busOwned = false ∧ (scripted .output [] [false, false]).waitsEnd ∧
    (withChip []).busOwned = false ∧ (withChip []).env.ready = List.replicate 0 false ∧
    (withChip []).env.readyAfter = .high ∧ 0 < (withChip []).cfg.startupPolls ∧
    statusRead (withChip [(0x1, 0x0040)]) 0 = 0x0040 ∧ statusRead (withChip []) 0 = 0x0000 ∧
    statusRead (withChip [(0x1, 0xFFFF)]) 0 = 0xFFFF ∧
    (startsLow []).busOwned = false ∧ (startsLow []).env.ready = List.replicate 1 false ∧
    (startsLow []).env.readyAfter = .high ∧ 1 ≤ (startsLow []).cfg.startupPolls ∧
    ¬1 < (startsLow []).cfg.startupPolls :=
  ⟨rfl, rfl, rfl, rfl, rfl, by decide, by decide +kernel, by decide +kernel, by decide +kernel, rfl, rfl, rfl, by decide,
    by decide⟩

theorem witness_EchoingChipPassesSelfTest :
    (withChip []).busOwned = false ∧ (withChip []).waitsEnd ∧ (withChip []).env.chip = some { regs := [], ram := [] } :=
  ⟨rfl, rfl, rfl⟩

theorem witness_BeginMidiOutcomes : base.busOwned = false ∧ base.waitsEnd := ⟨rfl, rfl⟩

/-- Runs an operation and looks at its value and its state. -/
def ranWith {α : Type} (op : Op α) (s : State) (p : α → State → Bool) : Bool :=
  match op s with
  | .ok a t => p a t
  | .error _ _ => false

theorem ranWith_ok {α : Type} (op : Op α) (s : State) (p : α → State → Bool) (h : ranWith op s p = true) :
    ∃ a t, op s = .ok a t ∧ p a t = true := by
  unfold ranWith at h
  split at h
  · exact ⟨_, _, ‹_›, h⟩
  · cases h

/-- Runs an operation and looks whether it raises a fault. -/
def raises {α : Type} (op : Op α) (s : State) : Bool :=
  match op s with
  | .error (.raised _) _ => true
  | .error .hung _ => false
  | .ok _ _ => false

theorem raises_error {α : Type} (op : Op α) (s : State) (h : raises op s = true) :
    ∃ info t, op s = .error (.raised info) t := by
  unfold raises at h
  split at h
  · exact ⟨_, _, ‹_›⟩
  · cases h
  · cases h

/-- The family `chipInit` finds. -/
def familyAfter (s : State) : Option Family := (after .chipInit s).map State.family

/-- A Family B chip and a patch table to load. -/
def patching (table : List Word) : State :=
  { withChip [(0x1, 0x0040)] with cfg := { cfg with loadPatch := true, tables := { cfg.tables with patch := table } } }

/-- The state after the fillers of `beginOutput` (44 R101). -/
def filled (s u : State) : State :=
  { u with
    mode := .output, busOwned := false, cs := true, dcs := true, sRem := 0
    trace := u.trace ++ streamEvents u.cs u.dcs (chunksOf (List.replicate s.cfg.primeLen u.endFill) s.cfg.primeLen) }

/-- The first part's premises; the second's with no patch to load, with one that loads and with one cut short. -/
theorem witness_BeginOutputEntersOutput :
    (withChip []).busOwned = false ∧ (withChip []).waitsEnd ∧ (withChip []).readyAtOnce ∧
    (∃ u, exec .chipInit (withChip []) = .next u) ∧
    familyAfter (withChip [(0x1, 0x0030)]) = some .familyA ∧ (withChip [(0x1, 0x0040)]).cfg.loadPatch = false ∧
    (∃ r u, chipInit (withChip [(0x1, 0x0030)]) = .ok r u ∧ decide (u.family = .familyA) = true) ∧
    (∃ r u, chipInit (patching [0x0010, 0x8001, 0x55AA]) = .ok r u ∧
      ∃ x w, loadTable [0x0010, 0x8001, 0x55AA] (filled (patching [0x0010, 0x8001, 0x55AA]) u) = .ok x w ∧
        decide (u.family = .familyB) = true) ∧
    (∃ r u, chipInit (patching [0x0010]) = .ok r u ∧
      (decide (u.family = .familyB) && raises (loadTable [0x0010]) (filled (patching [0x0010]) u)) = true) := by
  refine ⟨rfl, rfl, ⟨rfl, rfl⟩, ⟨_, rfl⟩, by decide +kernel, rfl, ?_, ?_, ?_⟩
  · exact ranWith_ok chipInit (withChip [(0x1, 0x0030)]) (fun _ u => decide (u.family = .familyA)) (by decide +kernel)
  · obtain ⟨r, u, h1, h2⟩ := ranWith_ok chipInit (patching [0x0010, 0x8001, 0x55AA])
      (fun _ u => ranWith (loadTable [0x0010, 0x8001, 0x55AA]) (filled (patching [0x0010, 0x8001, 0x55AA]) u)
        fun _ _ => decide (u.family = .familyB)) (by decide +kernel)
    exact ⟨r, u, h1, ranWith_ok _ _ _ h2⟩
  · exact ranWith_ok chipInit (patching [0x0010])
      (fun _ u => decide (u.family = .familyB) && raises (loadTable [0x0010]) (filled (patching [0x0010]) u))
      (by decide +kernel)

theorem witness_BeginMidiVerifies :
    (withChip [(0x1, 0x0030)]).busOwned = false ∧ (withChip [(0x1, 0x0030)]).readyAtOnce ∧
    (∃ r u, chipInit (withChip [(0x1, 0x0030)]) = .ok r u ∧ ∃ x w, loadTable cfg.tables.midiA u = .ok x w ∧
      (decide (u.family = .familyA) &&
       decide ((w.wrote (w.regAddr .aiAddr) cfg.midiEntryA).answered (w.regAddr cfg.midiVerifyReg) = cfg.midiVerifyVal)) =
        true) ∧
    (∃ r u, chipInit (withChip [(0x1, 0x0040)]) = .ok r u ∧ ∃ x w, loadTable cfg.tables.midiB u = .ok x w ∧
      (decide (u.family = .familyB) &&
       decide ((w.wrote (w.regAddr .aiAddr) cfg.midiEntryB).answered (w.regAddr cfg.midiVerifyReg) = cfg.midiVerifyVal)) =
        true) := by
  refine ⟨rfl, ⟨rfl, rfl⟩, ?_, ?_⟩
  · obtain ⟨r, u, h1, h2⟩ := ranWith_ok chipInit (withChip [(0x1, 0x0030)])
      (fun _ u => ranWith (loadTable cfg.tables.midiA) u fun _ w =>
        decide (u.family = .familyA) &&
        decide ((w.wrote (w.regAddr .aiAddr) cfg.midiEntryA).answered (w.regAddr cfg.midiVerifyReg) =
          cfg.midiVerifyVal)) (by decide +kernel)
    exact ⟨r, u, h1, ranWith_ok _ _ _ h2⟩
  · obtain ⟨r, u, h1, h2⟩ := ranWith_ok chipInit (withChip [(0x1, 0x0040)])
      (fun _ u => ranWith (loadTable cfg.tables.midiB) u fun _ w =>
        decide (u.family = .familyB) &&
        decide ((w.wrote (w.regAddr .aiAddr) cfg.midiEntryB).answered (w.regAddr cfg.midiVerifyReg) =
          cfg.midiVerifyVal)) (by decide +kernel)
    exact ⟨r, u, h1, ranWith_ok _ _ _ h2⟩

theorem witness_BeginInputOutcomes : base.busOwned = false ∧ base.waitsEnd := ⟨rfl, rfl⟩

/-- The recording options of 95_test_vectors P6. -/
def options : RecOptions := { rate := 8000, channels := 1, gain := 50, agc := 0, source := .mic, keepHeader := false }

/-- A base clock at which no request can be met. -/
def slowClock : State := { withChip [(0x1, 0x0030)] with cfg := { cfg with baseClock := 1000000 } }

theorem witness_CaptureSetupFamilyA :
    (withChip [(0x1, 0x0030)]).busOwned = false ∧ (withChip [(0x1, 0x0030)]).readyAtOnce ∧
    (∃ r u, chipInit ((withChip [(0x1, 0x0030)]).withOptions options) = .ok r u ∧
      ∃ x w, loadTable cfg.tables.capA u = .ok x w ∧
        (decide (u.family = .familyA) && decide (solverPoint cfg.baseClock w.recRate = some (0, 12))) = true) ∧
    slowClock.busOwned = false ∧ slowClock.readyAtOnce ∧
    (∃ r u, chipInit (slowClock.withOptions options) = .ok r u ∧ ∃ x w, loadTable slowClock.cfg.tables.capA u = .ok x w ∧
      (decide (u.family = .familyA) && decide (solverPoint slowClock.cfg.baseClock w.recRate = none)) = true) := by
  refine ⟨rfl, ⟨rfl, rfl⟩, ?_, rfl, ⟨rfl, rfl⟩, ?_⟩
  · obtain ⟨r, u, h1, h2⟩ := ranWith_ok chipInit ((withChip [(0x1, 0x0030)]).withOptions options)
      (fun _ u => ranWith (loadTable cfg.tables.capA) u fun _ w =>
        decide (u.family = .familyA) && decide (solverPoint cfg.baseClock w.recRate = some (0, 12))) (by decide +kernel)
    exact ⟨r, u, h1, ranWith_ok _ _ _ h2⟩
  · obtain ⟨r, u, h1, h2⟩ := ranWith_ok chipInit (slowClock.withOptions options)
      (fun _ u => ranWith (loadTable slowClock.cfg.tables.capA) u fun _ w =>
        decide (u.family = .familyA) && decide (solverPoint slowClock.cfg.baseClock w.recRate = none)) (by decide +kernel)
    exact ⟨r, u, h1, ranWith_ok _ _ _ h2⟩

/-- The state Family B capture has programmed before it loads its microcode (44 R106). -/
def programmedB (u : State) : State :=
  let m := cfg.captureMapB
  let sel := if u.recCh = 1 then (if u.recSrc = .mic then m.chselMonoMic else m.chselMonoAux)
    else (if u.recSrc = .mic then m.chselStereoMic else m.chselStereoAux)
  ((((u.wrote (u.regAddr m.rateReg) (BitVec.ofNat 16 u.recRate)).wrote
    (u.regAddr m.gainReg) (BitVec.ofNat 16 (u.recGain * 1024 / 100))).wrote
    (u.regAddr m.agcReg) (BitVec.ofNat 16 (u.recAgc * 65535 / 100))).wrote
    (u.regAddr m.selReg) (sel ||| m.linearPcm)).modeBitsSet fun b =>
      if u.recSrc = .aux then b ||| (1#16 <<< cfg.bitRec.val) ||| (1#16 <<< cfg.bitLine.val)
      else b ||| (1#16 <<< cfg.bitRec.val)

theorem witness_CaptureSetupFamilyB :
    (withChip [(0x1, 0x0040)]).busOwned = false ∧ (withChip [(0x1, 0x0040)]).readyAtOnce ∧
    ∃ r u, chipInit ((withChip [(0x1, 0x0040)]).withOptions { options with source := .aux }) = .ok r u ∧
      ∃ x w, loadTable cfg.tables.capB (programmedB u) = .ok x w ∧ decide (u.family = .familyB) = true := by
  refine ⟨rfl, ⟨rfl, rfl⟩, ?_⟩
  obtain ⟨r, u, h1, h2⟩ := ranWith_ok chipInit ((withChip [(0x1, 0x0040)]).withOptions { options with source := .aux })
    (fun _ u => ranWith (loadTable cfg.tables.capB) (programmedB u) fun _ _ => decide (u.family = .familyB))
    (by decide +kernel)
  exact ⟨r, u, h1, ranWith_ok _ _ _ h2⟩

theorem witness_EndAndSoftReset : (inMode .input).busOwned = false ∧ (inMode .input).readyAtOnce := ⟨rfl, rfl, rfl⟩

theorem witness_CaptureReadsGuarded : (inMode .notActive).mode ≠ .input ∧ (inMode .midi).mode ≠ .input := by decide

theorem witness_CaptureReadsInInput :
    (inMode .input).mode = .input ∧ (inMode .input).busOwned = false ∧ (inMode .input).readyAtOnce := ⟨rfl, rfl, rfl, rfl⟩

theorem witness_ReadBytesStaysInBuffer :
    (∃ t, exec (.readBytes 100 5) (scripted .input [0x00, 0x03, 0x12, 0x34, 0x12, 0x34] []) = .next t) ∧
    answer (.readBytes 100 5) (scripted .input [0x00, 0x03, 0x12, 0x34, 0x12, 0x34] []) = some (okNum 4) :=
  ⟨⟨_, rfl⟩, by decide +kernel⟩

theorem witness_SolverNearestFromAbove :
    solverPoint 12288000 60000 = some (6, 4) ∧ solverPoint 12288000 22050 = some (0, 4) ∧
    (onGrid 6 4 ∧ rateAtLeast 12288000 60000 6 4) ∧ (onGrid 1 5 ∧ rateAtLeast 12288000 22050 1 5 ∧ rateLe 1 5 0 4) := by
  refine ⟨by decide +kernel, by decide +kernel, ?_, ?_⟩ <;> unfold onGrid rateAtLeast <;> (try unfold rateLe) <;> decide

theorem witness_SolverMissExactly : (0 < 12288000 ∨ 0 < 380) ∧ (0 < 0 ∨ 0 < 1) := by decide

theorem witness_SolveRateReports :
    solverPoint base.cfg.baseClock 8000 = some (0, 12) ∧ solverPoint base.cfg.baseClock 60001 = none := by decide +kernel

theorem witness_SolverAtSourceClock :
    base.cfg.baseClock = 12288000 ∧ (∃ t, exec (.solveRate 8001) base = .next t) ∧
    answer (.solveRate 8001) base = some (okNum 8275) := ⟨rfl, ⟨_, rfl⟩, by decide +kernel⟩

theorem witness_EqualizerSetters : base.busOwned = false ∧ base.readyAtOnce := ⟨rfl, rfl, rfl⟩

theorem witness_VolumeAndBalanceSetters : base.busOwned = false ∧ base.readyAtOnce := ⟨rfl, rfl, rfl⟩

theorem witness_SettersCompleteAndFrame :
    (scripted .output [] [false, false]).busOwned = false ∧ (scripted .output [] [false, false]).waitsEnd := ⟨rfl, rfl⟩

/-- 40 R64 (a), (c); 41 R69: a whole frame; a release after a low sample, a frame byte with the bus free and a second
acquisition are no brackets. -/
theorem test_brackets_checked :
    bracketAfter .closed (writeFrameEvents true true 0x0B 0x2020 2) = some .closed ∧
    bracketAfter .closed (controlOnEvents true true ++
      [⟨.write8 0x02, false, true⟩, ⟨.sampleDreq false, false, true⟩, ⟨.yield, false, true⟩] ++ controlOffEvents) = none ∧
    bracketAfter .closed [⟨.write8 0x02, false, true⟩] = none ∧
    bracketAfter .closed [⟨.beginTxn, true, true⟩, ⟨.beginTxn, true, true⟩] = none := by decide

theorem witness_StepKeepsInvariant :
    (presented base .host .host [0x21, 0x0B, 0x20, 0x20]).Inv ∧
    ∃ t, step (presented base .host .host [0x21, 0x0B, 0x20, 0x20]) = .next t := by
  refine ⟨⟨?_, ?_, rfl, ⟨rfl, rfl, rfl⟩, ⟨.closed, rfl, rfl, by decide⟩, rfl⟩, ⟨_, rfl⟩⟩
  · unfold State.inRange
    decide
  · unfold State.linesLegal
    decide

theorem witness_FaultStaysSet :
    (∃ t, step { base with fault := some .patchMalformed } = .next t) ∧
    ({ base with fault := some .patchMalformed } : State).fault.isSome = true := ⟨⟨_, rfl⟩, rfl⟩

/-- Each writer of the mode changes it somewhere. -/
theorem witness_ModeWriters :
    (after .beginOutput (withChip [])).map State.mode = some .output ∧ (withChip []).mode = .notActive ∧
    (after .beginMidi (withChip [(0x1, 0x0040)])).map State.mode = some .midi ∧
    (after (.beginInput options) (withChip [(0x1, 0x0030)])).map State.mode = some .input ∧
    (after .endOp { base with cfg := { cfg with endClearsMode := true } }).map State.mode = some .notActive := by
  decide +kernel

theorem witness_InitFieldWriters : ∃ t, exec (.writeRegister 0x0B 0x2020) base = .next t := ⟨_, rfl⟩

theorem witness_ModeMachineFrame :
    (∃ t, exec .chipInit base = .next t) ∧ (∃ t, exec .beginOutput base = .next t) ∧
    (∃ t, exec .beginMidi base = .next t) ∧ (∃ t, exec (.beginInput options) base = .next t) ∧
    (∃ t, exec .endOp base = .next t) := ⟨⟨_, rfl⟩, ⟨_, rfl⟩, ⟨_, rfl⟩, ⟨_, rfl⟩, ⟨_, rfl⟩⟩

theorem witness_HostOpsReleaseBus :
    hostVisible (.writeRegister 0x0B 0x2020) = true ∧ base.busOwned = false ∧ base.waiting = false ∧
    ∃ t, exec (.writeRegister 0x0B 0x2020) base = .next t := ⟨rfl, rfl, rfl, ⟨_, rfl⟩⟩

/-- The three clauses: a presentation that runs, an idle port, an operation that hangs. -/
theorem witness_StepRunsPresented :
    (presented base .host .host [0x76, 0x06]).waiting = false ∧
    (presented base .host .host [0x76, 0x06]).pending = [{ presenter := .host, format := .host, bytes := [0x76, 0x06] }] ∧
    decode .host [0x76, 0x06] = .ok (.getState .mode) [] ∧
    verdict .host (.getState .mode) (presented base .host .host [0x76, 0x06]) = .run ∧
    base.waiting = false ∧ base.pending = [] ∧ ({ base with waiting := true } : State).waiting = true := by decide

/-- The clauses: bytes that are no operation, an internal operation, and streaming in each mode that bars it. -/
theorem witness_PortRefuses :
    (presented base .host .host [0x15]).waiting = false ∧
    (presented base .host .host [0x15]).pending = [{ presenter := .host, format := .host, bytes := [0x15] }] ∧
    decode .host [0x15] = .rejected (.noOperation 0x15) ∧
    decode .host [0x10] = .ok .controlModeOn [] ∧ hostVisible .controlModeOn = false ∧
    decode .host [0x31, 0, 0, 0, 1] = .ok (.sendFillers 1) [] ∧
    (inMode .notActive).mode = .notActive ∧ (inMode .input).mode = .input := by decide

end Sys2Proof.Tests
end

section
/-!
SUPPORT. What a step can be, and what the instructions that need somebody else's bracket leave alone.
-/
namespace Sys2Proof.Machine

theorem fetch_waiting {s : State} (hw : s.waiting = true) : s.fetch = .poll := by
  simp [State.fetch, hw]

theorem fetch_awake {s : State} (hw : s.waiting = false) : s.fetch ≠ .poll := by
  unfold State.fetch
  rw [hw]
  rcases s.pending with _ | ⟨p, rest⟩
  · simp
  · cases hi : p.instr with
    | none => simp [hi]
    | some i => cases hv : verdict p.presenter i s <;> simp [hi, hv]

/-- Everything a step that answers a next state can be: one more poll, idling, a presentation answered `FAIL(BadOp)`, or
an instruction run where no operation hangs. -/
theorem step_cases {s t : State} (e : step s = .next t) :
    (s.waiting = true ∧ t = s.keepPolling) ∨ t = s ∨ (∃ rest, t = (s.withPending rest).badOp) ∨
      ∃ i rest, s.waiting = false ∧ exec i (s.withPending rest) = .next t := by
  unfold step at e
  cases hw : s.waiting with
  | true => rw [fetch_waiting hw] at e; cases e; exact .inl ⟨rfl, rfl⟩
  | false =>
    cases hf : s.fetch with
    | poll => exact absurd hf (fetch_awake hw)
    | idle => rw [hf] at e; cases e; exact .inr (.inl rfl)
    | badOp rest => rw [hf] at e; cases e; exact .inr (.inr (.inl ⟨rest, rfl⟩))
    | refuse => rw [hf] at e; cases e
    | run i rest => rw [hf] at e; exact .inr (.inr (.inr ⟨i, rest, rfl, e⟩))

/-- A relation that the bracket operations keep, each where it may run: a release only of an open bracket (40 R61, R63), a
chunk of a run only in data mode (42 R75). -/
structure BracketClosed (R : State → State → Prop) : Prop where
  controlOn : Keeps R controlModeOn
  dataOn : Keeps R dataModeOn
  controlOff : ∀ s : State, s.busOwned = true → R s (endState controlModeOff s)
  dataOff : ∀ s : State, s.busOwned = true → R s (endState dataModeOff s)
  wait : Keeps R waitReady
  chunk : ∀ ds (s : State), s.inDataMode = true → R s (endState (do waitReady; sendChunk ds ds.length) s)
  buffer : ∀ data len, Keeps R (sendBuffer data len)

/-- The next state of an operation that keeps a relation from this state. -/
theorem next_runOp_keeps {R : State → State → Prop} {op : Op Result} {s t : State}
    (e : (Host.Outcome.next (runOp op s) : Host.Outcome State Fault Refusal) = .next t) (h : R s (endState op s)) :
    ∃ u r, t = { u with result := r } ∧ R s u := by
  obtain ⟨r, hr⟩ := runOp_eq_endState op s
  exact ⟨_, r, (next_runOp e).symm.trans hr, h⟩

/-- The same for an operation whose value only goes into the result record. -/
theorem next_runOp_pure {R : State → State → Prop} {α : Type} {op : Op α} {f : α → Result} {s t : State}
    (e : (Host.Outcome.next (runOp (op >>= fun a => pure (f a)) s) : Host.Outcome State Fault Refusal) = .next t)
    (h : R s (endState op s)) : ∃ u r, t = { u with result := r } ∧ R s u :=
  next_runOp_keeps e (by rwa [endState_bind_pure op f])

/-- Every bracket operation keeps such a relation, up to the result record. -/
theorem exec_bracketOp_keeps {R : State → State → Prop} (b : BracketClosed R) (i : Instr) (hi : bracketOp i = true)
    {s t : State} (e : exec i s = .next t) : ∃ u r, t = { u with result := r } ∧ R s u := by
  cases i with
  | controlModeOn => exact next_runOp_pure e (b.controlOn s)
  | dataModeOn => exact next_runOp_pure e (b.dataOn s)
  | waitReady => exact next_runOp_pure e (b.wait s)
  | controlModeOff =>
    simp only [exec, execControlModeOff] at e
    split at e
    · next hb => exact next_runOp_pure e (b.controlOff s hb)
    · cases e
  | dataModeOff =>
    simp only [exec, execDataModeOff] at e
    split at e
    · next hb => exact next_runOp_pure e (b.dataOff s hb)
    · cases e
  | dataChunk ds =>
    simp only [exec, execDataChunk] at e
    split at e
    · cases e
    · split at e
      · next hd => rw [← bind_assoc] at e; exact next_runOp_pure e (b.chunk ds s hd)
      · exact next_runOp_pure e (b.buffer ds ds.length s)
  | _ => cases hi

end Sys2Proof.Machine
end

section
/-!
Reset, and the invariant at reset and under every step (O51, O52, O53).
-/
namespace Sys2Proof.Machine

/-- Settles O51: every field the table states is stated by the definition of reset, and nothing is presented. -/
theorem resetStatedValues : Obligations.ResetStatedValues :=
  ⟨rfl, rfl, rfl, rfl, rfl, rfl, rfl, rfl, rfl, rfl, rfl⟩

/-- A value cut to `k` bits fits `k` bits at any width. -/
theorem setWidth_setWidth_toNat_lt {n : Nat} (x : BitVec n) (k m : Nat) :
    ((x.setWidth k).setWidth m).toNat < 2 ^ k := by
  rw [BitVec.toNat_setWidth]
  exact (Nat.mod_le _ _).trans_lt (BitVec.isLt _)

/-- The draws of reset lie in the fields' ranges (log 1). -/
theorem reset_inRange : State.reset.inRange := by
  have hv := setWidth_setWidth_toNat_lt Config.resetDraw.version
    (Config.params.verHi.val - Config.params.verLo.val + 1) 16
  have ha := Config.resetDraw.recAchieved.isLt
  simp only [State.inRange, State.reset]
  omega

theorem reset_linesLegal : State.reset.linesLegal := by
  intro hb
  cases hb

/-- Settles O52: the draws are in range, the bus is free and nothing has happened. -/
theorem resetMeetsInvariant : Obligations.ResetMeetsInvariant :=
  ⟨reset_inRange, reset_linesLegal, rfl, ⟨rfl, rfl, rfl⟩, ⟨.closed, rfl, rfl, by simp [Bracket.unready]⟩, reset_buf_wf⟩

theorem clamp_zero_toNat_le (x : Int) (hi : Nat) : (clamp x 0 hi).toNat ≤ hi := by
  unfold clamp
  omega

/-- The settings of 10_state R16 and R20 may change inside their ranges. -/
theorem inv_settings (s : State) {ba bf ta tf v : Nat} {b : Int} (hba : ba = s.bassA ∨ ba ≤ 100)
    (hbf : bf = s.bassF ∨ bf ≤ 15000) (hta : ta = s.trebA ∨ ta ≤ 100) (htf : tf = s.trebF ∨ tf ≤ 15000)
    (hv : v = s.volume ∨ v ≤ 100) (hb : b = s.balance ∨ -100 ≤ b ∧ b ≤ 100) :
    KeepsInv s { s with bassA := ba, bassF := bf, trebA := ta, trebF := tf, volume := v, balance := b } :=
  fun h => h.frame fun hr => by
    unfold State.inRange at *
    simp only at *
    omega

/-- Storing a captured word keeps the buffer's memory canonical. -/
theorem inv_storeWord (at_ : Nat) (w : Word) : Keeps KeepsInv (storeWord at_ w) := by
  rintro s ⟨h1, h2, h3, h4, h5, h6⟩
  exact ⟨h1, h2, h3, h4, h5, Memory.write_wf _ _ _ (Memory.write_wf _ _ _ h6)⟩

/-- Every part of an instruction that opens and closes its own brackets keeps the invariant. -/
theorem inv_exec : ExecClosed KeepsInv where
  toChipClosed := inv_chip
  loader := inv_loader
  scratch _ _ _ _ _ h := h.frame id
  input := inv_beginInput
  store := inv_storeWord
  draw _ h := h.frame id
  modes _ _ h := h.frame id
  buffer := inv_sendBuffer
  fillers := inv_sendFillers
  bassA s x := inv_settings s (.inr (clamp_zero_toNat_le x 100)) (.inl rfl) (.inl rfl) (.inl rfl) (.inl rfl) (.inl rfl)
  bassF s x := inv_settings s (.inl rfl) (.inr (clamp_zero_toNat_le x 15000)) (.inl rfl) (.inl rfl) (.inl rfl) (.inl rfl)
  trebA s x := inv_settings s (.inl rfl) (.inl rfl) (.inr (clamp_zero_toNat_le x 100)) (.inl rfl) (.inl rfl) (.inl rfl)
  trebF s x := inv_settings s (.inl rfl) (.inl rfl) (.inl rfl) (.inr (clamp_zero_toNat_le x 15000)) (.inl rfl) (.inl rfl)
  volume s x := inv_settings s (.inl rfl) (.inl rfl) (.inl rfl) (.inl rfl) (.inr (clamp_zero_toNat_le x 100)) (.inl rfl)
  balance s x := inv_settings s (.inl rfl) (.inl rfl) (.inl rfl) (.inl rfl) (.inl rfl)
    (.inr (by unfold clamp; omega))

theorem State.Inv.bracketed {s : State} (h : s.Inv) : s.bracketed := by
  obtain ⟨-, -, -, -, hbr, -⟩ := h
  exact hbr

/-- Where no operation hangs, the invariant makes an open bracket one that may be closed. -/
theorem State.Inv.holding {s : State} (h : s.Inv) (hb : s.busOwned = true) (hw : s.waiting = false) : s.holding :=
  State.bracketed.holding h.bracketed hb hw

/-- The invariant is kept from where no operation hangs: there an open bracket is one that may be closed. -/
def KeepsInvAwake (s t : State) : Prop := s.waiting = false → KeepsInv s t

/-- The next chunk of a run in an open data bracket. -/
theorem inv_nextChunk (ds : List Byte) (s : State) (hd : s.inDataMode = true) :
    KeepsInvAwake s (endState (do waitReady; sendChunk ds ds.length) s) := by
  intro hw h
  simp only [State.inDataMode, Bool.and_eq_true, Bool.not_eq_true'] at hd
  obtain ⟨⟨hb, hc⟩, hdc⟩ := hd
  rcases inv_waitChunk ds s h ⟨hc, hdc, h.holding hb hw⟩ with ⟨n, e, hi⟩ | ⟨n, env, e, hi, _⟩
  · rw [endState_error (op_bind_error e)]
    exact hi
  · rw [endState, op_bind_ok e]
    exact hi.frame id

theorem inv_bracket : BracketClosed KeepsInvAwake where
  controlOn s _ := inv_controlModeOn s
  dataOn s _ := inv_dataModeOn s
  controlOff s hb hw h := inv_controlModeOff s (h.holding hb hw) h
  dataOff s hb hw h := inv_dataModeOff s (h.holding hb hw) h
  wait s _ := inv_waitReady s
  chunk := inv_nextChunk
  buffer data len s _ := inv_sendBuffer data len s

/-- Every instruction keeps the invariant where no operation hangs. -/
theorem exec_keeps_inv (i : Instr) {s t : State} (hw : s.waiting = false) (e : exec i s = .next t) (h : s.Inv) :
    t.Inv := by
  cases hi : bracketOp i with
  | true =>
    obtain ⟨u, r, rfl, hu⟩ := exec_bracketOp_keeps inv_bracket i hi e
    exact (hu hw h).frame id
  | false =>
    obtain ⟨u, r, rfl, hu⟩ := exec_keeps inv_exec i hi e
    exact (hu h).frame id

/-- One more poll of an operation that hangs keeps the invariant. -/
theorem inv_keepPolling (s : State) : KeepsInv s s.keepPolling :=
  (Segment.lowPoll s.cs s.dcs).inv rfl id rfl id ((Neutral.lowPolls s.cs s.dcs 1).bracketed rfl rfl id)

/-- Settles O53: a poll adds a low sample with its yield, the port's answers change no field of the invariant, and an
instruction runs only where no operation hangs. -/
theorem stepKeepsInvariant : Obligations.StepKeepsInvariant := by
  intro s t h e
  rcases step_cases e with ⟨_, rfl⟩ | rfl | ⟨rest, rfl⟩ | ⟨i, rest, hw, e⟩
  · exact inv_keepPolling s h
  · exact h
  · exact h.frame id
  · exact exec_keeps_inv i (s := s.withPending rest) hw e (h.frame id)

end Sys2Proof.Machine
end

section
/-!
The sticky fault (O54).
-/
namespace Sys2Proof.Machine

/-- A fault that is set stays set. -/
def KeepsFault (s t : State) : Prop := s.fault.isSome = true → t.fault.isSome = true

theorem fault_frames : FrameClosed KeepsFault where
  refl _ := id
  trans _ _ _ h1 h2 := h2 ∘ h1
  write a v s := by
    rcases writeRegister_cases a v s with ⟨_, e⟩ | ⟨_, n, env, _, e⟩ | ⟨_, n, _, e⟩
    · rw [endState_error e]; exact fun _ => rfl
    · rw [endState_ok e]; exact id
    · rw [endState_error e]; exact id
  read a s := by
    rcases readRegister_cases a s with ⟨_, e⟩ | ⟨_, n, env, _, e⟩ | ⟨_, n, _, e⟩
    · rw [endState_error e]; exact fun _ => rfl
    · rw [endState_ok e]; exact id
    · rw [endState_error e]; exact id
  log _ _ := id
  fault _ _ _ := rfl

theorem fault_beginTxn : Keeps KeepsFault beginTxn := by
  intro s
  cases hb : s.busOwned with
  | true => rw [endState_error (beginTxn_owned s hb)]; exact fun _ => rfl
  | false => rw [endState_ok (beginTxn_free s hb)]; exact id

theorem fault_emit (p : Prim) : Keeps KeepsFault (emit p) := fun _ => id

theorem fault_pinWrite (p : Pin) (l : Bool) : Keeps KeepsFault (pinWrite p l) := by
  cases p <;> exact fun _ => id

theorem fault_waitReady : Keeps KeepsFault waitReady := by
  intro s
  rcases hw : s.env.wait with ⟨n, _ | e⟩
  · rw [endState_error (waitReady_never s hw)]; exact id
  · rw [endState_ok (waitReady_high s hw)]; exact id

theorem fault_controlModeOn : Keeps KeepsFault controlModeOn :=
  fault_frames.bind fault_beginTxn fun _ => fault_frames.bind (fault_pinWrite _ _) fun _ => fault_pinWrite _ _

theorem fault_dataModeOn : Keeps KeepsFault dataModeOn :=
  fault_frames.bind fault_beginTxn fun _ => fault_frames.bind (fault_pinWrite _ _) fun _ => fault_pinWrite _ _

theorem fault_dataModeOff : Keeps KeepsFault dataModeOff := fun s => by
  rw [endState_ok (dataModeOff_run s)]; exact id

theorem fault_sendChunk (ds : List Byte) (c : Nat) : Keeps KeepsFault (sendChunk ds c) := fun _ => id

theorem fault_sendLoop (data : List Byte) (fuel : Nat) : Keeps KeepsFault (sendLoop data fuel) := by
  have h := fault_frames
  induction fuel with
  | zero => exact h.pure _
  | succ n ih =>
    exact h.bind h.get fun _ => Keeps.ite (h.pure _)
      (h.bind fault_waitReady fun _ => h.bind (fault_sendChunk _ _) fun _ => ih)

theorem fault_fillLoop (fuel : Nat) : Keeps KeepsFault (fillLoop fuel) := by
  have h := fault_frames
  induction fuel with
  | zero => exact h.pure _
  | succ n ih =>
    exact h.bind h.get fun _ => Keeps.ite (h.pure _)
      (h.bind fault_waitReady fun _ => h.bind (fault_emit _) fun _ => h.bind (keeps_modify fun _ => id) fun _ => ih)

/-- A loop that keeps a set fault, in its data bracket. -/
theorem fault_dataRun {g : State → State} (hg : ∀ s, KeepsFault s (g s)) {loop : Op Unit} (hl : Keeps KeepsFault loop) :
    Keeps KeepsFault (do modify g; dataModeOn; loop; dataModeOff) :=
  fault_frames.bind (keeps_modify hg) fun _ => fault_frames.bind fault_dataModeOn fun _ =>
    fault_frames.bind hl fun _ => fault_dataModeOff

theorem fault_sendBuffer (data : List Byte) (len : Nat) : Keeps KeepsFault (sendBuffer data len) :=
  fault_dataRun (g := fun s => { s with sPos := 0, sRem := len }) (fun _ => id) (fault_sendLoop data len)

theorem fault_sendFillers (len : Nat) : Keeps KeepsFault (sendFillers len) :=
  fault_dataRun (g := fun s => { s with sRem := len }) (fun _ => id) (fault_fillLoop len)

theorem fault_connectivityCheck (n : Nat) : Keeps KeepsFault (connectivityCheck n) := by
  have h := fault_frames
  have sample : Keeps KeepsFault sampleDreq := fun _ => id
  induction n with
  | zero => exact h.pure _
  | succ n ih =>
    exact h.bind sample fun _ => Keeps.ite (h.pure _) (h.bind (fault_emit _) fun _ => ih)

theorem fault_chip : ChipClosed KeepsFault where
  toFrameClosed := fault_frames
  pins s := by rw [endState_ok (resetPins_run s)]; exact id
  check := fault_connectivityCheck
  clock _ _ := id
  fields _ _ _ _ _ _ _ _ := id

theorem fault_exec : ExecClosed KeepsFault where
  toChipClosed := fault_chip
  loader _ _ _ _ _ _ := id
  scratch _ _ _ _ _ := id
  input o := keeps_beginInput fault_chip (fun _ _ _ _ _ _ => id) (fun _ _ => id) (fun _ _ _ _ _ => id) (fun _ => id) o
    fun _ => id
  store _ _ _ := id
  draw _ := id
  modes _ _ := id
  buffer := fault_sendBuffer
  fillers := fault_sendFillers
  bassA _ _ := id
  bassF _ _ := id
  trebA _ _ := id
  trebF _ _ := id
  volume _ _ := id
  balance _ _ := id

theorem fault_bracket : BracketClosed KeepsFault where
  controlOn := fault_controlModeOn
  dataOn := fault_dataModeOn
  controlOff s _ := by rw [endState_ok (controlModeOff_run s)]; exact id
  dataOff s _ := fault_dataModeOff s
  wait := fault_waitReady
  chunk ds s _ := fault_frames.bind fault_waitReady (fun _ => fault_sendChunk ds ds.length) s
  buffer := fault_sendBuffer

/-- No instruction clears a fault. -/
theorem exec_keeps_fault (i : Instr) {s t : State} (e : exec i s = .next t) : KeepsFault s t := by
  cases hi : bracketOp i with
  | true =>
    obtain ⟨u, r, rfl, hu⟩ := exec_bracketOp_keeps fault_bracket i hi e
    exact hu
  | false =>
    obtain ⟨u, r, rfl, hu⟩ := exec_keeps fault_exec i hi e
    exact hu

/-- Settles O54: only raising a fault writes the field, and it writes a code. -/
theorem faultStaysSet : Obligations.FaultStaysSet := by
  refine ⟨rfl, fun s t e hf => ?_⟩
  rcases step_cases e with ⟨_, rfl⟩ | rfl | ⟨rest, rfl⟩ | ⟨i, rest, _, e⟩
  · exact hf
  · exact hf
  · exact hf
  · exact exec_keeps_fault i e hf

end Sys2Proof.Machine
end

section
/-!
Who writes the fields of chip initialisation (O56): the frame of every instruction outside the mode machine, for any
relation that says nothing about the fields those instructions write.
-/
namespace Sys2Proof.Machine

/-- The instructions that initialise the chip, enter a mode or leave it (44 R96, R101 to R103, R108). -/
def modeMachineOp : Instr → Bool
  | .chipInit => true
  | .beginOutput => true
  | .beginMidi => true
  | .beginInput _ => true
  | .endOp => true
  | _ => false

/-- A relation that says nothing about the transport's fields, the loader's and the engine's registers, the solver's
scratch, the settings and the capture buffer. -/
structure PlainClosed (R : State → State → Prop) : Prop extends TransportClosed R where
  loader : ∀ (s : State) i l a c v, R s { s with pIdx := i, pLen := l, pAddr := a, pCnt := c, pVal := v }
  scratch : ∀ (s : State) d k v f, R s { s with bestDiff := d, bestK := k, bestDiv := v, bestFound := f }
  cursor : ∀ (s : State) p r, R s { s with sPos := p, sRem := r }
  settings : ∀ (s : State) ba bf ta tf v b,
    R s { s with bassA := ba, bassF := bf, trebA := ta, trebF := tf, volume := v, balance := b }
  store : ∀ (s : State) m, R s { s with buf := m }

section
variable {R : State → State → Prop} (c : PlainClosed R)
include c

theorem PlainClosed.bracket : BracketClosed R where
  controlOn := moves_controlModeOn c.toTransportClosed
  dataOn := moves_dataModeOn c.toTransportClosed
  controlOff s _ := moves_controlModeOff c.toTransportClosed s
  dataOff s _ := moves_dataModeOff c.toTransportClosed s
  wait := moves_waitReady c.toTransportClosed
  chunk ds s _ := c.toTransportClosed.bind (moves_waitReady c.toTransportClosed)
    (fun _ => moves_sendChunk c.toTransportClosed c.cursor ds ds.length) s
  buffer := moves_sendBuffer c.toTransportClosed c.cursor

/-- A setter: the setting is stored, then a register is written. -/
theorem PlainClosed.setter {g : State → State} (hg : ∀ s, R s (g s)) {w : Op Unit} (hw : Keeps R w) :
    Keeps R (do modify g; w; return okResult) :=
  have h := c.toTransportClosed
  h.bind (keeps_modify hg) fun _ => h.bind hw fun _ => h.pure _

theorem PlainClosed.patchRle (a : Word) (n : BitVec 15) (v : Word) :
    Keeps R (do takeAddress a; takeCount (1#1 ++ n); takeValue v; repeatWrite n.toNat; return okResult) :=
  have h := c.toTransportClosed.frames
  h.bind (keeps_takeAddress h c.loader _) fun _ => h.bind (keeps_takeCount c.loader _) fun _ =>
    h.bind (keeps_takeValue c.loader _) fun _ => h.bind (keeps_repeatWrite h _) fun _ => h.pure _

theorem PlainClosed.patchCopy (a count : Word) (vs : List Word) :
    Keeps R (do takeAddress a; takeCount count; copyValues vs; return okResult) :=
  have h := c.toTransportClosed.frames
  h.bind (keeps_takeAddress h c.loader _) fun _ => h.bind (keeps_takeCount c.loader _) fun _ =>
    h.bind (keeps_copyValues h c.loader _) fun _ => h.pure _

/-- Every instruction outside the mode machine keeps such a relation, up to the result record. `exec_keeps` cannot say
it: its relations are kept by chip initialisation and by every change of the mode, too. -/
theorem exec_plain_keeps (i : Instr) (hi : modeMachineOp i = false) {s t : State} (e : exec i s = .next t) :
    ∃ u r, t = { u with result := r } ∧ R s u := by
  have h := c.toTransportClosed.frames
  have buffer := moves_sendBuffer c.toTransportClosed c.cursor
  have fillers := moves_sendFillers c.toTransportClosed fun s r => c.cursor s s.sPos r
  cases i with
  | dataChunk => exact exec_bracketOp_keeps c.bracket _ rfl e
  | controlModeOn => exact exec_bracketOp_keeps c.bracket _ rfl e
  | controlModeOff => exact exec_bracketOp_keeps c.bracket _ rfl e
  | dataModeOn => exact exec_bracketOp_keeps c.bracket _ rfl e
  | dataModeOff => exact exec_bracketOp_keeps c.bracket _ rfl e
  | waitReady => exact exec_bracketOp_keeps c.bracket _ rfl e
  | wrFrame a v => exact next_runOp_pure e (h.write a v s)
  | rdFrame a => exact next_runOp_pure e (h.read a s)
  | patchRle a n v => exact next_runOp_keeps e (c.patchRle a n v s)
  | patchCopy a vs =>
    simp only [exec, execPatchCopy] at e
    split at e
    · exact next_runOp_keeps e (c.patchCopy a _ vs s)
    · cases e
  | eqWord ta tf ba bf => exact next_runOp_pure e (keeps_writeNamed h _ _ s)
  | readRegister a => exact next_runOp_pure e (h.read a s)
  | writeRegister a v => exact next_runOp_pure e (h.write a v s)
  | wramWrite addr v => exact next_runOp_pure e (keeps_wramWrite h addr v s)
  | wramRead addr => exact next_runOp_pure e (keeps_wramRead h addr s)
  | sendBuffer data len =>
    simp only [exec, execSendBuffer] at e
    split at e
    · cases e
    · exact next_runOp_pure e (buffer data len s)
  | sendFillers len => exact next_runOp_pure e (fillers len s)
  | writeAudio data len =>
    simp only [exec, execWriteAudio] at e
    split at e
    · cases e
    · exact next_runOp_pure e (keeps_writeAudio h buffer data len s)
  | sendMidiMessage n b0 b1 b2 => exact next_runOp_keeps e (keeps_sendMidiMessage h buffer n b0 b1 b2 s)
  | loadUserCode words plen =>
    simp only [exec, execLoadUserCode] at e
    split at e
    · cases e
    · exact next_runOp_pure e (keeps_loadUserCode h c.loader words plen s)
  | chipInit => cases hi
  | beginOutput => cases hi
  | beginMidi => cases hi
  | beginInput => cases hi
  | endOp => cases hi
  | available => exact next_runOp_pure e (keeps_available h s)
  | readBytes buf n => exact next_runOp_pure e (keeps_readBytes h (fun _ _ s => c.store s _) buf n s)
  | softReset => exact next_runOp_pure e (keeps_softReset h s)
  | solveRate target =>
    refine next_runOp_keeps e (h.bind (keeps_solve c.scratch target) (fun p => ?_) s)
    cases p with
    | some p => exact h.pure _
    | none => exact h.pure _
  | setBassAmplitude x => exact next_runOp_keeps e (c.setter (fun s => c.settings s _ _ _ _ _ _) (keeps_writeEq h) s)
  | setBassFrequencyLimit x => exact next_runOp_keeps e (c.setter (fun s => c.settings s _ _ _ _ _ _) (keeps_writeEq h) s)
  | setTrebleAmplitude x => exact next_runOp_keeps e (c.setter (fun s => c.settings s _ _ _ _ _ _) (keeps_writeEq h) s)
  | setTrebleFrequencyLimit x =>
    exact next_runOp_keeps e (c.setter (fun s => c.settings s _ _ _ _ _ _) (keeps_writeEq h) s)
  | setVolume x => exact next_runOp_keeps e (c.setter (fun s => c.settings s _ _ _ _ _ _) (keeps_writeVolume h) s)
  | setBalance x => exact next_runOp_keeps e (c.setter (fun s => c.settings s _ _ _ _ _ _) (keeps_writeVolume h) s)
  | getState sel => exact next_runOp_pure e (h.get s)

end

/-- The fields of chip initialisation, the reset line and the clock are the same. -/
def KeepsInitFields (s t : State) : Prop :=
  t.family = s.family ∧ t.version = s.version ∧ t.endFill = s.endFill ∧ t.initOk = s.initOk ∧
    t.stFail1 = s.stFail1 ∧ t.stFail2 = s.stFail2 ∧ t.rst = s.rst ∧ t.busClk = s.busClk

theorem KeepsInitFields.refl (s : State) : KeepsInitFields s s := ⟨rfl, rfl, rfl, rfl, rfl, rfl, rfl, rfl⟩

theorem initFields_plain : PlainClosed KeepsInitFields where
  refl := .refl
  trans _ _ _ h1 h2 := by
    unfold KeepsInitFields at *
    simp only [h1, h2, and_self]
  move s _ _ _ _ _ _ _ := .refl s
  loader s _ _ _ _ _ := .refl s
  scratch s _ _ _ _ := .refl s
  cursor s _ _ := .refl s
  settings s _ _ _ _ _ _ := .refl s
  store s _ := .refl s

/-- Settles O56: outside the mode machine no instruction writes these fields, and `end` writes only the mode. -/
theorem initFieldWriters : Obligations.InitFieldWriters := by
  intro i s t e
  cases hi : modeMachineOp i with
  | false =>
    obtain ⟨u, r, rfl, hu⟩ := exec_plain_keeps initFields_plain i hi e
    exact .inr (.inr (.inr (.inr hu)))
  | true =>
    cases i with
    | chipInit => exact .inl rfl
    | beginOutput => exact .inr (.inl rfl)
    | beginMidi => exact .inr (.inr (.inl rfl))
    | beginInput o => exact .inr (.inr (.inr (.inl ⟨o, rfl⟩)))
    | endOp =>
      have hk : Keeps KeepsInitFields endSession :=
        keeps_endSession initFields_plain.toTransportClosed.frames fun s _ => .refl s
      obtain ⟨u, r, rfl, hu⟩ := next_runOp_pure e (hk s)
      exact .inr (.inr (.inr (.inr hu)))
    | _ => cases hi

end Sys2Proof.Machine
end

section
/-!
Decoding undoes encoding (O1, O2, O3): the operand readers with the field checks of `Instr.wellFormed`, then one lemma
per format.
-/
namespace Sys2Proof

theorem readNat_of_fits {n : Nat} (h : fits32 n = true) (rest : List Byte) (k : Nat → List Byte → Decoded) :
    readNat (natBytes n ++ rest) k = k n rest :=
  readNat_natBytes n (of_decide_eq_true h) rest k

theorem readInt_of_fits {v : Int} (h : fitsInt32 v = true) (rest : List Byte) (k : Int → List Byte → Decoded) :
    readInt (intBytes v ++ rest) k = k v rest := by
  simp only [fitsInt32, Bool.and_eq_true, decide_eq_true_eq] at h
  exact readInt_intBytes v h.1 h.2 rest k

/-- The two one-byte options read back as themselves: only a byte the encoder does not write is clamped (log 7). -/
theorem sourceOf_sourceByte (o : Source) : sourceOf (sourceByte o) = o := by
  cases o <;> rfl

theorem keepHeader_byte (b : Bool) : decide (BitVec.ofNat 8 b.toNat ≠ 0) = b := by
  cases b <;> rfl

theorem decodeOptions_optionBytes {o : RecOptions} (h : o.wellFormed = true) (rest : List Byte)
    (k : RecOptions → List Byte → Decoded) : decodeOptions (optionBytes o ++ rest) k = k o rest := by
  simp only [RecOptions.wellFormed, Bool.and_eq_true, decide_eq_true_eq] at h
  obtain ⟨⟨⟨hrate, hch⟩, hgain⟩, hagc⟩ := h
  have hch' : (BitVec.ofNat 8 o.channels).toNat = o.channels := by
    rw [BitVec.toNat_ofNat, Nat.mod_eq_of_lt hch]
  simp only [decodeOptions, optionBytes, List.append_assoc, List.cons_append, List.nil_append, readByte,
    readNat_of_fits hrate, readInt_of_fits hgain, readInt_of_fits hagc, hch', sourceOf_sourceByte, keepHeader_byte]

/-- The nibbles of four joined from bit 15 down. -/
theorem nibbles_append (ta tf ba bf : BitVec 4) :
    (ta ++ tf ++ ba ++ bf).extractLsb' 12 4 = ta ∧ (ta ++ tf ++ ba ++ bf).extractLsb' 8 4 = tf ∧
    (ta ++ tf ++ ba ++ bf).extractLsb' 4 4 = ba ∧ (ta ++ tf ++ ba ++ bf).extractLsb' 0 4 = bf := by
  refine ⟨?_, ?_, ?_, BitVec.extractLsb'_append_eq_right⟩
  · rw [BitVec.extractLsb'_append_eq_of_le (by decide), BitVec.extractLsb'_append_eq_of_le (by decide)]
    exact BitVec.extractLsb'_append_eq_left
  · rw [BitVec.extractLsb'_append_eq_of_le (by decide), BitVec.extractLsb'_append_eq_of_le (by decide)]
    exact BitVec.extractLsb'_append_eq_right
  · rw [BitVec.extractLsb'_append_eq_of_le (by decide)]
    exact BitVec.extractLsb'_append_eq_right

/-- A count word with bit 15 set makes an RLE record: one more word, whatever follows (30 R50, R52). -/
theorem decodePatch_rle {count : Word} (h : count.getLsbD 15 = true) (a v : Word) (rest : List Byte) :
    decode .patch (wordBytes a ++ wordBytes count ++ wordBytes v ++ rest) =
      .ok (.patchRle a (count.extractLsb' 0 15) v) rest := by
  simp only [decode, decodePatch, List.append_assoc, readWord_wordBytes, h, if_true]

/-- A count word with bit 15 clear makes a copy record of as many words as it counts (30 R51, R52). -/
theorem decodePatch_copy {count : Word} (h : count.getLsbD 15 = false) (a : Word) {vs : List Word}
    (hvs : vs.length = (count.extractLsb' 0 15).toNat) (rest : List Byte) :
    decode .patch (wordBytes a ++ wordBytes count ++ wordsBytes vs ++ rest) = .ok (.patchCopy a vs) rest := by
  simp only [decode, decodePatch, List.append_assoc, readWord_wordBytes, h, ← hvs, readWords_wordsBytes]
  rfl

/-- The top bit of a count word is the flag the encoder puts there. -/
theorem countWord_flag (b : BitVec 1) (n : BitVec 15) : (b ++ n).getLsbD 15 = b.getLsbD 0 :=
  BitVec.getLsbD_append

theorem decode_encode_frame {i : Instr} (hf : i.format = .frame) (rest : List Byte) :
    decode .frame (encode i ++ rest) = .ok i rest := by
  cases i with
  | wrFrame a v =>
    simp only [decode, decodeFrame, encode, List.cons_append, readByte, readWord_wordBytes, if_true]
  | rdFrame a => rfl
  | _ => cases hf

theorem decode_encode_patch {i : Instr} (hf : i.format = .patch) (hw : i.wellFormed = true) (rest : List Byte) :
    decode .patch (encode i ++ rest) = .ok i rest := by
  cases i with
  | patchRle a n v =>
    have h := decodePatch_rle (count := 1#1 ++ n) (countWord_flag 1#1 n) a v rest
    rwa [BitVec.extractLsb'_append_eq_right] at h
  | patchCopy a vs =>
    refine decodePatch_copy (countWord_flag 0#1 _) a ?_ rest
    rw [BitVec.extractLsb'_append_eq_right, BitVec.toNat_ofNat, Nat.mod_eq_of_lt (of_decide_eq_true hw)]
  | _ => cases hf

theorem decode_encode_regValue {i : Instr} (hf : i.format = .regValue) (rest : List Byte) :
    decode .regValue (encode i ++ rest) = .ok i rest := by
  cases i with
  | eqWord ta tf ba bf =>
    obtain ⟨h3, h2, h1, h0⟩ := nibbles_append ta tf ba bf
    simp only [decode, decodeRegValue, encode, readWord_wordBytes, h3, h2, h1, h0]
  | _ => cases hf

/-- Reader `r` takes the bytes `bs` for the operand `x` and hands on what follows them. -/
def Reads {α : Type} (r : List Byte → (α → List Byte → Decoded) → Decoded) (bs : List Byte) (x : α) : Prop :=
  ∀ rest k, r (bs ++ rest) k = k x rest

/-- A host operation whose operands are read by one reader. -/
theorem decodeHost_one {α : Type} {r : List Byte → (α → List Byte → Decoded) → Decoded} {code : Byte}
    {bs : List Byte} {x : α} (mk : α → Instr) (hx : Reads r bs x)
    (hc : ∀ bs, decodeHost (code :: bs) = r bs fun x rest => .ok (mk x) rest) (rest : List Byte) :
    decodeHost (code :: (bs ++ rest)) = .ok (mk x) rest := by
  rw [hc, hx]

/-- A host operation of two readers; the second may depend on the first operand, as a payload does on its length. -/
theorem decodeHost_two {α β : Type} {r : List Byte → (α → List Byte → Decoded) → Decoded}
    {q : α → List Byte → (β → List Byte → Decoded) → Decoded} {code : Byte} {bs cs : List Byte} {x : α} {y : β}
    (mk : α → β → Instr) (hx : Reads r bs x) (hy : Reads (q x) cs y)
    (hc : ∀ bs, decodeHost (code :: bs) = r bs fun x rest => q x rest fun y rest => .ok (mk x y) rest)
    (rest : List Byte) : decodeHost (code :: (bs ++ cs ++ rest)) = .ok (mk x y) rest := by
  rw [hc, List.append_assoc, hx, hy]

/-- The check of a payload or a table: it has the length it is presented with, and that fits its field. -/
theorem length_fits {n len : Nat} (h : (decide (n = len) && fits32 len) = true) : n = len ∧ fits32 len = true := by
  simpa only [Bool.and_eq_true, decide_eq_true_eq] using h

theorem decode_encode_host {i : Instr} (hf : i.format = .host) (hw : i.wellFormed = true) (rest : List Byte) :
    decode .host (encode i ++ rest) = .ok i rest := by
  cases i with
  | writeRegister a v =>
    exact decodeHost_two (r := readByte) (q := fun _ => readWord) (bs := [a]) .writeRegister (fun _ _ => rfl)
      (readWord_wordBytes v) (fun _ => rfl) rest
  | wramWrite addr v =>
    exact decodeHost_two (q := fun _ => readWord) .wramWrite (readWord_wordBytes addr) (readWord_wordBytes v)
      (fun _ => rfl) rest
  | wramRead addr => exact decodeHost_one .wramRead (readWord_wordBytes addr) (fun _ => rfl) rest
  | sendBuffer data len =>
    obtain ⟨rfl, hlen⟩ := length_fits hw
    exact decodeHost_two (q := readMany) (fun n ds => .sendBuffer ds n) (readNat_of_fits hlen) (readMany_append data)
      (fun _ => rfl) rest
  | writeAudio data len =>
    obtain ⟨rfl, hlen⟩ := length_fits hw
    exact decodeHost_two (q := readMany) (fun n ds => .writeAudio ds n) (readNat_of_fits hlen) (readMany_append data)
      (fun _ => rfl) rest
  | loadUserCode words plen =>
    obtain ⟨rfl, hlen⟩ := length_fits hw
    exact decodeHost_two (q := readWords) (fun n ws => .loadUserCode ws n) (readNat_of_fits hlen)
      (readWords_wordsBytes words) (fun _ => rfl) rest
  | readBytes buf n =>
    simp only [Instr.wellFormed, Bool.and_eq_true] at hw
    obtain ⟨hbuf, hn⟩ := hw
    exact decodeHost_two (q := fun _ => readNat) .readBytes (readNat_of_fits hbuf) (readNat_of_fits hn) (fun _ => rfl) rest
  | beginInput o => exact decodeHost_one .beginInput (decodeOptions_optionBytes hw) (fun _ => rfl) rest
  | sendFillers len => exact decodeHost_one .sendFillers (readNat_of_fits hw) (fun _ => rfl) rest
  | solveRate target => exact decodeHost_one .solveRate (readNat_of_fits hw) (fun _ => rfl) rest
  | setBassAmplitude a => exact decodeHost_one .setBassAmplitude (readInt_of_fits hw) (fun _ => rfl) rest
  | setBassFrequencyLimit f => exact decodeHost_one .setBassFrequencyLimit (readInt_of_fits hw) (fun _ => rfl) rest
  | setTrebleAmplitude a => exact decodeHost_one .setTrebleAmplitude (readInt_of_fits hw) (fun _ => rfl) rest
  | setTrebleFrequencyLimit f => exact decodeHost_one .setTrebleFrequencyLimit (readInt_of_fits hw) (fun _ => rfl) rest
  | setVolume v => exact decodeHost_one .setVolume (readInt_of_fits hw) (fun _ => rfl) rest
  | setBalance b => exact decodeHost_one .setBalance (readInt_of_fits hw) (fun _ => rfl) rest
  | getState sel => cases sel <;> rfl
  | controlModeOn => rfl
  | controlModeOff => rfl
  | dataModeOn => rfl
  | dataModeOff => rfl
  | waitReady => rfl
  | readRegister a => rfl
  | sendMidiMessage n b0 b1 b2 => rfl
  | chipInit => rfl
  | beginOutput => rfl
  | beginMidi => rfl
  | endOp => rfl
  | available => rfl
  | softReset => rfl
  | _ => cases hf

theorem decode_encode_stream {i : Instr} (hf : i.format = .stream) (hw : i.wellFormed = true) :
    decode .stream (encode i) = .ok i [] := by
  cases i with
  | dataChunk ds =>
    simp only [Instr.wellFormed, Bool.and_eq_true, decide_eq_true_eq] at hw
    exact if_pos hw
  | _ => cases hf

/-- Outside the data stream an instruction is read whatever follows its bytes. -/
theorem decode_encode_append {i : Instr} (hw : i.wellFormed = true) (hs : i.format ≠ .stream) (rest : List Byte) :
    decode i.format (encode i ++ rest) = .ok i rest := by
  cases hf : i.format with
  | frame => exact decode_encode_frame hf rest
  | stream => exact absurd hf hs
  | patch => exact decode_encode_patch hf hw rest
  | regValue => exact decode_encode_regValue hf rest
  | host => exact decode_encode_host hf hw rest

/-- Settles O1, format by format; only the data stream has no end of its own. -/
theorem decodeUndoesEncode : Obligations.DecodeUndoesEncode := by
  intro i hw
  refine ⟨?_, decode_encode_append hw⟩
  by_cases hs : i.format = .stream
  · rw [hs]
    exact decode_encode_stream hs hw
  · simpa using decode_encode_append hw hs []

/-- Settles O2: every word is closed, so the decoder computes it. -/
theorem specWordsDecode : Obligations.SpecWordsDecode :=
  ⟨rfl, rfl, rfl, rfl, rfl, rfl, rfl⟩

/-- Settles O3, one clause for each value of bit 15. -/
theorem recordLengthFromCount : Obligations.RecordLengthFromCount :=
  fun a _ rest => ⟨fun h v => decodePatch_rle h a v rest, fun h _ hvs => decodePatch_copy h a hvs rest⟩

end Sys2Proof
end

section
/-!
The write frame and the equalizer's scalings (O9, O46).
-/
namespace Sys2Proof.Machine

/-- Settles O9: the events are those of the frame, and a write whose wait ends returns `okResult`. -/
theorem writeRegisterSendsFrame : Obligations.WriteRegisterSendsFrame := by
  refine fun s a v => ⟨rfl, fun n e hb hw => ⟨?_, ?_⟩⟩
  · exact congrArg Host.Outcome.next (runOp_ok (op_bind_ok (writeRegister_done a v s hb hw)))
  · simp only [afterWrite_trace, writeFrameEvents, List.append_assoc]

/-- The two orders of a frequency's or an amplitude's clamps agree (46 R128, R129). -/
theorem clamp_eq_max_min (x : Int) {hi : Int} (h : 0 ≤ hi) : clamp x 0 hi = max 0 (min x hi) := by
  unfold clamp
  omega

theorem clamp_max_min (x : Int) {hi : Int} (h : 0 ≤ hi) : clamp (max 0 (min x hi)) 0 hi = clamp x 0 hi := by
  unfold clamp
  omega

theorem amp4_toNat (a : Int) : (amp4 a).toNat = (max 0 (min a 100)).toNat * 15 / 100 := by
  rw [amp4, clamp_eq_max_min a (by decide), BitVec.toNat_ofNat, Nat.mod_eq_of_lt (by omega)]

theorem tfreq4_toNat (f : Int) : (tfreq4 f).toNat = min ((max 0 (min f 15000)).toNat / 1000) 15 := by
  rw [tfreq4, clamp_eq_max_min f (by decide), BitVec.toNat_ofNat, Nat.mod_eq_of_lt (by omega)]

theorem bfreq4_toNat (f : Int) : (bfreq4 f).toNat = min ((max 0 (min f 15000)).toNat / 10) 15 := by
  rw [bfreq4, clamp_eq_max_min f (by decide), BitVec.toNat_ofNat, Nat.mod_eq_of_lt (by omega)]

/-- Settles O46: each scaled value fits its nibble, clamping twice is clamping once, and the word is the four nibbles
joined. -/
theorem equalizerScalings : Obligations.EqualizerScalings := by
  refine ⟨fun a => ⟨amp4_toNat a, ?_⟩, fun f => ⟨tfreq4_toNat f, bfreq4_toNat f, ?_, ?_⟩, by decide, by decide,
    by decide, fun s => nibbles_append _ _ _ _⟩
  · rw [amp4, clamp_max_min a (by decide), amp4]
  · rw [tfreq4, clamp_max_min f (by decide), tfreq4]
  · rw [bfreq4, clamp_max_min f (by decide), bfreq4]

end Sys2Proof.Machine
end

section
/-!
What the port does with a presentation (O59, O60).
-/
namespace Sys2Proof.Machine

/-- Bytes that are exactly one instruction present it. -/
theorem instr_some_of_decode {p : Presented} {i : Instr} (h : decode p.format p.bytes = .ok i []) : p.instr = some i := by
  simp [Presented.instr, h]

theorem instr_none_of_rejected {p : Presented} {why : DecodeError} (h : decode p.format p.bytes = .rejected why) :
    p.instr = none := by
  simp [Presented.instr, h]

/-- The host may not present an internal operation, a frame, a chunk, a record or the equalizer word (30 R55, R56). -/
theorem verdict_hidden {i : Instr} (s : State) (h : hostVisible i = false) : verdict .host i s = .badOp := by
  simp [verdict, h]

/-- Output streaming by the host in a mode that has none is refused (42 R82). -/
theorem verdict_streaming {i : Instr} {s : State} (hv : hostVisible i = true) (ho : outputStreaming i = true)
    (hm : streamingMode s.mode = false) : verdict .host i s = .refuse := by
  simp [verdict, hv, ho, hm]

section
variable {s : State} {p : Presented} {rest : List Presented} (hw : s.waiting = false) (hp : s.pending = p :: rest)
include hw hp

/-- Bytes that are no instruction are answered `FAIL(BadOp)`. -/
theorem step_no_instr (hi : p.instr = none) : step s = .next (s.withPending rest).badOp := by
  simp [step, State.fetch, hw, hp, hi]

variable {i : Instr} (hi : p.instr = some i)
include hi

theorem step_run (hv : verdict p.presenter i s = .run) : step s = exec i (s.withPending rest) := by
  simp [step, State.fetch, hw, hp, hi, hv]

theorem step_badOp (hv : verdict p.presenter i s = .badOp) : step s = .next (s.withPending rest).badOp := by
  simp [step, State.fetch, hw, hp, hi, hv]

theorem step_refuse (hv : verdict p.presenter i s = .refuse) :
    step s = .refused .streamingOutsideOutput := by
  simp [step, State.fetch, hw, hp, hi, hv]

end

theorem step_idle {s : State} (hw : s.waiting = false) (hp : s.pending = []) : step s = .next s := by
  simp [step, State.fetch, hw, hp]

/-- Settles O59: a step is what the port's verdict, an empty port or a hanging operation makes it. -/
theorem stepRunsPresented : Obligations.StepRunsPresented := by
  refine fun s => ⟨fun p rest i hw hp hd hv => step_run hw hp (instr_some_of_decode hd) hv, fun hw hp => step_idle hw hp,
    fun hw => ?_⟩
  rw [step, fetch_waiting hw]
  rfl

/-- Settles O60: the bytes hold no instruction, or the verdict on the host's instruction is not to run it. -/
theorem portRefuses : Obligations.PortRefuses := by
  refine fun s p rest hw hp => ⟨fun why hd => ?_, fun i hh hd hv => ?_, fun i hh hd hi hm => ?_⟩
  · exact step_no_instr hw hp (instr_none_of_rejected hd)
  · exact step_badOp hw hp (instr_some_of_decode hd) (by rw [hh, verdict_hidden s hv])
  · have hmode : streamingMode s.mode = false := by
      rcases hm with hm | hm <;> rw [hm] <;> rfl
    have hverdict : verdict .host i s = .refuse := by
      rcases hi with ⟨data, len, rfl⟩ | ⟨len, rfl⟩ | ⟨data, len, rfl⟩ <;> exact verdict_streaming rfl rfl hmode
    exact step_refuse hw hp (instr_some_of_decode hd) (by rw [hh, hverdict])

end Sys2Proof.Machine
end

section
/-!
The transport session (O4, O5, O7).
-/
namespace Sys2Proof.Machine

/-- An operation that ends well is executed to its end state, with a result record of its value. -/
theorem next_runOp_ok {α : Type} {op : Op α} {f : α → Result} {s t : State} {a : α} (h : op s = .ok a t) :
    (Host.Outcome.next (runOp (op >>= fun a => pure (f a)) s) : Host.Outcome State Fault Refusal) =
      .next (t.returns (f a)) :=
  congrArg Host.Outcome.next (runOp_ok (op_bind_ok h))

/-- An operation that raises a fault is executed to the state that records it, with the fault as its result. -/
theorem next_runOp_raised {α : Type} {op : Op α} {f : α → Result} {s t : State} {info : FaultInfo}
    (h : op s = .error (.raised info) t) :
    (Host.Outcome.next (runOp (op >>= fun a => pure (f a)) s) : Host.Outcome State Fault Refusal) =
      .next (t.returns { st := .fault info, val := .absent }) :=
  congrArg Host.Outcome.next (runOp_raised (op_bind_error h))

/-- An operation that hangs is executed to the state in which it hangs, with no result. -/
theorem next_runOp_hung {α : Type} {op : Op α} {f : α → Result} {s t : State} (h : op s = .error .hung t) :
    (Host.Outcome.next (runOp (op >>= fun a => pure (f a)) s) : Host.Outcome State Fault Refusal) =
      .next { t with result := none } :=
  congrArg Host.Outcome.next (runOp_hung (op_bind_error h))

/-- Settles O4: with the bus free the bracket opens, with a bracket open `beginTxn` raises before any pin is written. -/
theorem modeOnOpensBracket : Obligations.ModeOnOpensBracket := fun s =>
  ⟨fun hb => next_runOp_ok (controlModeOn_free s hb), fun hb => next_runOp_ok (dataModeOn_free s hb),
    fun hb => ⟨next_runOp_raised (controlModeOn_owned s hb), next_runOp_raised (dataModeOn_owned s hb)⟩,
    rfl, verdict_hidden s rfl, rfl, verdict_hidden s rfl⟩

/-- Settles O5: an open bracket is closed by the two pin writes and `endTxn`; the meanings refuse where none is open. -/
theorem modeOffClosesBracket : Obligations.ModeOffClosesBracket := by
  refine fun s => ⟨fun hb => ?_, fun hb => ?_, fun hb => ⟨?_, ?_⟩, rfl, verdict_hidden s rfl, rfl, verdict_hidden s rfl⟩
  · exact (if_pos hb).trans (next_runOp_ok (controlModeOff_run s))
  · exact (if_pos hb).trans (next_runOp_ok (dataModeOff_run s))
  · exact if_neg (Bool.eq_false_iff.mp hb)
  · exact if_neg (Bool.eq_false_iff.mp hb)

/-- A wait passes at the first high sample written out. -/
theorem wait_lows_then_high {e : Env} {n : Nat} {rest : List Bool} (h : e.ready = List.replicate n false ++ true :: rest) :
    e.wait = (n, some { e with ready := rest }) := by
  simp only [Env.wait, h, lowRun_replicate]

/-- A wait on inputs that are low for ever never passes. -/
theorem wait_low_forever {e : Env} {n : Nat} (h : e.ready = List.replicate n false) (hl : e.readyAfter = .low) :
    e.wait = (n, none) := by
  simp only [Env.wait, h, lowRun_all_low, hl]

/-- Settles O7: the wait passes at the first high sample, or, where every sample reads low, hangs. -/
theorem waitPollsUntilHigh : Obligations.WaitPollsUntilHigh := by
  refine fun s n => ⟨fun rest hr => ?_, fun hr hl => ?_, rfl, verdict_hidden s rfl⟩
  · exact next_runOp_ok ((waitReady_high s (wait_lows_then_high hr)).trans (congrArg _ (waited_eq s n _)))
  · exact ⟨_, next_runOp_hung (waitReady_never s (wait_low_forever hr hl)), rfl, rfl,
      congrArg (s.trace ++ ·) (lowPolls_eq s (n + 1))⟩

end Sys2Proof.Machine
end

section
/-!
Between operations the bus is free (O58). Every part of a host operation leaves the bus free or hangs, if it found the bus
free or something hanging; a streaming loop, inside its bracket, ends early only by hanging.
-/
namespace Sys2Proof.Machine

/-- The bus is free, or an operation hangs. -/
def State.released (s : State) : Prop := s.waiting = true ∨ s.busOwned = false

/-- A bus that is free, or an operation that hangs, stays so. -/
def KeepsReleased (s t : State) : Prop := s.released → t.released

theorem released_frames : FrameClosed KeepsReleased where
  refl _ := id
  trans _ _ _ h1 h2 := h2 ∘ h1
  write a v s := by
    rcases writeRegister_cases a v s with ⟨_, e⟩ | ⟨_, n, env, _, e⟩ | ⟨_, n, _, e⟩
    · rw [endState_error e]; exact id
    · rw [endState_ok e]; exact fun _ => .inr rfl
    · rw [endState_error e]; exact fun _ => .inl rfl
  read a s := by
    rcases readRegister_cases a s with ⟨_, e⟩ | ⟨_, n, env, _, e⟩ | ⟨_, n, _, e⟩
    · rw [endState_error e]; exact id
    · rw [endState_ok e]; exact fun _ => .inr rfl
    · rw [endState_error e]; exact fun _ => .inl rfl
  log _ _ := id
  fault _ _ := id

theorem released_connectivityCheck (n : Nat) : Keeps KeepsReleased (connectivityCheck n) := by
  have h := released_frames
  have sample : Keeps KeepsReleased sampleDreq := fun _ => id
  have yielded : Keeps KeepsReleased (emit .yield) := fun _ => id
  induction n with
  | zero => exact h.pure _
  | succ n ih => exact h.bind sample fun _ => Keeps.ite (h.pure _) (h.bind yielded fun _ => ih)

theorem released_chip : ChipClosed KeepsReleased where
  toFrameClosed := released_frames
  pins s := by rw [endState_ok (resetPins_run s)]; exact id
  check := released_connectivityCheck
  clock _ _ := id
  fields _ _ _ _ _ _ _ _ := id

/-- The operation ends early only in a wait that never ends. -/
def StopsWaiting {α : Type} (op : Op α) : Prop := ∀ s x t, op s = .error x t → t.waiting = true

theorem StopsWaiting.of_ok {α : Type} {op : Op α} (h : ∀ s, ∃ a t, op s = .ok a t) : StopsWaiting op := by
  intro s x t e
  obtain ⟨a, u, hu⟩ := h s
  rw [hu] at e
  cases e

theorem StopsWaiting.bind {α β : Type} {x : Op α} {f : α → Op β} (hx : StopsWaiting x) (hf : ∀ a, StopsWaiting (f a)) :
    StopsWaiting (x >>= f) := by
  intro s z u e
  cases h : x s with
  | ok a t => exact hf a t z u ((op_bind_ok h).symm.trans e)
  | error y t =>
    rw [op_bind_error h] at e
    cases e
    exact hx s _ _ h

theorem StopsWaiting.ite {α : Type} {c : Prop} [Decidable c] {x y : Op α} (hx : StopsWaiting x) (hy : StopsWaiting y) :
    StopsWaiting (if c then x else y) := by
  split <;> assumption

theorem StopsWaiting.get : StopsWaiting (get : Op State) := .of_ok fun s => ⟨s, s, rfl⟩

theorem StopsWaiting.pure {α : Type} (a : α) : StopsWaiting (Pure.pure a : Op α) := .of_ok fun s => ⟨a, s, rfl⟩

theorem stopsWaiting_waitReady : StopsWaiting waitReady := by
  intro s x t e
  rcases hw : s.env.wait with ⟨n, _ | env⟩
  · rw [waitReady_never s hw] at e
    cases e
    rfl
  · rw [waitReady_high s hw] at e
    cases e

theorem stopsWaiting_sendLoop (data : List Byte) (fuel : Nat) : StopsWaiting (sendLoop data fuel) := by
  have chunk (ds : List Byte) (c : Nat) : StopsWaiting (sendChunk ds c) := .of_ok fun _ => ⟨_, _, rfl⟩
  induction fuel with
  | zero => exact .pure _
  | succ n ih =>
    exact .bind .get fun _ => .ite (.pure _) (.bind stopsWaiting_waitReady fun _ => .bind (chunk _ _) fun _ => ih)

theorem stopsWaiting_fillLoop (fuel : Nat) : StopsWaiting (fillLoop fuel) := by
  induction fuel with
  | zero => exact .pure _
  | succ n ih =>
    exact .bind .get fun _ => .ite (.pure _) (.bind stopsWaiting_waitReady fun _ =>
      .bind (.of_ok fun _ => ⟨_, _, rfl⟩) fun _ => .bind (.of_ok fun _ => ⟨_, _, rfl⟩) fun _ => ih)

/-- A loop that ends early only by hanging, and the end of its bracket: from any state it hangs or the bus is free. -/
theorem released_closing {loop : Op Unit} (hl : StopsWaiting loop) (s : State) :
    (endState (do loop; dataModeOff) s).released := by
  cases h : loop s with
  | error x t =>
    rw [endState_error (op_bind_error h)]
    exact .inl (hl s x t h)
  | ok a t =>
    rw [endState_ok ((op_bind_ok h).trans (dataModeOff_run t))]
    exact .inr rfl

/-- A data bracket around such a loop: where it does not open, nothing but the fault changes. -/
theorem released_dataRun {loop : Op Unit} (hl : StopsWaiting loop) :
    Keeps KeepsReleased (do dataModeOn; loop; dataModeOff) := by
  intro s h
  cases hb : s.busOwned with
  | true =>
    rw [endState_error (op_bind_error (dataModeOn_owned s hb))]
    exact h
  | false =>
    rw [endState, op_bind_ok (dataModeOn_free s hb)]
    exact released_closing hl _

theorem released_sendBuffer (data : List Byte) (len : Nat) : Keeps KeepsReleased (sendBuffer data len) :=
  released_frames.bind (keeps_modify fun _ => id) fun _ => released_dataRun (stopsWaiting_sendLoop data len)

theorem released_sendFillers (len : Nat) : Keeps KeepsReleased (sendFillers len) :=
  released_frames.bind (keeps_modify fun _ => id) fun _ => released_dataRun (stopsWaiting_fillLoop len)

theorem released_exec : ExecClosed KeepsReleased where
  toChipClosed := released_chip
  loader _ _ _ _ _ _ := id
  scratch _ _ _ _ _ := id
  input o := keeps_beginInput released_chip (fun _ _ _ _ _ _ => id) (fun _ _ => id) (fun _ _ _ _ _ => id) (fun _ => id) o
    fun _ => id
  store _ _ _ := id
  draw _ := id
  modes _ _ := id
  buffer := released_sendBuffer
  fillers := released_sendFillers
  bassA _ _ := id
  bassF _ _ := id
  trebA _ _ := id
  trebF _ _ := id
  volume _ _ := id
  balance _ _ := id

/-- The host may not present an operation that works in somebody else's bracket (30 R55). -/
theorem bracketOp_of_hostVisible {i : Instr} (h : hostVisible i = true) : bracketOp i = false := by
  cases i with
  | dataChunk => cases h
  | controlModeOn => cases h
  | controlModeOff => cases h
  | dataModeOn => cases h
  | dataModeOff => cases h
  | waitReady => cases h
  | _ => rfl

/-- Settles O58: a host operation opens and closes its own brackets, and each of them ends closed or in a hang. -/
theorem hostOpsReleaseBus : Obligations.HostOpsReleaseBus := by
  intro i s t hi hb _ e
  obtain ⟨u, r, rfl, hu⟩ := exec_keeps released_exec i (bracketOp_of_hostVisible hi) e
  exact hu (.inr hb)

end Sys2Proof.Machine
end

section
/-!
The register protocol (O10, O11, O12, O13).
-/
namespace Sys2Proof.Machine

/-- A read frame whose captured bytes, and whose wait, are known. -/
theorem readRegister_answers {s : State} {a hi lo : Byte} {n : Nat} {e e' : Env} (hb : s.busOwned = false)
    (ha : s.env.answer s.cfg.regMap a = (hi, lo, e')) (hw : e'.wait = (n, some e)) :
    readRegister a s = .ok (hi ++ lo) (s.afterRead a hi lo n e) := by
  have h := readRegister_done a s (n := n) (e := e) hb (by rw [ha]; exact hw)
  rwa [ha] at h

/-- Settles O10: a read whose wait ends returns the captured word, high byte first. -/
theorem readRegisterReturnsCapture : Obligations.ReadRegisterReturnsCapture :=
  fun _ _ _ _ _ _ _ hb ha hw => next_runOp_ok (readRegister_answers hb ha hw)

/-- Settles O11: the frames' meanings run the register operations that send them. -/
theorem framesRunWhole : Obligations.FramesRunWhole :=
  fun s a _ _ v _ _ _ hb =>
    ⟨fun hw => next_runOp_ok (writeRegister_done a v s hb hw), fun ha hw => next_runOp_ok (readRegister_answers hb ha hw)⟩

/-- Settles O12: where every wait ends at once each bracket is one whole frame, and the second follows the first. -/
theorem ramCompoundsAreTwoFrames : Obligations.RamCompoundsAreTwoFrames :=
  fun _ addr v hb hr =>
    ⟨next_runOp_ok (wramWrite_ready ⟨hb, hr⟩ addr v), next_runOp_ok (wramRead_ready ⟨hb, hr⟩ addr)⟩

/-- An operation that completes is executed to a next state with its value as the result, the bus free and the mark of a
hang as it was. -/
theorem next_runOp_completes {α : Type} {op : Op α} (f : α → Result) (h : Completes op) {s : State} (hs : s.calm) :
    ∃ t a, (Host.Outcome.next (runOp (op >>= fun a => pure (f a)) s) : Host.Outcome State Fault Refusal) = .next t ∧
      t.result = some (f a) ∧ t.waiting = s.waiting ∧ t.busOwned = false := by
  obtain ⟨a, t, e, ht⟩ := h s hs
  exact ⟨t.returns (f a), a, next_runOp_ok e, rfl, ht.waiting, ht.calm.1⟩

/-- The same for an operation without a value. -/
theorem next_runOp_completes_unit {op : Op Unit} (h : Completes op) {s : State} (hs : s.calm) :
    ∃ t, (Host.Outcome.next (runOp (do op; return okResult) s) : Host.Outcome State Fault Refusal) = .next t ∧
      t.result = some okResult ∧ t.waiting = s.waiting ∧ t.busOwned = false := by
  obtain ⟨t, _, ht⟩ := next_runOp_completes (fun _ => okResult) h hs
  exact ⟨t, ht⟩

/-- Settles O13: each compound is a sequence of register frames, and every frame completes where every wait ends. -/
theorem compoundsComplete : Obligations.CompoundsComplete := by
  intro s addr v hb hw
  have hs : s.calm := ⟨hb, hw⟩
  exact ⟨next_runOp_completes_unit (completes_wramWrite addr v) hs,
    next_runOp_completes okWord (completes_wramRead addr) hs,
    next_runOp_completes_unit completes_softReset hs, next_runOp_completes_unit completes_endSession hs⟩

end Sys2Proof.Machine
end

section
/-!
The frame of the register and transport operations (O14).
-/
namespace Sys2Proof.Machine

/-- Nothing changes but the transport's own fields, the result record and the mark of a hang. -/
def KeepsDevice (s t : State) : Prop :=
  t = { s with cs := t.cs, dcs := t.dcs, busOwned := t.busOwned, fault := t.fault, trace := t.trace, env := t.env,
               result := t.result, waiting := t.waiting }

theorem KeepsDevice.trans {s t u : State} (h1 : KeepsDevice s t) (h2 : KeepsDevice t u) : KeepsDevice s u := by
  unfold KeepsDevice at *
  rw [h2, h1]

theorem keepsDevice_transport : TransportClosed KeepsDevice where
  refl _ := rfl
  trans _ _ _ := .trans
  move _ _ _ _ _ _ _ _ := rfl

/-- An operation that keeps the device fields is executed to a next state that keeps them. -/
theorem keepsDevice_next {α : Type} {op : Op α} {f : α → Result} {s t : State} (hk : Keeps KeepsDevice op)
    (e : (Host.Outcome.next (runOp (op >>= fun a => pure (f a)) s) : Host.Outcome State Fault Refusal) = .next t) :
    KeepsDevice s t := by
  obtain ⟨u, r, rfl, hu⟩ := next_runOp_pure e (hk s)
  exact hu.trans rfl

/-- A meaning that may refuse runs where it answers a next state. -/
theorem next_of_guarded {c : Prop} [Decidable c] {o : Host.Outcome State Fault Refusal} {r : Refusal} {t : State}
    (e : (if c then o else .refused r) = .next t) : o = .next t := by
  split at e
  · exact e
  · cases e

/-- Settles O14: every part of a register or transport operation moves the transport's own fields only. -/
theorem registerOpsFrame : Obligations.RegisterOpsFrame := by
  have h := keepsDevice_transport
  have hf := h.frames
  rintro s t i (⟨a, v, rfl⟩ | ⟨a, rfl⟩ | ⟨a, rfl⟩ | ⟨a, v, rfl⟩ | ⟨a, v, rfl⟩ | ⟨a, rfl⟩ | rfl | rfl |
    ⟨ta, tf, ba, bf, rfl⟩ | rfl | rfl | rfl | rfl | rfl) e
  · exact keepsDevice_next (hf.write a v) e
  · exact keepsDevice_next (hf.read a) e
  · exact keepsDevice_next (hf.read a) e
  · exact keepsDevice_next (hf.write a v) e
  · exact keepsDevice_next (keeps_wramWrite hf a v) e
  · exact keepsDevice_next (keeps_wramRead hf a) e
  · exact keepsDevice_next (keeps_softReset hf) e
  · exact keepsDevice_next (keeps_available hf) e
  · exact keepsDevice_next (keeps_writeNamed hf .bass (packEq ta tf ba bf)) e
  · exact keepsDevice_next (moves_controlModeOn h) e
  · exact keepsDevice_next (moves_controlModeOff h) (next_of_guarded e)
  · exact keepsDevice_next (moves_dataModeOn h) e
  · exact keepsDevice_next (moves_dataModeOff h) (next_of_guarded e)
  · exact keepsDevice_next (moves_waitReady h) e

end Sys2Proof.Machine
end

section
/-!
The streaming engine where every wait ends at once (O15, O17, O18, O19, O20, O22).
-/
namespace Sys2Proof.Machine

/-- A payload that holds its length is sent (42 R75). -/
theorem exec_sendBuffer {data : List Byte} {len : Nat} (h : len ≤ data.length) (s : State) :
    exec (.sendBuffer data len) s = .next (runOp (do sendBuffer data len; return okResult) s) :=
  if_neg (Nat.not_lt.mpr h)

theorem exec_writeAudio {data : List Byte} {len : Nat} (h : len ≤ data.length) (s : State) :
    exec (.writeAudio data len) s = .next (runOp (do writeAudio data len; return okResult) s) :=
  if_neg (Nat.not_lt.mpr h)

/-- Settles O15: the whole run of a payload whose waits end at once. -/
theorem sendBufferSendsChunks : Obligations.SendBufferSendsChunks := fun s data len hb hr hl =>
  (exec_sendBuffer hl s).trans (next_runOp_ok (sendBuffer_ready ⟨hb, hr⟩ data len))

/-- Settles O18: the whole run of the fillers where every wait ends at once. -/
theorem sendFillersSendsEndFill : Obligations.SendFillersSendsEndFill :=
  fun _ len hb hr => next_runOp_ok (sendFillers_ready ⟨hb, hr⟩ len)

/-- A data bracket around a loop that completes, the lines still in data mode: the bracket's events go around the
loop's. -/
theorem dataRun_ok {g : State → State} {loop : Op Unit} {s t : State} (hb : (g s).busOwned = false)
    (hl : loop { g s with busOwned := true, cs := true, dcs := false,
                          trace := (g s).trace ++ dataOnEvents (g s).cs (g s).dcs } = .ok () t) (hc : t.cs = true) :
    (do modify g; dataModeOn; loop; dataModeOff) s =
      .ok () { t with busOwned := false, cs := true, dcs := true, trace := t.trace ++ dataOffEvents } := by
  refine (op_modify_bind _ _ s).trans ?_
  rw [op_bind_ok (dataModeOn_free _ hb), op_bind_ok hl, dataModeOff_run, hc, dataOffEvents]

/-- The bracket around a loop that does nothing: both mode switches, with nothing between them (42 R83). -/
theorem dataRun_empty {g : State → State} {loop : Op Unit} {s : State} (hb : (g s).busOwned = false)
    (hl : ∀ t, loop t = .ok () t) :
    (do modify g; dataModeOn; loop; dataModeOff) s =
      .ok () { g s with busOwned := false, cs := true, dcs := true,
                        trace := (g s).trace ++ (dataOnEvents (g s).cs (g s).dcs ++ dataOffEvents) } := by
  rw [dataRun_ok hb (hl _) rfl, List.append_assoc]

/-- Settles O17: with length 0 neither loop does anything. -/
theorem emptyPayloadEmptyBracket : Obligations.EmptyPayloadEmptyBracket := fun s data hb =>
  ⟨(exec_sendBuffer (Nat.zero_le data.length) s).trans
      (next_runOp_ok (dataRun_empty (g := fun s => { s with sPos := 0, sRem := 0 }) hb fun _ => rfl)),
    next_runOp_ok (dataRun_empty (g := fun s => { s with sRem := 0 }) hb fun _ => rfl)⟩

/-- A payload of one to 32 bytes is one chunk (42 R78). -/
theorem chunksOf_single {data : List Byte} (h1 : 1 ≤ data.length) (h32 : data.length ≤ 32) :
    chunksOf data data.length = [data] := by
  have hn : (data.length + 31) / 32 = 1 := by omega
  simp [chunksOf, hn, List.take_of_length_le, h32]

/-- A payload of one to 32 bytes goes out in one chunk. -/
theorem sendBuffer_single {s : State} (h : s.ready) {data : List Byte} (h1 : 1 ≤ data.length) (h32 : data.length ≤ 32) :
    sendBuffer data data.length s = .ok () { s with
      busOwned := false, cs := true, dcs := true, sPos := data.length, sRem := 0,
      trace := s.trace ++ streamEvents s.cs s.dcs [data] } := by
  rw [sendBuffer_ready h, chunksOf_single h1 h32]

/-- A chunk of one to 32 bytes is the next of the run in an open data-mode bracket, else a run of its own (log 12). -/
theorem exec_dataChunk {ds : List Byte} (h1 : 1 ≤ ds.length) (h32 : ds.length ≤ 32) (s : State) :
    exec (.dataChunk ds) s =
      if s.inDataMode then .next (runOp (do (do waitReady; sendChunk ds ds.length); return okResult) s)
      else .next (runOp (do sendBuffer ds ds.length; return okResult) s) := by
  have hlen : ¬(ds.length < 1 ∨ chunkMax < ds.length) := by
    rw [chunkMax]
    omega
  rw [bind_assoc]
  exact if_neg hlen

/-- One round of the engine's loop: the wait, then the chunk (42 R75, R77). -/
theorem waitReady_sendChunk {s : State} {n : Nat} {e : Env} {cs dcs : Bool} (hw : s.env.wait = (n, some e))
    (hc : s.cs = cs) (hd : s.dcs = dcs) (ds : List Byte) (c : Nat) :
    (do waitReady; sendChunk ds c) s = .ok () { s with
      env := e, sPos := s.sPos + c, sRem := s.sRem - c,
      trace := s.trace ++ (waitEvents cs dcs n ++ [Event.mk (.writeBulk ds) cs dcs]) } := by
  subst hc hd
  rw [op_bind_ok (waitReady_high s hw), waited_eq, ← List.append_assoc]
  rfl

/-- Settles O19: one round of the loop in an open bracket, and a payload of one chunk on a free bus. -/
theorem dataChunkWaitsThenSends : Obligations.DataChunkWaitsThenSends := by
  refine fun s ds h1 h32 => ⟨fun n e hb hc hd hw => ?_, fun hb hr => ?_⟩
  · have hdata : s.inDataMode = true := by simp [State.inDataMode, hb, hc, hd]
    rw [exec_dataChunk h1 h32, if_pos hdata]
    exact next_runOp_ok (waitReady_sendChunk hw hc hd ds ds.length)
  · have hdata : ¬s.inDataMode = true := by simp [State.inDataMode, hb]
    rw [exec_dataChunk h1 h32, if_neg hdata]
    exact next_runOp_ok (sendBuffer_single ⟨hb, hr⟩ h1 h32)

theorem writeAudio_midi {s : State} (h : s.mode = .midi) (data : List Byte) (len : Nat) :
    writeAudio data len s = sendBuffer (expandMidi (data.take len)) (2 * len) s :=
  (op_get_bind _ s).trans (by rw [if_pos h])

theorem writeAudio_not_midi {s : State} (h : s.mode ≠ .midi) (data : List Byte) (len : Nat) :
    writeAudio data len s = sendBuffer data len s :=
  (op_get_bind _ s).trans (by rw [if_neg h])

/-- Settles O20: the mode says which payload the engine is given. -/
theorem writeAudioExpandsInMidi : Obligations.WriteAudioExpandsInMidi := by
  refine fun s data len hb hr hl => ⟨fun hm => ?_, fun hm => ?_⟩
  · rw [← expandMidi_eq]
    exact (exec_writeAudio hl s).trans
      (next_runOp_ok ((writeAudio_midi hm data len).trans (sendBuffer_ready ⟨hb, hr⟩ _ _)))
  · exact (exec_writeAudio hl s).trans
      (next_runOp_ok ((writeAudio_not_midi hm data len).trans (sendBuffer_ready ⟨hb, hr⟩ data len)))

theorem expandMidi_length (data : List Byte) : (expandMidi data).length = 2 * data.length := by
  induction data with
  | nil => rfl
  | cons b bs ih => simp only [expandMidi, List.length_cons, ih]; omega

theorem midiBytes_length {n : Byte} (h : n.toNat ≤ 3) (b0 b1 b2 : Byte) : (midiBytes n b0 b1 b2).length = n.toNat := by
  simpa [midiBytes] using h

/-- A message length outside 1 to 3 is refused by value (30 R56). -/
theorem sendMidiMessage_badOp {n : Byte} (h : n.toNat = 0 ∨ 3 < n.toNat) (b0 b1 b2 : Byte) (s : State) :
    sendMidiMessage n b0 b1 b2 s = .ok (failResult .badOp) s := by
  have hn : n.toNat < 1 ∨ 3 < n.toNat := by omega
  rw [sendMidiMessage, if_pos hn]
  rfl

/-- In Midi mode a message is a payload of its expanded bytes (42 R81). -/
theorem sendMidiMessage_midi {n : Byte} (h1 : 1 ≤ n.toNat) (h3 : n.toNat ≤ 3) (b0 b1 b2 : Byte) {s : State}
    (hm : s.mode = .midi) : sendMidiMessage n b0 b1 b2 s =
      (do sendBuffer (expandMidi (midiBytes n b0 b1 b2)) (2 * n.toNat); return okResult) s := by
  have hn : ¬(n.toNat < 1 ∨ 3 < n.toNat) := by omega
  rw [sendMidiMessage, if_neg hn, op_get_bind, if_pos hm]

/-- Settles O22: the expanded message has two to six bytes, so it is one chunk. -/
theorem midiSendFramesMessage : Obligations.MidiSendFramesMessage := by
  refine fun s n b0 b1 b2 => ⟨fun h1 h3 hm hb hr => ?_, fun hn => ?_⟩
  · have hlen : (expandMidi (midiBytes n b0 b1 b2)).length = 2 * n.toNat := by
      rw [expandMidi_length, midiBytes_length h3]
    have hsend := sendBuffer_single (s := s) ⟨hb, hr⟩ (data := expandMidi (midiBytes n b0 b1 b2))
      (by omega) (by omega)
    rw [hlen] at hsend
    rw [← expandMidi_eq, ← midiBytes]
    exact congrArg Host.Outcome.next
      (runOp_ok ((sendMidiMessage_midi h1 h3 b0 b1 b2 hm).trans (op_bind_ok hsend)))
  · exact congrArg Host.Outcome.next (runOp_ok (sendMidiMessage_badOp hn b0 b1 b2 s))

end Sys2Proof.Machine
end

section
/-!
The payload under backpressure (O16).
-/
namespace Sys2Proof.Machine

/-- From `s` to `t` the loop has put the rest of the payload on the stream, whole and in order: the `sRem` bytes from the
cursor on. Chip-select has not moved, and nothing hangs that did not. -/
structure Delivered (data : List Byte) (s t : State) : Prop where
  bytes : streamedBytes t.trace = streamedBytes s.trace ++ (data.drop s.sPos).take s.sRem
  pos : t.sPos = s.sPos + s.sRem
  rem : t.sRem = 0
  cs : t.cs = s.cs
  waiting : t.waiting = s.waiting

theorem Delivered.nothing {data : List Byte} {s : State} (h : s.sRem = 0) : Delivered data s s where
  bytes := by rw [h, List.take_zero, List.append_nil]
  pos := by rw [h, Nat.add_zero]
  rem := h
  cs := rfl
  waiting := rfl

/-- The state after one round of the loop with a chunk of at most 32 bytes. -/
def State.afterChunk (s : State) (data : List Byte) (n : Nat) (e : Env) : State :=
  { s with env := e, sPos := s.sPos + min s.sRem chunkMax, sRem := s.sRem - min s.sRem chunkMax,
           trace := s.trace ++ (waitEvents s.cs s.dcs n ++
             [Event.mk (.writeBulk ((data.drop s.sPos).take (min s.sRem chunkMax))) s.cs s.dcs]) }

/-- A chunk and then the rest are the whole. -/
theorem Delivered.chunk {data : List Byte} {s t : State} {n : Nat} {e : Env}
    (h : Delivered data (s.afterChunk data n e) t) : Delivered data s t where
  bytes := by
    have hsplit : s.sRem = min s.sRem chunkMax + (s.sRem - min s.sRem chunkMax) := by omega
    rw [h.bytes]
    simp only [State.afterChunk, streamedBytes_append, streamedBytes_wait, streamedBytes, List.nil_append,
      List.append_nil, List.append_assoc]
    conv_rhs => rw [hsplit, List.take_add, List.drop_drop]
  pos := h.pos.trans (by simp only [State.afterChunk]; omega)
  rem := h.rem
  cs := h.cs
  waiting := h.waiting

/-- Where every wait ends the loop delivers what is left of the payload (42 R75, R79). -/
theorem sendLoop_delivers (data : List Byte) (fuel : Nat) (s : State) (h : s.waitsEnd) (hf : s.sRem ≤ fuel) :
    ∃ t, sendLoop data fuel s = .ok () t ∧ Delivered data s t := by
  induction fuel generalizing s with
  | zero => exact ⟨s, rfl, .nothing (Nat.le_zero.mp hf)⟩
  | succ fuel ih =>
    by_cases hz : s.sRem = 0
    · exact ⟨s, by simp [sendLoop, op_get_bind, hz], .nothing hz⟩
    · obtain ⟨n, e, hw, he, -⟩ := wait_of_high s.env h
      have hround : (do waitReady; sendChunk ((data.drop s.sPos).take (min s.sRem chunkMax)) (min s.sRem chunkMax)) s =
          .ok () (s.afterChunk data n e) := waitReady_sendChunk hw rfl rfl _ _
      obtain ⟨t, ht, hd⟩ := ih (s.afterChunk data n e) he (by simp only [State.afterChunk, chunkMax]; omega)
      refine ⟨t, ?_, hd.chunk⟩
      simp only [sendLoop, op_get_bind, hz, if_false]
      rw [← bind_assoc, op_bind_ok hround, ht]

/-- Settles O16: the bracket's own events put no byte on the stream, the loop puts the whole payload there. -/
theorem sendBufferDeliversPayload : Obligations.SendBufferDeliversPayload := by
  intro s data len hb hw hl
  obtain ⟨t, hloop, hd⟩ := sendLoop_delivers data len
    { s with sPos := 0, sRem := len, busOwned := true, cs := true, dcs := false,
             trace := s.trace ++ dataOnEvents s.cs s.dcs } hw (Nat.le_refl len)
  have hrun := dataRun_ok (g := fun s => { s with sPos := 0, sRem := len }) hb hloop hd.cs
  refine ⟨_, (exec_sendBuffer hl s).trans (next_runOp_ok hrun), rfl, hd.waiting, rfl, rfl, rfl,
    hd.pos.trans (Nat.zero_add len), hd.rem, ?_⟩
  have hbytes := hd.bytes
  simpa [State.returns, streamedBytes_append, dataOnEvents, dataOffEvents, streamedBytes] using hbytes

end Sys2Proof.Machine
end

section
/-!
The frame of the streaming operations (O23).
-/
namespace Sys2Proof.Machine

/-- Nothing changes but the streaming cursor, the transport's own fields, the result record and the mark of a hang. -/
def KeepsButCursor (s t : State) : Prop :=
  t = { s with sPos := t.sPos, sRem := t.sRem, cs := t.cs, dcs := t.dcs, busOwned := t.busOwned, fault := t.fault,
               trace := t.trace, env := t.env, result := t.result, waiting := t.waiting }

theorem KeepsButCursor.trans {s t u : State} (h1 : KeepsButCursor s t) (h2 : KeepsButCursor t u) :
    KeepsButCursor s u := by
  unfold KeepsButCursor at *
  rw [h2, h1]

theorem keepsButCursor_transport : TransportClosed KeepsButCursor where
  refl _ := rfl
  trans _ _ _ := .trans
  move _ _ _ _ _ _ _ _ := rfl

/-- The instructions of the streaming engine (42 R75, R76, R80, R81). -/
def streamOp : Instr → Bool
  | .dataChunk _ => true
  | .sendBuffer _ _ => true
  | .sendFillers _ => true
  | .writeAudio _ _ => true
  | .sendMidiMessage _ _ _ _ => true
  | _ => false

/-- The streaming instructions keep every relation that says nothing about the transport's fields and the cursor, up to
the result record. -/
theorem exec_streamOp_keeps {R : State → State → Prop} (h : TransportClosed R)
    (hc : ∀ (s : State) p r, R s { s with sPos := p, sRem := r }) (i : Instr) (hi : streamOp i = true) {s t : State}
    (e : exec i s = .next t) : ∃ u r, t = { u with result := r } ∧ R s u := by
  have buffer := moves_sendBuffer h hc
  cases i with
  | dataChunk ds =>
    simp only [exec, execDataChunk] at e
    split at e
    · cases e
    · split at e
      · rw [← bind_assoc] at e
        exact next_runOp_pure e (h.bind (moves_waitReady h) (fun _ => moves_sendChunk h hc ds ds.length) s)
      · exact next_runOp_pure e (buffer ds ds.length s)
  | sendBuffer data len =>
    simp only [exec, execSendBuffer] at e
    split at e
    · cases e
    · exact next_runOp_pure e (buffer data len s)
  | sendFillers len => exact next_runOp_pure e (moves_sendFillers h (fun s r => hc s s.sPos r) len s)
  | writeAudio data len =>
    simp only [exec, execWriteAudio] at e
    split at e
    · cases e
    · exact next_runOp_pure e (keeps_writeAudio h.frames buffer data len s)
  | sendMidiMessage n b0 b1 b2 => exact next_runOp_keeps e (keeps_sendMidiMessage h.frames buffer n b0 b1 b2 s)
  | _ => cases hi

/-- Settles O23: every part of a streaming operation moves the cursor and the transport's own fields only. -/
theorem streamOpsFrame : Obligations.StreamOpsFrame := by
  intro s t i hi e
  have hstream : streamOp i = true := by
    rcases hi with ⟨ds, rfl⟩ | ⟨data, len, rfl⟩ | ⟨len, rfl⟩ | ⟨data, len, rfl⟩ | ⟨n, b0, b1, b2, rfl⟩ <;> rfl
  obtain ⟨u, r, rfl, hu⟩ := exec_streamOp_keeps keepsButCursor_transport (fun _ _ _ => rfl) i hstream e
  exact hu.trans rfl

end Sys2Proof.Machine
end

section
/-!
The frame of the patch operations (O28).
-/
namespace Sys2Proof.Machine

/-- Nothing changes but the loader's cursor and record registers, the transport's own fields, the result record and the
mark of a hang. -/
def KeepsButLoader (s t : State) : Prop :=
  t = { s with pIdx := t.pIdx, pLen := t.pLen, pAddr := t.pAddr, pCnt := t.pCnt, pVal := t.pVal, cs := t.cs,
               dcs := t.dcs, busOwned := t.busOwned, fault := t.fault, trace := t.trace, env := t.env,
               result := t.result, waiting := t.waiting }

theorem KeepsButLoader.trans {s t u : State} (h1 : KeepsButLoader s t) (h2 : KeepsButLoader t u) :
    KeepsButLoader s u := by
  unfold KeepsButLoader at *
  rw [h2, h1]

theorem keepsButLoader_transport : TransportClosed KeepsButLoader where
  refl _ := rfl
  trans _ _ _ := .trans
  move _ _ _ _ _ _ _ _ := rfl

theorem keepsButLoader_registers (s : State) (i l : Nat) (a c v : Word) :
    KeepsButLoader s { s with pIdx := i, pLen := l, pAddr := a, pCnt := c, pVal := v } := rfl

/-- The header of a record presented on its own, in front of an operation that keeps all but the loader's fields. -/
theorem keepsButLoader_header (a count : Word) {op : Op Result} (hop : Keeps KeepsButLoader op) :
    Keeps KeepsButLoader (do takeAddress a; takeCount count; op) :=
  have h := keepsButLoader_transport.frames
  h.bind (keeps_takeAddress h keepsButLoader_registers a) fun _ =>
    h.bind (keeps_takeCount keepsButLoader_registers count) fun _ => hop

/-- An operation that keeps all but the loader's fields is executed to a next state that keeps them. -/
theorem keepsButLoader_next {op : Op Result} {s t : State} (hk : Keeps KeepsButLoader op)
    (e : (Host.Outcome.next (runOp op s) : Host.Outcome State Fault Refusal) = .next t) : KeepsButLoader s t := by
  obtain ⟨u, r, rfl, hu⟩ := next_runOp_keeps e (hk s)
  exact hu.trans rfl

/-- Settles O28: every part of a patch operation moves the loader's and the transport's own fields only. -/
theorem patchOpsFrame : Obligations.PatchOpsFrame := by
  have h := keepsButLoader_transport.frames
  have hp := keepsButLoader_registers
  rintro s t i (⟨a, n, v, rfl⟩ | ⟨a, vs, rfl⟩ | ⟨words, plen, rfl⟩) e
  · exact keepsButLoader_next (keepsButLoader_header a _ (h.bind (keeps_takeValue hp v) fun _ =>
      h.bind (keeps_repeatWrite h n.toNat) fun _ => h.pure _)) e
  · simp only [exec, execPatchCopy] at e
    split at e
    · exact keepsButLoader_next (keepsButLoader_header a _ (h.bind (keeps_copyValues h hp vs) fun _ => h.pure _)) e
    · cases e
  · simp only [exec, execLoadUserCode] at e
    split at e
    · cases e
    · exact keepsButLoader_next (h.bind (keeps_loadUserCode h hp words plen) fun _ => h.pure _) e

end Sys2Proof.Machine
end

section
/-!
A patch record on its own (O27).
-/
namespace Sys2Proof.Machine

/-- The two header words of a record presented on its own, its address narrow (43 R85, R89). -/
theorem recordHeader_narrow {a : Word} (h : hiByte a = 0) (count : Word) (op : Op Result) (s : State) :
    (do takeAddress a; takeCount count; op) s = op { s with pAddr := a, pCnt := count, pIdx := s.pIdx + 2 } :=
  op_bind_ok (takeAddress_narrow a s h)

/-- A wide address ends a record presented on its own at once (43 R89). -/
theorem recordHeader_wide {a : Word} (h : hiByte a ≠ 0) (op : Op Result) (s : State) :
    runOp (do takeAddress a; op) s = ({ s with pAddr := a, fault := some .patchMalformed }.returns
      { st := .fault (.patchMalformed s.pIdx .addressTooWide), val := .absent }) :=
  runOp_raised (op_bind_error (takeAddress_wide a s h))

/-- A copy record whose count can be said is run (43 R87, 30 R49). -/
theorem exec_patchCopy {vs : List Word} (h : vs.length < 2 ^ 15) (a : Word) (s : State) :
    exec (.patchCopy a vs) s = .next (runOp (do
      takeAddress a
      takeCount (0#1 ++ BitVec.ofNat 15 vs.length)
      copyValues vs
      return okResult) s) :=
  if_pos h

/-- The whole run of an RLE record on its own (43 R86). -/
theorem exec_patchRle_narrow {s : State} (h : s.ready) {a : Word} (ha : hiByte a = 0) (n : BitVec 15) (v : Word) :
    exec (.patchRle a n v) s = .next ({ s.wroteAll (List.replicate n.toNat (loByte a, v)) with
      pIdx := s.pIdx + 3, pLen := s.pLen, pAddr := a, pCnt := 1#1 ++ n, pVal := v }.returns okResult) := by
  have hrun : ({ s with pAddr := a, pCnt := 1#1 ++ n, pIdx := s.pIdx + 3, pVal := v } : State).ready := h
  refine congrArg Host.Outcome.next (runOp_ok ((recordHeader_narrow ha _ _ s).trans ?_))
  rw [← wroteAll_bookkeeping]
  exact (op_modify_bind _ _ _).trans (op_bind_ok (repeatWrite_ready hrun n.toNat))

/-- The whole run of a copy record on its own (43 R87). -/
theorem exec_patchCopy_narrow {s : State} (h : s.ready) {a : Word} (ha : hiByte a = 0) {vs : List Word}
    (hv : vs.length < 2 ^ 15) :
    exec (.patchCopy a vs) s = .next ({ s.wroteAll (vs.map fun v => (loByte a, v)) with
      pIdx := s.pIdx + 2 + vs.length, pLen := s.pLen, pAddr := a, pCnt := 0#1 ++ BitVec.ofNat 15 vs.length
      pVal := vs.getLast?.getD s.pVal }.returns okResult) := by
  have hrun : ({ s with pAddr := a, pCnt := 0#1 ++ BitVec.ofNat 15 vs.length, pIdx := s.pIdx + 2 } : State).ready := h
  rw [exec_patchCopy hv]
  refine congrArg Host.Outcome.next (runOp_ok ((recordHeader_narrow ha _ _ s).trans ?_))
  rw [op_bind_ok (copyValues_ready hrun vs), op_pure,
    wroteAll_bookkeeping s _ (s.pIdx + 2) s.pLen a (0#1 ++ BitVec.ofNat 15 vs.length) s.pVal]

/-- A count of less than 2^15 is what the count word of a copy record says (30 R49). -/
theorem copyCount_toNat {n : Nat} (h : n < 2 ^ 15) : (0#1 ++ BitVec.ofNat 15 n : Word).toNat = n := by
  rw [BitVec.toNat_append]
  simpa using h

/-- Settles O27: behind a narrow address the record's values are written in order, a wide one raises before any write. -/
theorem recordRunsAlone : Obligations.RecordRunsAlone := by
  refine fun s a v n vs hb hr hv => ⟨fun ha => ⟨?_, ?_⟩, fun ha => ⟨?_, ?_⟩⟩
  · exact ⟨_, exec_patchRle_narrow ⟨hb, hr⟩ ha n v, rfl, wroteAll_trace _ _, rfl, rfl, rfl, rfl⟩
  · exact ⟨_, exec_patchCopy_narrow ⟨hb, hr⟩ ha hv, rfl, wroteAll_trace _ _, rfl, rfl, copyCount_toNat hv, rfl⟩
  · exact congrArg Host.Outcome.next (recordHeader_wide ha _ s)
  · rw [exec_patchCopy hv, recordHeader_wide ha]

end Sys2Proof.Machine
end

section
/-!
Tables made of records (O24).
-/
namespace Sys2Proof.Machine

theorem wroteAll_mode (s : State) (ws : List (Byte × Word)) : (s.wroteAll ws).mode = s.mode := by
  rw [wroteAll_frame]

/-- The state in which a load of `l` words has taken the records at the head of its table and nothing behind them. -/
def State.loaded (s : State) (rs : List Instr) (l : Nat) : State :=
  ({ s with pLen := l, pIdx := 0 } : State).afterRecords rs

theorem ready_loaded {s : State} (h : s.ready) (rs : List Instr) (l : Nat) : (s.loaded rs l).ready :=
  ready_afterRecords (s := { s with pLen := l, pIdx := 0 }) h rs

/-- The records' register writes in order, and the bookkeeping of the cursor and the record registers. -/
theorem loaded_eq (s : State) (rs : List Instr) (l : Nat) :
    ∃ a c v, s.loaded rs l = { s.wroteAll (rs.map recordWrites).flatten with
      pIdx := (rs.map recordWords).flatten.length, pLen := l, pAddr := a, pCnt := c, pVal := v } := by
  obtain ⟨a, c, v, e⟩ := afterRecords_eq { s with pLen := l, pIdx := 0 } rs
  refine ⟨a, c, v, e.trans ?_⟩
  rw [wroteAll_bookkeeping s _ 0 l s.pAddr s.pCnt s.pVal, Nat.zero_add]

@[simp] theorem loaded_pIdx (s : State) (rs : List Instr) (l : Nat) :
    (s.loaded rs l).pIdx = (rs.map recordWords).flatten.length := by
  obtain ⟨a, c, v, e⟩ := loaded_eq s rs l
  rw [e]

@[simp] theorem loaded_pLen (s : State) (rs : List Instr) (l : Nat) : (s.loaded rs l).pLen = l := by
  obtain ⟨a, c, v, e⟩ := loaded_eq s rs l
  rw [e]

/-- Register writes behind the records: one sequence of writes. -/
theorem loaded_wroteAll_trace (s : State) (rs : List Instr) (l : Nat) (ws : List (Byte × Word)) :
    ((s.loaded rs l).wroteAll ws).trace =
      s.trace ++ writesEvents s.cs s.dcs ((rs.map recordWrites).flatten ++ ws) := by
  obtain ⟨a, c, v, e⟩ := loaded_eq s rs l
  rw [e, wroteAll_bookkeeping, ← wroteAll_append]
  exact wroteAll_trace _ _

theorem loaded_mode (s : State) (rs : List Instr) (l : Nat) : (s.loaded rs l).mode = s.mode := by
  obtain ⟨a, c, v, e⟩ := loaded_eq s rs l
  rw [e]
  exact wroteAll_mode s _

/-- Two words a record at least: the bound of the loop leaves enough for what follows the records. -/
theorem length_le_flatten {rs : List Instr} (hr : ∀ r ∈ rs, isRecord r = true) :
    rs.length ≤ (rs.map recordWords).flatten.length := by
  induction rs with
  | nil => exact Nat.le_refl 0
  | cons r rs ih =>
    have h2 := recordWords_length (hr r (List.mem_cons_self ..))
    have := ih fun q hq => hr q (List.mem_cons_of_mem _ hq)
    simp only [List.map_cons, List.flatten_cons, List.length_append, List.length_cons]
    omega

/-- A load whose waits end at once takes the records at the head of its table, then the loop goes on with the words behind
them. -/
theorem loadUserCode_records {s : State} (h : s.ready) {rs : List Instr} (hr : ∀ r ∈ rs, isRecord r = true)
    {rest : List Word} {plen : Nat} (hp : plen = (rs.map recordWords).flatten.length + rest.length) :
    ∃ fuel, rest.length ≤ fuel ∧ loadUserCode ((rs.map recordWords).flatten ++ rest) plen s =
      loadLoop ((rs.map recordWords).flatten ++ rest) fuel (s.loaded rs plen) := by
  have hlen := length_le_flatten hr
  refine ⟨plen - rs.length, by omega, (op_modify_bind _ _ s).trans ?_⟩
  have hrun := loadLoop_records ((rs.map recordWords).flatten ++ rest) rs rest (plen - rs.length)
    (s := { s with pLen := plen, pIdx := 0 }) h hr rfl (by simp only; omega)
  rwa [Nat.add_sub_of_le (by omega)] at hrun

theorem loadLoop_end (words : List Word) (fuel : Nat) {s : State} (h : s.pLen ≤ s.pIdx) :
    loadLoop words fuel s = .ok () s := by
  cases fuel with
  | zero => rfl
  | succ fuel =>
    simp only [loadLoop, op_get_bind]
    rw [if_neg (by omega), op_pure]

/-- A table that holds its length is loaded (43 R85). -/
theorem exec_loadUserCode {words : List Word} {plen : Nat} (h : plen ≤ words.length) (s : State) :
    exec (.loadUserCode words plen) s = .next (runOp (do loadUserCode words plen; return okResult) s) :=
  if_neg (Nat.not_lt.mpr h)

/-- A table of records loads to the state behind them (43 R85). -/
theorem exec_load_records {s : State} (h : s.ready) {rs : List Instr} (hr : ∀ r ∈ rs, isRecord r = true) :
    exec (.loadUserCode (rs.map recordWords).flatten (rs.map recordWords).flatten.length) s =
      .next ((s.loaded rs (rs.map recordWords).flatten.length).returns okResult) := by
  obtain ⟨fuel, -, e⟩ := loadUserCode_records (rest := []) h hr rfl
  rw [List.append_nil] at e
  exact (exec_loadUserCode (Nat.le_refl _) s).trans (next_runOp_ok (e.trans (loadLoop_end _ fuel (by simp))))

/-- Settles O24: the state behind the records is their writes and the loader's bookkeeping. -/
theorem loaderExecutesRecords : Obligations.LoaderExecutesRecords := by
  intro s rs hb hr hrs
  have hready : s.ready := ⟨hb, hr⟩
  refine ⟨_, exec_load_records hready hrs, rfl, ?_, loaded_pLen _ _ _, by simp [State.returns], ?_⟩
  · simpa [State.wroteAll] using loaded_wroteAll_trace s rs (rs.map recordWords).flatten.length []
  · obtain ⟨a, c, v, e⟩ := loaded_eq s rs (rs.map recordWords).flatten.length
    have hfree := (ready_wroteAll hready (rs.map recordWrites).flatten).1
    rw [e, wroteAll_frame s, hfree]
    rfl

end Sys2Proof.Machine
end

section
/-!
Malformed tables: where the loader stops, and what it has written by then (O25, O26).
-/
namespace Sys2Proof.Machine

/-- From `s` the loader has written `ws` and stopped at a malformed record: the fault is recorded, the bus is free. -/
structure StoppedAfter (ws : List (Byte × Word)) (s t : State) : Prop where
  fault : t.fault = some .patchMalformed
  free : t.busOwned = false
  mode : t.mode = s.mode
  trace : t.trace = s.trace ++ writesEvents s.cs s.dcs ws

/-- From `s` the operation writes `ws`, then raises a malformed table at its word `i`. -/
def RaisesMalformed (op : Op Unit) (s : State) (ws : List (Byte × Word)) (i : Nat) (reason : PatchReason) : Prop :=
  ∃ t, op s = .error (.raised (.patchMalformed i reason)) t ∧ StoppedAfter ws s t

/-- Executed from `s`, the load writes `ws` and answers the malformed table's fault at word `i` (43 R91): the fault is
recorded, the bus is free, the mode is as it was. -/
def LoadFaults (words : List Word) (plen : Nat) (s : State) (ws : List (Byte × Word)) (i : Nat) (reason : PatchReason) :
    Prop :=
  ∃ t, exec (.loadUserCode words plen) s = .next t ∧
    t.result = some { st := .fault (.patchMalformed i reason), val := .absent } ∧
    t.fault = some .patchMalformed ∧ t.busOwned = false ∧ t.mode = s.mode ∧
    t.trace = s.trace ++ writesEvents s.cs s.dcs ws

theorem loadLoop_raised (words : List Word) {fuel : Nat} {s t : State} {stop : Stop} (hf : 0 < fuel)
    (hi : s.pIdx < s.pLen) (e : loadRecord words s = .error stop t) : loadLoop words fuel s = .error stop t := by
  obtain ⟨fuel, rfl⟩ := Nat.exists_eq_succ_of_ne_zero (Nat.ne_of_gt hf)
  simp only [loadLoop, op_get_bind]
  rw [if_pos hi, op_bind_error e]

/-- A table whose record behind well-formed ones is malformed: the load stops there, what was written stays, and the fault
is the result (43 R88, R91). -/
theorem loadFaults_malformed {s : State} (h : s.ready) {rs : List Instr} (hr : ∀ r ∈ rs, isRecord r = true)
    {rest : List Word} {plen : Nat} (hrest : 0 < rest.length)
    (hp : plen = (rs.map recordWords).flatten.length + rest.length) {ws : List (Byte × Word)} {i : Nat}
    {reason : PatchReason}
    (hm : RaisesMalformed (loadRecord ((rs.map recordWords).flatten ++ rest)) (s.loaded rs plen) ws i reason) :
    LoadFaults ((rs.map recordWords).flatten ++ rest) plen s ((rs.map recordWrites).flatten ++ ws) i reason := by
  obtain ⟨t, e, ht⟩ := hm
  obtain ⟨fuel, hfuel, eload⟩ := loadUserCode_records h hr hp
  have eloop := loadLoop_raised ((rs.map recordWords).flatten ++ rest) (fuel := fuel) (by omega)
    (by rw [loaded_pIdx, loaded_pLen]; omega) e
  refine ⟨t.returns _, (exec_loadUserCode (by rw [List.length_append]; omega) s).trans
    (next_runOp_raised (eload.trans eloop)), rfl, ht.fault, ht.free, ht.mode.trans (loaded_mode s rs plen), ?_⟩
  exact ht.trace.trans ((wroteAll_trace _ ws).symm.trans (loaded_wroteAll_trace s rs plen ws))

/-- The same where the malformed record has written nothing. -/
theorem loadFaults_unwritten {s : State} (h : s.ready) {rs : List Instr} (hr : ∀ r ∈ rs, isRecord r = true)
    {rest : List Word} {plen : Nat} (hrest : 0 < rest.length)
    (hp : plen = (rs.map recordWords).flatten.length + rest.length) {i : Nat} {reason : PatchReason}
    (hm : RaisesMalformed (loadRecord ((rs.map recordWords).flatten ++ rest)) (s.loaded rs plen) [] i reason) :
    LoadFaults ((rs.map recordWords).flatten ++ rest) plen s (rs.map recordWrites).flatten i reason := by
  have hload := loadFaults_malformed h hr hrest hp hm
  rwa [List.append_nil] at hload

/-- The table at the cursor behind the records holds the words that follow them. -/
theorem getD_behind_records (s : State) (rs : List Instr) (l : Nat) {rest : List Word} (j : Nat) (hj : j < rest.length) :
    ((rs.map recordWords).flatten ++ rest).getD ((s.loaded rs l).pIdx + j) 0 = rest.getD j 0 :=
  getD_of_drop (rest := []) (by rw [loaded_pIdx, List.drop_left, List.append_nil]) j hj

/-- A wide address: the count word is not read (43 R89). -/
theorem loadRecord_wide (words : List Word) {s : State} (h : s.ready) {a : Word} (hi : s.pIdx < s.pLen)
    (ha : words.getD s.pIdx 0 = a) (hw : hiByte a ≠ 0) :
    RaisesMalformed (loadRecord words) s [] s.pIdx .addressTooWide := by
  simp only [RaisesMalformed, loadRecord, op_get_bind]
  rw [op_bind_ok (patchWord_in words s.pIdx s hi), ha]
  exact ⟨_, op_bind_error (takeAddress_wide a s hw), rfl, h.1, rfl, (List.append_nil _).symm⟩

/-- The table ends behind the address word (43 R88). -/
theorem loadRecord_noCount (words : List Word) {s : State} (h : s.ready) {a : Word} (hi : s.pIdx + 1 = s.pLen)
    (ha : words.getD s.pIdx 0 = a) (hn : hiByte a = 0) :
    RaisesMalformed (loadRecord words) s [] (s.pIdx + 1) .outOfBounds := by
  simp only [RaisesMalformed, loadRecord, op_get_bind]
  rw [op_bind_ok (patchWord_in words s.pIdx s (by omega)), ha, op_bind_ok (takeAddress_narrow a s hn)]
  exact ⟨_, op_bind_error (patchWord_out words _ { s with pAddr := a } (Nat.le_of_eq hi.symm)), rfl, h.1, rfl,
    (List.append_nil _).symm⟩

/-- The table ends behind the two header words of an RLE record (43 R88). -/
theorem loadRecord_noValue (words : List Word) {s : State} (h : s.ready) {a count : Word} (hi : s.pIdx + 2 = s.pLen)
    (ha : words.getD s.pIdx 0 = a) (hc : words.getD (s.pIdx + 1) 0 = count) (hn : hiByte a = 0)
    (hbit : count.getLsbD 15 = true) : RaisesMalformed (loadRecord words) s [] (s.pIdx + 2) .outOfBounds := by
  rw [RaisesMalformed, loadRecord_header words (by omega) ha hc hn, if_pos hbit]
  simp only [loadRle, op_get_bind]
  exact ⟨_, op_bind_error (patchWord_out words _ { s with pAddr := a, pCnt := count, pIdx := s.pIdx + 2 }
    (Nat.le_of_eq hi.symm)), rfl, h.1, rfl, (List.append_nil _).symm⟩

/-- The loop of a copy record takes its first values, then the others. -/
theorem loadCopy_add (words : List Word) (m n : Nat) :
    loadCopy words (m + n) = (do loadCopy words m; loadCopy words n) := by
  induction m with
  | zero => rw [Nat.zero_add]; rfl
  | succ m ih => simp only [Nat.succ_add, loadCopy, bind_assoc, ih]

/-- The table ends before the values of a copy record do: those it holds are written (43 R88, R91). -/
theorem loadCopy_cut (words : List Word) {s : State} (h : s.ready) {vs : List Word} {n : Nat}
    (hl : s.pIdx + vs.length = s.pLen) (hn : vs.length < n)
    (hw : ∀ j, j < vs.length → words.getD (s.pIdx + j) 0 = vs.getD j 0) :
    RaisesMalformed (loadCopy words n) s (vs.map fun v => (loByte s.pAddr, v)) (s.pIdx + vs.length) .outOfBounds := by
  obtain ⟨k, rfl⟩ := Nat.exists_eq_add_of_lt hn
  have hwritten := (loadCopy_eq words vs.length h (Nat.le_of_eq hl) vs rfl hw).trans (copyValues_ready h vs)
  rw [RaisesMalformed, Nat.add_assoc, loadCopy_add, op_bind_ok hwritten]
  simp only [loadCopy, op_get_bind]
  exact ⟨_, op_bind_error (patchWord_out words _ _ (Nat.le_of_eq hl.symm)), rfl, (ready_wroteAll h _).1,
    wroteAll_mode s _, wroteAll_trace s _⟩

/-- The table ends inside a copy record (43 R88, R91). -/
theorem loadRecord_cutCopy (words : List Word) {s : State} (h : s.ready) {a count : Word} {vs : List Word}
    (hi : s.pIdx + 2 + vs.length = s.pLen)
    (hw : ∀ j, j < (a :: count :: vs).length → words.getD (s.pIdx + j) 0 = (a :: count :: vs).getD j 0)
    (hn : hiByte a = 0) (hbit : count.getLsbD 15 = false) (hv : vs.length < (count.extractLsb' 0 15).toNat) :
    RaisesMalformed (loadRecord words) s (vs.map fun v => (loByte a, v)) (s.pIdx + 2 + vs.length) .outOfBounds := by
  have hheader := loadRecord_header words (a := a) (count := count) (by omega) (hw 0 (by simp)) (hw 1 (by simp)) hn
  obtain ⟨t, e, ht⟩ := loadCopy_cut words (s := { s with pAddr := a, pCnt := count, pIdx := s.pIdx + 2 }) h hi hv
    fun j hj => by
      have hindex : s.pIdx + 2 + j = s.pIdx + (j + 2) := by omega
      exact (congrArg (words.getD · 0) hindex).trans (hw (j + 2) (by simpa using hj))
  rw [if_neg (Bool.eq_false_iff.mp hbit)] at hheader
  exact ⟨t, hheader.trans e, ht.fault, ht.free, ht.mode, ht.trace⟩

/-- Settles O25: the record behind the well-formed ones lacks its count word, its value, or the rest of its values. -/
theorem truncatedTableFaults : Obligations.TruncatedTableFaults := by
  intro s rs a count vs hb hr hrs ha before
  have hready : ∀ l, (s.loaded rs l).ready := fun l => ready_loaded ⟨hb, hr⟩ rs l
  refine ⟨?_, fun hbit => ?_, fun hbit hv => ?_⟩
  · have hm := loadRecord_noCount (before ++ [a]) (hready (before.length + 1)) (by simp [before])
      (getD_behind_records s rs _ 0 (by simp)) ha
    rw [loaded_pIdx] at hm
    exact loadFaults_unwritten ⟨hb, hr⟩ hrs (by simp) rfl hm
  · have hm := loadRecord_noValue (before ++ [a, count]) (hready (before.length + 2)) (by simp [before])
      (getD_behind_records s rs _ 0 (by simp)) (getD_behind_records s rs _ 1 (by simp)) ha hbit
    rw [loaded_pIdx] at hm
    exact loadFaults_unwritten ⟨hb, hr⟩ hrs (by simp) rfl hm
  · have hm := loadRecord_cutCopy (before ++ a :: count :: vs) (hready (before.length + 2 + vs.length))
      (by simp [before]) (getD_behind_records s rs _) ha hbit hv
    rw [loaded_pIdx] at hm
    exact loadFaults_malformed ⟨hb, hr⟩ hrs (by simp) (by simp only [before, List.length_cons]; omega) hm

/-- Settles O26: the record behind the well-formed ones raises at its address word. -/
theorem wideAddressFaults : Obligations.WideAddressFaults := by
  intro s rs a rest hb hr hrs ha before
  have hm := loadRecord_wide (before ++ a :: rest) (ready_loaded ⟨hb, hr⟩ rs (before.length + 1 + rest.length))
    (by simp [before]; omega) (getD_behind_records s rs _ 0 (by simp)) ha
  rw [loaded_pIdx] at hm
  exact loadFaults_unwritten ⟨hb, hr⟩ hrs (by simp) (by simp only [before, List.length_cons]; omega) hm

end Sys2Proof.Machine
end

section
/-!
What initialisation, the begin-calls and `end` leave alone (O57).
-/
namespace Sys2Proof.Machine

/-- Nothing changes but the fields of chip initialisation, the reset line and the clock, the transport's own fields, the
result record and the mark of a hang. -/
def KeepsButInit (s t : State) : Prop :=
  t = { s with cs := t.cs, dcs := t.dcs, rst := t.rst, busClk := t.busClk, busOwned := t.busOwned, fault := t.fault,
               stFail1 := t.stFail1, stFail2 := t.stFail2, version := t.version, family := t.family,
               endFill := t.endFill, initOk := t.initOk, trace := t.trace, env := t.env, result := t.result,
               waiting := t.waiting }

theorem KeepsButInit.trans {s t u : State} (h1 : KeepsButInit s t) (h2 : KeepsButInit t u) : KeepsButInit s u := by
  unfold KeepsButInit at *
  rw [h2, h1]

theorem keepsButInit_transport : TransportClosed KeepsButInit where
  refl _ := rfl
  trans _ _ _ := .trans
  move _ _ _ _ _ _ _ _ := rfl

theorem keepsButInit_chipInit : Keeps KeepsButInit chipInit :=
  keeps_chipInit (keepsButInit_transport.chip fun _ _ _ _ _ _ _ _ _ => rfl)

/-- Beside what chip initialisation may change, only the mode, the count of fillers left and the loader's registers
change. -/
def KeepsButSession (s t : State) : Prop :=
  t = { s with mode := t.mode, cs := t.cs, dcs := t.dcs, rst := t.rst, busClk := t.busClk, busOwned := t.busOwned,
               fault := t.fault, stFail1 := t.stFail1, stFail2 := t.stFail2, version := t.version,
               family := t.family, endFill := t.endFill, initOk := t.initOk, sRem := t.sRem, pIdx := t.pIdx,
               pLen := t.pLen, pAddr := t.pAddr, pCnt := t.pCnt, pVal := t.pVal, trace := t.trace, env := t.env,
               result := t.result, waiting := t.waiting }

theorem KeepsButSession.trans {s t u : State} (h1 : KeepsButSession s t) (h2 : KeepsButSession t u) :
    KeepsButSession s u := by
  unfold KeepsButSession at *
  rw [h2, h1]

theorem keepsButSession_transport : TransportClosed KeepsButSession where
  refl _ := rfl
  trans _ _ _ := .trans
  move _ _ _ _ _ _ _ _ := rfl

theorem keepsButSession_chip : ChipClosed KeepsButSession :=
  keepsButSession_transport.chip fun _ _ _ _ _ _ _ _ _ => rfl

theorem keepsButSession_beginOutput : Keeps KeepsButSession beginOutput :=
  keeps_beginOutput keepsButSession_chip (fun _ _ _ _ _ _ => rfl) (fun _ => rfl)
    (moves_sendFillers keepsButSession_transport fun _ _ => rfl)

theorem keepsButSession_beginMidi : Keeps KeepsButSession beginMidi :=
  keeps_beginMidi keepsButSession_chip (fun _ _ _ _ _ _ => rfl)
    (moves_drawMode keepsButSession_transport fun _ _ => rfl) fun _ _ => rfl

/-- Beside what chip initialisation may change, only the mode, the recording fields, the channel multiplier, the loader's
registers and the solver's scratch fields change. -/
def KeepsButRecording (s t : State) : Prop :=
  t = { s with mode := t.mode, cs := t.cs, dcs := t.dcs, rst := t.rst, busClk := t.busClk, busOwned := t.busOwned,
               fault := t.fault, stFail1 := t.stFail1, stFail2 := t.stFail2, version := t.version,
               family := t.family, endFill := t.endFill, initOk := t.initOk, chMult := t.chMult,
               recRate := t.recRate, recCh := t.recCh, recGain := t.recGain, recAgc := t.recAgc,
               recSrc := t.recSrc, recKeepHdr := t.recKeepHdr, recAchieved := t.recAchieved, pIdx := t.pIdx,
               pLen := t.pLen, pAddr := t.pAddr, pCnt := t.pCnt, pVal := t.pVal, bestDiff := t.bestDiff,
               bestK := t.bestK, bestDiv := t.bestDiv, bestFound := t.bestFound, trace := t.trace, env := t.env,
               result := t.result, waiting := t.waiting }

theorem KeepsButRecording.trans {s t u : State} (h1 : KeepsButRecording s t) (h2 : KeepsButRecording t u) :
    KeepsButRecording s u := by
  unfold KeepsButRecording at *
  rw [h2, h1]

theorem keepsButRecording_transport : TransportClosed KeepsButRecording where
  refl _ := rfl
  trans _ _ _ := .trans
  move _ _ _ _ _ _ _ _ := rfl

theorem keepsButRecording_beginInput (o : RecOptions) : Keeps KeepsButRecording (beginInput o) :=
  keeps_beginInput (keepsButRecording_transport.chip fun _ _ _ _ _ _ _ _ _ => rfl) (fun _ _ _ _ _ _ => rfl)
    (fun _ _ => rfl) (fun _ _ _ _ _ => rfl) (fun _ => rfl) o fun _ => rfl

/-- Nothing changes but the mode, the transport's own fields, the result record and the mark of a hang. -/
def KeepsButMode (s t : State) : Prop :=
  t = { s with mode := t.mode, cs := t.cs, dcs := t.dcs, busOwned := t.busOwned, fault := t.fault, trace := t.trace,
               env := t.env, result := t.result, waiting := t.waiting }

theorem KeepsButMode.trans {s t u : State} (h1 : KeepsButMode s t) (h2 : KeepsButMode t u) : KeepsButMode s u := by
  unfold KeepsButMode at *
  rw [h2, h1]

theorem keepsButMode_transport : TransportClosed KeepsButMode where
  refl _ := rfl
  trans _ _ _ := .trans
  move _ _ _ _ _ _ _ _ := rfl

theorem keepsButMode_endSession : Keeps KeepsButMode endSession :=
  keeps_endSession keepsButMode_transport.frames fun _ _ => rfl

/-- Settles O57: each operation's parts move the fields named for it only, and so does the result record. -/
theorem modeMachineFrame : Obligations.ModeMachineFrame := by
  refine fun s t => ⟨fun e => ?_, ?_, fun o e => ?_, fun e => ?_⟩
  · obtain ⟨u, r, rfl, hu⟩ := next_runOp_keeps e (keepsButInit_chipInit s)
    exact hu.trans rfl
  · rintro (e | e)
    · obtain ⟨u, r, rfl, hu⟩ := next_runOp_keeps e (keepsButSession_beginOutput s)
      exact hu.trans rfl
    · obtain ⟨u, r, rfl, hu⟩ := next_runOp_keeps e (keepsButSession_beginMidi s)
      exact hu.trans rfl
  · obtain ⟨u, r, rfl, hu⟩ := next_runOp_keeps e (keepsButRecording_beginInput o s)
    exact hu.trans rfl
  · obtain ⟨u, r, rfl, hu⟩ := next_runOp_pure e (keepsButMode_endSession s)
    exact hu.trans rfl

end Sys2Proof.Machine
end

section
/-!
Who writes the mode (O55).
-/
namespace Sys2Proof.Machine

/-- The mode is the same, or it is now `m`. -/
def ModeKeptOr (m : Mode) (s t : State) : Prop := t.mode = s.mode ∨ t.mode = m

/-- Nothing outside the mode machine writes the mode. -/
theorem modeKeptOr_plain (m : Mode) : PlainClosed (ModeKeptOr m) where
  refl _ := .inl rfl
  trans _ _ _ h1 h2 := by
    unfold ModeKeptOr at *
    rcases h2 with h2 | h2
    · rwa [h2]
    · exact .inr h2
  move _ _ _ _ _ _ _ _ := .inl rfl
  loader _ _ _ _ _ _ := .inl rfl
  scratch _ _ _ _ _ := .inl rfl
  cursor _ _ _ := .inl rfl
  settings _ _ _ _ _ _ _ := .inl rfl
  store _ _ := .inl rfl

/-- Chip initialisation does not write it either. -/
theorem modeKeptOr_chip (m : Mode) : ChipClosed (ModeKeptOr m) :=
  (modeKeptOr_plain m).toTransportClosed.chip fun _ _ _ _ _ _ _ _ _ => .inl rfl

theorem modeKeptOr_beginOutput : Keeps (ModeKeptOr .output) beginOutput :=
  keeps_beginOutput (modeKeptOr_chip _) (modeKeptOr_plain _).loader (fun _ => .inr rfl)
    (moves_sendFillers (modeKeptOr_plain _).toTransportClosed fun _ _ => .inl rfl)

theorem modeKeptOr_beginInput (o : RecOptions) : Keeps (ModeKeptOr .input) (beginInput o) :=
  keeps_beginInput (modeKeptOr_chip _) (modeKeptOr_plain _).loader (fun _ _ => .inl rfl) (modeKeptOr_plain _).scratch
    (fun _ => .inr rfl) o fun _ => .inl rfl

/-- The two read-modify-writes of `end` leave the mode to what comes after them. -/
theorem modeKeptOr_afterEndFrames {m : Mode} {last : Op Unit} (hl : Keeps (ModeKeptOr m) last) (f : Word → Word) :
    Keeps (ModeKeptOr m) (do setModeBits f; softReset; last) :=
  have hf := (modeKeptOr_plain m).toTransportClosed.frames
  hf.bind (keeps_setModeBits hf f) fun _ => hf.bind (keeps_softReset hf) fun _ => hl

/-- The mode is the same, or it is cleared as `END_CLEARS_MODE` says. -/
def ModeKeptOrCleared (s t : State) : Prop :=
  t.mode = s.mode ∨ (t.mode = .notActive ∧ s.cfg.endClearsMode = true)

theorem endState_get_bind {α : Type} (f : State → Op α) (s : State) : endState (get >>= f) s = endState (f s) s := rfl

theorem modeKeptOrCleared_endSession : Keeps ModeKeptOrCleared endSession := by
  intro s
  rw [endSession, endState_get_bind]
  cases hc : s.cfg.endClearsMode with
  | true =>
    have clears : Keeps (ModeKeptOr .notActive) (modify fun t => { t with mode := .notActive }) :=
      keeps_modify fun _ => .inr rfl
    rw [if_pos rfl]
    exact (modeKeptOr_afterEndFrames clears _ s).imp_right (⟨·, hc⟩)
  | false =>
    rw [if_neg Bool.false_ne_true]
    exact .inl (or_self_iff.mp (modeKeptOr_afterEndFrames (fun _ => .inl rfl) _ s))

/-- Settles O55: outside the mode machine and in chip initialisation the mode is kept, and each of the four others has one
mode it may change to. -/
theorem modeWriters : Obligations.ModeWriters := by
  intro i s t e hne
  cases hi : modeMachineOp i with
  | false =>
    obtain ⟨u, r, rfl, hu⟩ := exec_plain_keeps (modeKeptOr_plain s.mode) i hi e
    exact absurd (or_self_iff.mp hu) hne
  | true =>
    cases i with
    | chipInit =>
      obtain ⟨u, r, rfl, hu⟩ := next_runOp_keeps e (keeps_chipInit (modeKeptOr_chip s.mode) s)
      exact absurd (or_self_iff.mp hu) hne
    | beginOutput =>
      obtain ⟨u, r, rfl, hu⟩ := next_runOp_keeps e (modeKeptOr_beginOutput s)
      exact .inl ⟨rfl, hu.resolve_left hne⟩
    | beginMidi => exact .inr (.inl rfl)
    | beginInput o =>
      obtain ⟨u, r, rfl, hu⟩ := next_runOp_keeps e (modeKeptOr_beginInput o s)
      exact .inr (.inr (.inl ⟨o, rfl, hu.resolve_left hne⟩))
    | endOp =>
      obtain ⟨u, r, rfl, hu⟩ := next_runOp_pure e (modeKeptOrCleared_endSession s)
      exact .inr (.inr (.inr ⟨rfl, hu.resolve_left hne⟩))
    | _ => cases hi

end Sys2Proof.Machine
end

section
/-!
Exit, soft reset and capture reads where every wait ends at once (O37, O39).
-/
namespace Sys2Proof.Machine

/-- `end` as one equation (44 R108). -/
theorem endSession_ready {s : State} (h : s.ready) :
    endSession s = .ok () { (s.modeBitsSet fun m => withoutBit m s.cfg.bitRec).modeBitsSet
        fun m => withBit m s.cfg.bitReset with
      mode := if s.cfg.endClearsMode then .notActive else s.mode } := by
  refine (op_get_bind _ s).trans ((op_bind_ok (setModeBits_ready h _)).trans
    ((op_bind_ok (softReset_ready (ready_modeBitsSet h _))).trans ?_))
  cases s.cfg.endClearsMode <;> rfl

/-- Settles O37: the two bits are set and cleared in the words the mode register answers. -/
theorem endAndSoftReset : Obligations.EndAndSoftReset := fun _ hb hr =>
  ⟨next_runOp_ok (softReset_ready ⟨hb, hr⟩), next_runOp_ok (endSession_ready ⟨hb, hr⟩)⟩

/-- `available` in Input mode: twice the word of the second stream header register (44 R110). -/
theorem available_ready {s : State} (h : s.ready) (hm : s.mode = .input) :
    available s = .ok (2 * (s.answered (s.regAddr .hdat1)).toNat) (s.didRead (s.regAddr .hdat1)) := by
  refine (op_get_bind _ s).trans ?_
  rw [if_pos hm]
  exact op_bind_ok (readNamed_ready h .hdat1)

theorem readBytes_input {s : State} (hm : s.mode = .input) (buf n : Nat) :
    readBytes buf n s =
      (do let a ← available; readLoop (min n a / 2) buf; return 2 * (min n a / 2) : Op Nat) s :=
  (op_get_bind _ s).trans (by rw [if_pos hm])

theorem readBytes_outside_input {s : State} (hm : s.mode ≠ .input) (buf n : Nat) : readBytes buf n s = .ok 0 s :=
  (op_get_bind _ s).trans (by rw [if_neg hm]; rfl)

/-- `readBytes` in Input mode: the words that fit and are there, captured (44 R111). -/
theorem readBytes_ready {s : State} (h : s.ready) (hm : s.mode = .input) (buf n : Nat) :
    readBytes buf n s =
      .ok (2 * (min n (2 * (s.answered (s.regAddr .hdat1)).toNat) / 2))
        ((s.didRead (s.regAddr .hdat1)).captured (min n (2 * (s.answered (s.regAddr .hdat1)).toNat) / 2) buf) := by
  rw [readBytes_input hm, op_bind_ok (available_ready h hm), op_bind_ok (readLoop_ready (ready_didRead h _) _ buf)]
  rfl

/-- Settles O39: the fill level is read once, then as many words as it and the caller's size allow. -/
theorem captureReadsInInput : Obligations.CaptureReadsInInput := fun _ buf n hm hb hr =>
  ⟨next_runOp_ok (f := fun k : Nat => okNum k) (available_ready ⟨hb, hr⟩ hm),
    next_runOp_ok (f := fun k : Nat => okNum k) (readBytes_ready ⟨hb, hr⟩ hm buf n)⟩

end Sys2Proof.Machine
end

section
/-!
Where `readBytes` writes (O40).
-/
namespace Sys2Proof.Machine

/-- The payload buffer space reads as before outside the addresses from `lo` to below `hi`. -/
def BufferKeptOutside (lo hi : Nat) (s t : State) : Prop :=
  ∀ a, a < lo ∨ hi ≤ a → Memory.read t.buf a = Memory.read s.buf a

theorem bufferKeptOutside_transport (lo hi : Nat) : TransportClosed (BufferKeptOutside lo hi) where
  refl _ _ _ := rfl
  trans _ _ _ h1 h2 a ha := (h2 a ha).trans (h1 a ha)
  move _ _ _ _ _ _ _ _ _ _ := rfl

/-- A captured word goes to two addresses. -/
theorem bufferKeptOutside_storeWord {lo hi at_ : Nat} (hlo : lo ≤ at_) (hhi : at_ + 2 ≤ hi) (w : Word) :
    Keeps (BufferKeptOutside lo hi) (storeWord at_ w) := by
  intro s a ha
  refine (Memory.read_write_other _ _ _ _ ?_).trans (Memory.read_write_other _ _ _ _ ?_) <;> omega

/-- `n` captured words go to the `2 n` addresses from `at_` on. -/
theorem bufferKeptOutside_readLoop {lo hi : Nat} (n at_ : Nat) (hlo : lo ≤ at_) (hhi : at_ + 2 * n ≤ hi) :
    Keeps (BufferKeptOutside lo hi) (readLoop n at_) := by
  have h := (bufferKeptOutside_transport lo hi).frames
  induction n generalizing at_ with
  | zero => exact h.pure _
  | succ n ih =>
    exact h.bind (keeps_readNamed h _) fun w => h.bind (bufferKeptOutside_storeWord hlo (by omega) w) fun _ =>
      ih (at_ + 2) (by omega) (by omega)

/-- However it ends, `readBytes` writes nothing beyond the whole words the caller has room for. -/
theorem bufferKeptOutside_readBytes (buf n : Nat) :
    Keeps (BufferKeptOutside buf (buf + 2 * (n / 2))) (readBytes buf n) :=
  have h := (bufferKeptOutside_transport buf (buf + 2 * (n / 2))).frames
  h.bind h.get fun _ => Keeps.ite
    (h.bind (keeps_available h) fun a => h.bind
      (bufferKeptOutside_readLoop (min n a / 2) buf (Nat.le_refl buf) (by omega)) fun _ => h.pure _)
    (h.pure _)

/-- What an operation that ends well keeps. -/
theorem Keeps.of_ok {R : State → State → Prop} {α : Type} {op : Op α} (hk : Keeps R op) {s t : State} {a : α}
    (e : op s = .ok a t) : R s t := by
  have h := hk s
  rwa [endState_ok e] at h

/-- The count `readBytes` returns is even, at most the caller's size, and nothing is written beyond it. -/
theorem readBytes_count {buf n k : Nat} {s t : State} (e : readBytes buf n s = .ok k t) :
    ∃ j, k = 2 * j ∧ 2 * j ≤ n ∧ BufferKeptOutside buf (buf + 2 * j) s t := by
  by_cases hm : s.mode = .input
  · rw [readBytes_input hm] at e
    obtain ⟨a, u, e1, e⟩ := op_bind_ok_inv e
    obtain ⟨_, w, e2, e⟩ := op_bind_ok_inv e
    cases e
    have h := bufferKeptOutside_transport buf (buf + 2 * (min n a / 2))
    exact ⟨min n a / 2, rfl, by omega, h.trans _ _ _ ((keeps_available h.frames).of_ok e1)
      ((bufferKeptOutside_readLoop (min n a / 2) buf (Nat.le_refl buf) (Nat.le_refl _)).of_ok e2)⟩
  · rw [readBytes_outside_input hm] at e
    cases e
    exact ⟨0, rfl, Nat.zero_le n, fun _ _ => rfl⟩

/-- Nothing changes but the payload buffer space, the transport's own fields, the result record and the mark of a hang. -/
def KeepsButBuffer (s t : State) : Prop :=
  t = { s with buf := t.buf, cs := t.cs, dcs := t.dcs, busOwned := t.busOwned, fault := t.fault, trace := t.trace,
               env := t.env, result := t.result, waiting := t.waiting }

theorem KeepsButBuffer.trans {s t u : State} (h1 : KeepsButBuffer s t) (h2 : KeepsButBuffer t u) :
    KeepsButBuffer s u := by
  unfold KeepsButBuffer at *
  rw [h2, h1]

theorem keepsButBuffer_transport : TransportClosed KeepsButBuffer where
  refl _ := rfl
  trans _ _ _ := .trans
  move _ _ _ _ _ _ _ _ := rfl

/-- A result record `(OK, k)` is that of an operation that ended well. -/
theorem next_runOp_okNum {α : Type} {op : Op α} {f : α → Result} {s t : State} {k : Int}
    (e : (Host.Outcome.next (runOp (op >>= fun a => pure (f a)) s) : Host.Outcome State Fault Refusal) = .next t)
    (hk : t.result = some (okNum k)) : ∃ a u, op s = .ok a u ∧ t = u.returns (f a) := by
  cases hrun : op s with
  | ok a u => exact ⟨a, u, rfl, Host.Outcome.next.inj (e.symm.trans (next_runOp_ok hrun))⟩
  | error stop u =>
    cases stop with
    | raised info => cases e.symm.trans (next_runOp_raised hrun); cases hk
    | hung => cases e.symm.trans (next_runOp_hung hrun); cases hk

/-- Settles O40: the loop stays below the count it is run for, and a numeric result is that of a read that ended well. -/
theorem readBytesStaysInBuffer : Obligations.ReadBytesStaysInBuffer := by
  intro s t buf n e
  refine ⟨?_, fun k hk => ?_, ?_⟩
  · obtain ⟨u, r, rfl, hu⟩ := next_runOp_pure e (bufferKeptOutside_readBytes buf n s)
    exact hu
  · obtain ⟨m, u, hrun, rfl⟩ := next_runOp_okNum (op := readBytes buf n) e hk
    obtain ⟨j, rfl, hj, hu⟩ := readBytes_count hrun
    cases hk
    exact ⟨j, rfl, hj, hu⟩
  · obtain ⟨u, r, rfl, hu⟩ := next_runOp_pure e
      (keeps_readBytes keepsButBuffer_transport.frames (fun _ _ _ => rfl) buf n s)
    exact hu.trans rfl

end Sys2Proof.Machine
end

section
/-!
Chip initialisation (O29).
-/
namespace Sys2Proof.Machine

/-- An operation that ends well is executed to its end state with its answer as the result record. -/
theorem next_runOp_answers {op : Op Result} {s t : State} {r : Result} (h : op s = .ok r t) :
    (Host.Outcome.next (runOp op s) : Host.Outcome State Fault Refusal) = .next (t.returns r) :=
  congrArg Host.Outcome.next (runOp_ok h)

/-- An operation that raises a fault is executed to the state that records it. -/
theorem next_runOp_faults {op : Op Result} {s t : State} {info : FaultInfo} (h : op s = .error (.raised info) t) :
    (Host.Outcome.next (runOp op s) : Host.Outcome State Fault Refusal) =
      .next (t.returns { st := .fault info, val := .absent }) :=
  congrArg Host.Outcome.next (runOp_raised h)

/-! ### The verdict -/

/-- With the chip connected, the counts of the two self-test phases decide (44 R96, R98). -/
theorem initVerdict_connected (s : State) :
    initVerdict true s = .ok (if s.stFail1 = 0 ∧ s.stFail2 = 0 then okResult else failResult .selfTestFailure)
      { s with initOk := decide (s.stFail1 = 0 ∧ s.stFail2 = 0) } := by
  refine (op_modify_bind _ _ s).trans ((op_get_bind _ _).trans ?_)
  by_cases h1 : s.stFail1 = 0 <;> by_cases h2 : s.stFail2 = 0 <;> simp [h1, h2, Nat.pos_iff_ne_zero]

/-- A failed connectivity check is logged and comes before a failed self-test (60 R152). -/
theorem initVerdict_unconnected (s : State) :
    initVerdict false s = .ok (failResult .connectivityFailure)
      { s with initOk := false, trace := s.trace ++ [⟨.log .error .connect, s.cs, s.dcs⟩] } := rfl

/-- Everything the verdict can be, and what it leaves: the flag, the result and the counts agree. -/
theorem initVerdict_done (connected : Bool) (s : State) :
    ∃ r t, initVerdict connected s = .ok r t ∧ t = { s with initOk := t.initOk, trace := t.trace } ∧
      (t.initOk = true ↔ r = okResult) ∧ (t.initOk = true → s.stFail1 = 0 ∧ s.stFail2 = 0) ∧
      (r = okResult ∨ r = failResult .connectivityFailure ∨
        (r = failResult .selfTestFailure ∧ (0 < s.stFail1 ∨ 0 < s.stFail2))) := by
  cases connected with
  | false => exact ⟨_, _, initVerdict_unconnected s, rfl, by simp [failResult, okResult], by simp, .inr (.inl rfl)⟩
  | true =>
    by_cases h : s.stFail1 = 0 ∧ s.stFail2 = 0
    · exact ⟨_, _, initVerdict_connected s, rfl, by simp [h], by simp, .inl (if_pos h)⟩
    · exact ⟨_, _, initVerdict_connected s, rfl, by simp [h, failResult, okResult], by simp,
        .inr (.inr ⟨if_neg h, by omega⟩)⟩

/-! ### Whatever the chip answers -/

/-- What initialisation leaves where every wait ends (44 R96): lines idle, clock fast, the family that of the version, the
flag, the counts and the answer agreed. -/
structure Initialised (s : State) (r : Result) (t : State) : Prop where
  calm : t.calm
  waiting : t.waiting = s.waiting
  cs : t.cs = true
  dcs : t.dcs = true
  clock : t.busClk = s.cfg.clkFast
  rst : t.rst = (if s.cfg.hasRst then !s.cfg.rstActive else s.rst)
  family : t.family = familyOf s.cfg t.version
  ok_iff : t.initOk = true ↔ r = okResult
  passed : t.initOk = true → t.stFail1 = 0 ∧ t.stFail2 = 0
  answers : r = okResult ∨ r = failResult .connectivityFailure ∨
    (r = failResult .selfTestFailure ∧ (0 < t.stFail1 ∨ 0 < t.stFail2))
  fails1 : t.stFail1 ≤ s.cfg.stMaxFail
  fails2 : t.stFail2 ≤ s.cfg.stMaxFail
  fault : t.fault = s.fault
  frame : KeepsButInit s t

/-- Where every wait ends, initialisation runs all its steps to a verdict. -/
theorem chipInit_done {s : State} (hs : s.calm) : ∃ r t, chipInit s = .ok r t ∧ Initialised s r t := by
  obtain ⟨s1, e1, c1, w1, cs1, dcs1, f1, r1, k1⟩ := resetPins_done s hs
  obtain ⟨ready, s2, e2, a2, clk2, n1, n2, k2⟩ := probeBus_done c1
  obtain ⟨st, s3, e3, a3, fam3, k3⟩ := programChip_done a2.calm
  obtain ⟨r, t, e4, k4, ok4, pass4, ans4⟩ := initVerdict_done (ready && statusPlausible st) s3
  have run : chipInit s = .ok r t :=
    (op_bind_ok e1).trans ((op_bind_ok e2).trans ((op_bind_ok e3).trans e4))
  have cfg2 : s2.cfg = s.cfg := by rw [k2, k1]
  have lines3 : s3.cs = true ∧ s3.dcs = true := (a2.trans a3).lines ⟨cs1, dcs1⟩
  have clk3 : s3.busClk = s.cfg.clkFast := by rw [k3]; exact clk2.trans (by rw [k1])
  have rst3 : s3.rst = s1.rst := by rw [k3]; show s2.rst = _; rw [k2]
  have max1 : s1.cfg.stMaxFail = s.cfg.stMaxFail := by rw [k1]
  have fails13 : s3.stFail1 ≤ s.cfg.stMaxFail := by rw [k3]; exact n1.trans_eq max1
  have fails23 : s3.stFail2 ≤ s.cfg.stMaxFail := by rw [k3]; exact n2.trans_eq max1
  exact ⟨r, t, run, {
    calm := by rw [k4]; exact a3.calm
    waiting := by rw [k4]; exact a3.waiting.trans (a2.waiting.trans w1)
    cs := by rw [k4]; exact lines3.1
    dcs := by rw [k4]; exact lines3.2
    clock := by rw [k4]; exact clk3
    rst := by rw [k4]; exact rst3.trans r1
    family := by rw [k4]; exact fam3.trans (by rw [cfg2])
    ok_iff := ok4
    passed := by rw [k4]; exact pass4
    answers := by rw [k4]; exact ans4
    fails1 := by rw [k4]; exact fails13
    fails2 := by rw [k4]; exact fails23
    fault := by rw [k4]; exact a3.fault.trans (a2.fault.trans f1)
    frame := keepsButInit_chipInit.of_ok run }⟩

/-! ### Where the ready-signal settles -/

/-- The frame address of a named register under a configuration (10_state R24, 30 R48). -/
def frameAddr (c : Config) (r : RegName) : Byte := (c.regMap.num r).zeroExtend 8

/-- The state after the clock and sample-rate registers are written (44 R96). -/
def State.clocked (s : State) (c : Config) : State :=
  (s.wrote (frameAddr c .clockf) c.clockfInit).wrote (frameAddr c .audata) c.audataInit

/-- The status word the chip then answers (44 R97, R99). -/
def State.statusWord (s : State) (c : Config) : Word := (s.clocked c).answered (frameAddr c .status)

/-- The state after the end-fill byte's address is written (44 R100). -/
def State.fillAddressed (s : State) (c : Config) : State :=
  ((s.clocked c).didRead (frameAddr c .status)).wrote (frameAddr c .wramAddr) c.endFillAddr

/-- The state after steps 4 and 5 of `chipInit` (44 R96, R99, R100). -/
def State.programmed (s : State) (c : Config) : State :=
  { (s.fillAddressed c).didRead (frameAddr c .wram) with
    version := versionField c (s.statusWord c)
    family := familyOf c (versionField c (s.statusWord c))
    endFill := loByte ((s.fillAddressed c).answered (frameAddr c .wram)) }

/-- Steps 4 and 5 as one equation. -/
theorem programChip_ready {s : State} (h : s.ready) {c : Config} (hc : s.cfg = c) :
    programChip s = .ok (s.statusWord c) (s.programmed c) := by
  subst hc
  have h1 := ready_wrote h (s.regAddr .clockf) s.cfg.clockfInit
  have h2 := ready_wrote h1 (s.regAddr .audata) s.cfg.audataInit
  have h3 := ready_didRead h2 (s.regAddr .status)
  refine (op_get_bind _ s).trans ((op_bind_ok (writeNamed_ready h _ _)).trans
    ((op_bind_ok (writeNamed_ready h1 _ _)).trans ((op_bind_ok (readNamed_ready h2 _)).trans
      ((op_modify_bind _ _ _).trans ?_))))
  exact (op_bind_ok (wramRead_ready (s := { (s.clocked s.cfg).didRead (s.regAddr .status) with
    version := versionField s.cfg (s.statusWord s.cfg)
    family := familyOf s.cfg (versionField s.cfg (s.statusWord s.cfg)) }) h3 s.cfg.endFillAddr)).trans rfl

/-- Once the first three steps are done, the rest of initialisation is the programming and the verdict. -/
theorem chipInit_probed {s x : State} {seen : Bool} (e : (do resetPins; probeBus) s = .ok seen x) (h : x.ready)
    {c : Config} (hc : x.cfg = c) :
    chipInit s = initVerdict (seen && statusPlausible (x.statusWord c)) (x.programmed c) := by
  have run : chipInit s = ((do resetPins; probeBus) >>= fun seen => do
      let st ← programChip
      initVerdict (seen && statusPlausible st) : Op Result) s := by
    rw [bind_assoc]; rfl
  rw [run, op_bind_ok e, op_bind_ok (programChip_ready h hc)]

/-- The version field is cut out of the status word's number (44 R96; log 28). -/
theorem versionField_eq (c : Config) (st : Word) : versionField c st =
    BitVec.ofNat 16 (st.toNat / 2 ^ c.verLo.val % 2 ^ (c.verHi.val - c.verLo.val + 1)) := by
  apply BitVec.eq_of_toNat_eq
  simp [versionField, BitVec.extractLsb'_toNat, Nat.shiftRight_eq_div_pow]

/-- A self-test phase moves only the transport's fields. -/
theorem transportOnly_selfTested {s : State} (h : s.ready) (phase : Nat) (step : ℕ+) :
    TransportOnly s (s.selfTested phase step).1 :=
  (keeps_selfTest transportOnly_closed.frames phase step).of_ok (selfTest_run phase step h)

/-- The status half of the connectivity check (44 R97). -/
theorem statusPlausible_iff (st : Word) : statusPlausible st = true ↔ st ≠ 0x0000 ∧ st ≠ 0xFFFF := by
  simp [statusPlausible]

/-- The whole next state of an initialisation whose chip is connected (44 R96). -/
theorem exec_chipInit_connected {s x : State} {seen : Prop} [Decidable seen] {c : Config}
    (run : chipInit s = initVerdict (decide seen && statusPlausible (x.statusWord c)) (x.programmed c))
    (hcon : seen ∧ x.statusWord c ≠ 0x0000 ∧ x.statusWord c ≠ 0xFFFF) {passed : Prop} [Decidable passed]
    (hpass : (x.stFail1 = 0 ∧ x.stFail2 = 0) ↔ passed) {ok : Bool} (hok : ok = decide passed) :
    exec .chipInit s = .next ({ x.programmed c with initOk := ok }.returns
      (if passed then okResult else failResult .selfTestFailure)) := by
  obtain ⟨hseen, hst⟩ := hcon
  rw [decide_eq_true hseen, (statusPlausible_iff _).mpr hst] at run
  have verdict := run.trans (initVerdict_connected _)
  have hpass' : ((x.programmed c).stFail1 = 0 ∧ (x.programmed c).stFail2 = 0) ↔ passed := hpass
  simp only [hpass', ← hok] at verdict
  exact next_runOp_answers verdict

/-- The whole next state of an initialisation whose chip is not connected (44 R97). -/
theorem exec_chipInit_unconnected {s x : State} {seen : Prop} [Decidable seen] {c : Config}
    (run : chipInit s = initVerdict (decide seen && statusPlausible (x.statusWord c)) (x.programmed c))
    (hcon : ¬(seen ∧ x.statusWord c ≠ 0x0000 ∧ x.statusWord c ≠ 0xFFFF)) {ok : Bool} (hok : ok = false) :
    exec .chipInit s = .next ({ x.programmed c with
      initOk := ok, trace := (x.programmed c).trace ++ [Event.mk (.log .error .connect) true true] }.returns
        (failResult .connectivityFailure)) := by
  subst hok
  rw [← statusPlausible_iff, ← decide_eq_true_iff (p := seen), ← Bool.and_eq_true, Bool.not_eq_true] at hcon
  rw [hcon] at run
  exact next_runOp_answers (run.trans (initVerdict_unconnected _))

/-- Settles O29: where every wait ends each step is done whatever the chip answers; where the ready-signal settles each
step is one equation. -/
theorem chipInitCompletes : Obligations.ChipInitCompletes := by
  refine ⟨fun s hb hw => ?_, fun s n hb hr ha hn => ?_⟩
  · obtain ⟨r, t, e, h⟩ := chipInit_done (s := s) ⟨hb, hw⟩
    have hframe := h.frame
    unfold KeepsButInit at hframe
    rw [h.calm.1, h.waiting, h.fault] at hframe
    exact ⟨t.returns r, next_runOp_answers e, h.cs, h.dcs, h.clock, h.rst, h.family,
      h.ok_iff.trans Option.some_inj.symm, h.passed,
      h.answers.imp (congrArg some) (Or.imp (congrArg some) (And.imp_left (congrArg some))), h.fails1, h.fails2,
      congrArg (State.returns · r) hframe⟩
  · intro c a b p st d ver connected u
    obtain ⟨e, hready, hcfg⟩ := resetPins_probeBus_run hb hr ha hn
    have run : chipInit s = initVerdict (decide (n < c.startupPolls) && statusPlausible st)
        (State.programmed { b.1 with stFail2 := b.2 } c) := chipInit_probed e hready hcfg
    have hphase1 : a.1.ready := selfTested_ready 1 _ ⟨hb, rfl, ha⟩
    have hfails1 : b.1.stFail1 = a.2 :=
      congrArg State.stFail1 (transportOnly_selfTested (s := { a.1 with
        stFail1 := a.2, busClk := c.clkFast
        trace := a.1.trace ++ [⟨.setClock c.clkFast, a.1.cs, a.1.dcs⟩] }) hphase1 2 c.stStep2)
    clear e hready hcfg hphase1
    clear_value b a
    have hver : ver = versionField c st := (versionField_eq c st).symm
    clear_value ver
    subst hver
    exact ⟨fun hcon => exec_chipInit_connected run hcon (by rw [hfails1]) (decide_eq_decide.mpr (and_iff_right hcon)),
      fun hcon => exec_chipInit_unconnected run hcon (decide_eq_false fun h => hcon h.1)⟩

end Sys2Proof.Machine
end

section
/-!
The self-test on a chip that returns what was last written (O30).
-/
namespace Sys2Proof.Machine

/-- What is read back from an ideal chip is what was written last, whichever register it is (D28; log 25). -/
theorem answer_take_same (c : IdealChip) (m : RegMap) (a : Byte) (v : Word) : (c.take m a v).answer m a = v := by
  unfold IdealChip.take IdealChip.answer
  by_cases h : a = (m.num .wram).zeroExtend 8
  · rw [if_pos h, if_pos h, lookupCell_storeCell_same]
    rfl
  · rw [if_neg h, if_neg h, lookupCell_storeCell_same]
    rfl

/-- The bus is free, every wait ends, and the chip is the ideal chip `c`. -/
structure State.echoes (s : State) (c : IdealChip) : Prop where
  calm : s.calm
  chip : s.env.chip = some c

/-- A write frame leaves the ideal chip with the word taken. -/
theorem writeRegister_echoes {s : State} {c : IdealChip} (h : s.echoes c) (a : Byte) (v : Word) :
    ∃ t, writeRegister a v s = .ok () t ∧ t.echoes (c.take s.cfg.regMap a v) ∧ t.cfg = s.cfg := by
  have htake : s.env.take s.cfg.regMap a v = { s.env with chip := some (c.take s.cfg.regMap a v) } := by
    simp only [Env.take, h.chip]
  obtain ⟨n, e, hwait, hend, -, hchip, -⟩ := wait_of_high (s.env.take s.cfg.regMap a v)
    ((take_readyAfter _ _ _ _).trans h.calm.2)
  refine ⟨_, writeRegister_done a v s h.calm.1 hwait, ⟨⟨rfl, hend⟩, ?_⟩, rfl⟩
  rw [htake] at hchip
  exact hchip

/-- A read frame answers the chip's word and leaves the chip alone. -/
theorem readRegister_echoes {s : State} {c : IdealChip} (h : s.echoes c) (a : Byte) :
    ∃ t, readRegister a s = .ok (c.answer s.cfg.regMap a) t ∧ t.echoes c ∧ t.cfg = s.cfg := by
  have hanswer : s.env.answer s.cfg.regMap a =
      (hiByte (c.answer s.cfg.regMap a), loByte (c.answer s.cfg.regMap a), s.env) := by
    simp only [Env.answer, h.chip]
  obtain ⟨n, e, hwait, hend, -, hchip, -⟩ := wait_of_high s.env h.calm.2
  have hread := readRegister_answers h.calm.1 hanswer hwait
  have hword : hiByte (c.answer s.cfg.regMap a) ++ loByte (c.answer s.cfg.regMap a) = c.answer s.cfg.regMap a :=
    join_hi_lo _
  rw [hword] at hread
  exact ⟨_, hread, ⟨⟨rfl, hend⟩, hchip.trans h.chip⟩, rfl⟩

/-- An ideal chip stays one, the bus free and the waits ending. -/
def KeepsEchoing (s t : State) : Prop := (∃ c, s.echoes c) → ∃ c, t.echoes c

theorem keepsEchoing_frames : FrameClosed KeepsEchoing where
  refl _ := id
  trans _ _ _ h1 h2 := h2 ∘ h1
  write a v s := by
    rintro ⟨c, h⟩
    obtain ⟨t, e, ht, -⟩ := writeRegister_echoes h a v
    rw [endState_ok e]
    exact ⟨_, ht⟩
  read a s := by
    rintro ⟨c, h⟩
    obtain ⟨t, e, ht, -⟩ := readRegister_echoes h a
    rw [endState_ok e]
    exact ⟨_, ht⟩
  log _ _ := fun ⟨c, h⟩ => ⟨c, h.calm, h.chip⟩
  fault _ _ := fun ⟨c, h⟩ => ⟨c, h.calm, h.chip⟩

theorem sample_chip (e : Env) : e.sample.2.chip = e.chip := by
  unfold Env.sample
  split
  · rfl
  · split <;> rfl

theorem keepsEchoing_connectivityCheck (n : Nat) : Keeps KeepsEchoing (connectivityCheck n) := by
  have h := keepsEchoing_frames
  have sample : Keeps KeepsEchoing sampleDreq := fun s ⟨c, hc⟩ =>
    ⟨c, ⟨hc.calm.1, sample_high _ hc.calm.2⟩, (sample_chip s.env).trans hc.chip⟩
  have yielded : Keeps KeepsEchoing (emit .yield) := fun _ ⟨c, hc⟩ => ⟨c, hc.calm, hc.chip⟩
  induction n with
  | zero => exact h.pure _
  | succ n ih => exact h.bind sample fun _ => Keeps.ite (h.pure _) (h.bind yielded fun _ => ih)

/-- No pattern is misread: a phase that has counted nothing counts nothing (44 R98). -/
theorem selfTestLoop_echoes (stride : ℕ+) (fuel i : Nat) {s : State} {c : IdealChip} (h : s.echoes c) :
    ∃ t, selfTestLoop stride fuel i 0 s = .ok 0 t := by
  induction fuel generalizing i s c with
  | zero => exact ⟨s, rfl⟩
  | succ fuel ih =>
    simp only [selfTestLoop, op_get_bind]
    split
    · obtain ⟨t, ewrite, ht, hcfg⟩ := writeRegister_echoes h (s.regAddr s.cfg.stReg) (BitVec.ofNat 16 i)
      obtain ⟨u, eread, hu, -⟩ := readRegister_echoes ht (t.regAddr s.cfg.stReg)
      have hsame : t.regAddr s.cfg.stReg = s.regAddr s.cfg.stReg := by rw [State.regAddr, hcfg]; rfl
      rw [hsame, hcfg, answer_take_same, ← hsame] at eread
      rw [← writeNamed_run] at ewrite
      rw [← readNamed_run] at eread
      rw [op_bind_ok ewrite, op_bind_ok eread, if_neg (not_not_intro rfl)]
      exact ih (i + stride) hu
    · exact ⟨s, rfl⟩

theorem selfTest_echoes (phase : Nat) (stride : ℕ+) {s : State} {c : IdealChip} (h : s.echoes c) :
    ∃ t, selfTest phase stride s = .ok 0 t ∧ (∃ c, t.echoes c) ∧ TransportOnly s t := by
  obtain ⟨t, e⟩ := selfTestLoop_echoes stride s.cfg.stLimit 0 h
  have run : selfTest phase stride s = .ok 0 t := (op_get_bind _ s).trans (op_bind_ok e)
  exact ⟨t, run, (keeps_selfTest keepsEchoing_frames phase stride).of_ok run ⟨c, h⟩,
    (keeps_selfTest transportOnly_closed.frames phase stride).of_ok run⟩

/-- Both phases count no mismatch. -/
theorem probeBus_echoes {s : State} {c : IdealChip} (h : s.echoes c) :
    ∃ seen t, probeBus s = .ok seen t ∧ t.calm ∧ t.stFail1 = 0 ∧ t.stFail2 = 0 := by
  let slow : State := { s with busClk := s.cfg.clkSlow }.emit (.setClock s.cfg.clkSlow)
  obtain ⟨seen, s1, e1, -, h1⟩ := (completes_connectivityCheck s.cfg.startupPolls).run
    (keepsEchoing_connectivityCheck _) (s := slow) h.calm
  obtain ⟨c1, hc1⟩ := h1 ⟨c, h.calm, h.chip⟩
  obtain ⟨s2, e2, ⟨c2, hc2⟩, -⟩ := selfTest_echoes 1 s.cfg.stStep1 hc1
  let fast : State := { s2 with stFail1 := 0, busClk := s.cfg.clkFast }.emit (.setClock s.cfg.clkFast)
  obtain ⟨s3, e3, ⟨c3, hc3⟩, hmoved⟩ := selfTest_echoes 2 s.cfg.stStep2 (s := fast) ⟨hc2.calm, hc2.chip⟩
  refine ⟨seen, { s3 with stFail2 := 0 }, ?_, hc3.calm, congrArg State.stFail1 hmoved, rfl⟩
  refine (op_get_bind _ s).trans ((op_bind_ok (show setClock s.cfg.clkSlow s = .ok () slow from rfl)).trans
    ((op_bind_ok e1).trans ((op_bind_ok e2).trans ((op_modify_bind _ _ s2).trans ?_))))
  exact (op_bind_ok (show setClock s.cfg.clkFast { s2 with stFail1 := 0 } = .ok () fast from rfl)).trans (op_bind_ok e3)

/-- The counts of a whole initialisation on an ideal chip: programming and verdict leave them at 0. -/
theorem chipInit_echoes {s : State} {c : IdealChip} (h : s.echoes c) :
    ∃ r t, chipInit s = .ok r t ∧ t.stFail1 = 0 ∧ t.stFail2 = 0 := by
  obtain ⟨seen, s2, e2, h2, zero1, zero2⟩ := probeBus_echoes (s := { s with
    cs := true, dcs := true, rst := if s.cfg.hasRst then !s.cfg.rstActive else s.rst
    trace := s.trace ++ pinEvents s.cfg s.cs s.dcs }) ⟨h.calm, h.chip⟩
  obtain ⟨st, s3, e3, -, -, moved3⟩ := programChip_done h2
  obtain ⟨r, t, e4, moved4, -⟩ := initVerdict_done (seen && statusPlausible st) s3
  refine ⟨r, t, (op_bind_ok (resetPins_run s)).trans ((op_bind_ok e2).trans ((op_bind_ok e3).trans e4)), ?_, ?_⟩
  · rw [moved4]; exact (congrArg State.stFail1 moved3).trans zero1
  · rw [moved4]; exact (congrArg State.stFail2 moved3).trans zero2

/-- Settles O30: no phase counts a mismatch, and without one the answer is no self-test failure. -/
theorem echoingChipPassesSelfTest : Obligations.EchoingChipPassesSelfTest := by
  intro s c hb hw hc
  obtain ⟨r, t, e, zero1, zero2⟩ := chipInit_echoes (s := s) (c := c) ⟨⟨hb, hw⟩, hc⟩
  obtain ⟨r', t', e', h⟩ := chipInit_done (s := s) ⟨hb, hw⟩
  cases e.symm.trans e'
  refine ⟨t.returns r, next_runOp_answers e, zero1, zero2, fun hfail => ?_⟩
  cases hfail
  rcases h.answers with hr | hr | ⟨-, hcounted⟩
  · cases hr
  · cases hr
  · omega

end Sys2Proof.Machine
end

section
/-!
`beginOutput` and `beginMidi` (O31, O32, O33).
-/
namespace Sys2Proof.Machine

/-! ### `beginOutput` -/

/-- `beginOutput` once the fillers are out: the patch, on Family B with `LOAD_PATCH` only, and the answer of
initialisation (44 R101). -/
def patchAfterFillers (c : Config) (f : Family) (r : Result) : Op Result :=
  if f = .familyB ∧ c.loadPatch = true then do
    loadTable c.tables.patch
    return r
  else return r

theorem beginOutput_filled {s u v : State} {r : Result} {c : Config} (e : chipInit s = .ok r u) (hc : u.cfg = c)
    (efill : sendFillers c.primeLen { u with mode := .output } = .ok () v) :
    beginOutput s = patchAfterFillers c u.family r v := by
  subst hc
  exact (op_bind_ok e).trans ((op_modify_bind _ _ u).trans ((op_get_bind _ _).trans (op_bind_ok efill)))

theorem patchAfterFillers_none {c : Config} {f : Family} (h : ¬(f = .familyB ∧ c.loadPatch = true)) (r : Result)
    (v : State) : patchAfterFillers c f r v = .ok r v := by
  rw [patchAfterFillers, if_neg h]
  rfl

theorem patchAfterFillers_load {c : Config} {f : Family} (h : f = .familyB ∧ c.loadPatch = true) (r : Result) :
    patchAfterFillers c f r = (do loadTable c.tables.patch; return r) := if_pos h

/-- What a run of fillers keeps beside the streaming cursor. -/
theorem keepsButCursor_sendFillers (len : Nat) : Keeps KeepsButCursor (sendFillers len) :=
  moves_sendFillers keepsButCursor_transport (fun _ _ => rfl) len

theorem keepsButLoader_loadTable (words : List Word) : Keeps KeepsButLoader (loadTable words) :=
  keeps_loadTable keepsButLoader_transport.frames keepsButLoader_registers words

/-- What `beginOutput` leaves where every wait ends, initialisation having answered `r` and left `u`: mode Output, a free
bus, and what initialisation found (44 R101, D15). -/
structure OutputEntered (s u : State) (t : State) : Prop where
  mode : t.mode = .output
  waiting : t.waiting = s.waiting
  free : t.busOwned = false
  family : t.family = u.family
  initOk : t.initOk = u.initOk

/-- After initialisation `beginOutput` ends well with its answer, or with a malformed patch where it loads one. -/
theorem beginOutput_done {s : State} (hs : s.calm) :
    ∃ r u, chipInit s = .ok r u ∧ ((∃ t, beginOutput s = .ok r t ∧ OutputEntered s u t) ∨
      (u.family = .familyB ∧ s.cfg.loadPatch = true ∧
        ∃ info t, beginOutput s = .error (.raised info) t ∧ OutputEntered s u t)) := by
  obtain ⟨r, u, einit, hinit⟩ := chipInit_done hs
  have hcfg : u.cfg = s.cfg := by rw [hinit.frame]
  obtain ⟨_, v, efill, hfill, kfill⟩ := (completes_sendFillers s.cfg.primeLen).run (keepsButCursor_sendFillers _)
    (s := { u with mode := .output }) hinit.calm
  have run := beginOutput_filled einit hcfg efill
  have filled : OutputEntered s u v :=
    { mode := by rw [kfill]
      waiting := hfill.waiting.trans hinit.waiting
      free := hfill.calm.1
      family := by rw [kfill]
      initOk := by rw [kfill] }
  refine ⟨r, u, einit, ?_⟩
  by_cases hpatch : u.family = .familyB ∧ s.cfg.loadPatch = true
  · rw [patchAfterFillers_load hpatch] at run
    have entered {t : State} (hcalm : t.calm) (hwait : t.waiting = v.waiting) (k : KeepsButLoader v t) :
        OutputEntered s u t :=
      { mode := by rw [k]; exact filled.mode
        waiting := hwait.trans filled.waiting
        free := hcalm.1
        family := by rw [k]; exact filled.family
        initOk := by rw [k]; exact filled.initOk }
    rcases (settles_loadTable s.cfg.tables.patch).run (keepsButLoader_loadTable _) hfill.calm with
      ⟨_, t, eload, hload, kload⟩ | ⟨i, reason, t, eload, hload, kload⟩
    · exact .inl ⟨t, run.trans (op_bind_ok eload), entered hload.calm hload.waiting kload⟩
    · exact .inr ⟨hpatch.1, hpatch.2, _, t, run.trans (op_bind_error eload),
        entered hload.calm hload.waiting kload⟩
  · exact .inl ⟨v, run.trans (patchAfterFillers_none hpatch r v), filled⟩

/-- Settles O31: the mode is set before anything that may fail, and the fault of the patch is the only answer that is not
initialisation's. -/
theorem beginOutputEntersOutput : Obligations.BeginOutputEntersOutput := by
  refine ⟨fun s hb hw => ?_, fun s u r hb hr einit => ?_⟩
  · obtain ⟨r, u, einit, hrun⟩ := beginOutput_done (s := s) ⟨hb, hw⟩
    have hchip : exec .chipInit s = .next (u.returns r) := next_runOp_answers einit
    rcases hrun with ⟨t, e, h⟩ | ⟨hfamily, hload, info, t, e, h⟩
    · refine ⟨t.returns r, next_runOp_answers e, h.mode, h.waiting, h.free, fun u' hu => ?_⟩
      cases hchip.symm.trans hu
      exact ⟨h.family, h.initOk, fun _ => rfl⟩
    · refine ⟨_, next_runOp_faults e, h.mode, h.waiting, h.free, fun u' hu => ?_⟩
      cases hchip.symm.trans hu
      refine ⟨h.family, h.initOk, ?_⟩
      rintro (hno | hno)
      · exact absurd hfamily hno
      · exact absurd hload (Bool.eq_false_iff.mp hno)
  · intro v
    obtain ⟨hready, hcfg⟩ := ready_chipInit ⟨hb, hr⟩ einit
    have run : beginOutput s = patchAfterFillers s.cfg u.family r v :=
      beginOutput_filled einit hcfg (sendFillers_ready (s := { u with mode := .output }) hready _)
    refine ⟨fun hno => ?_, fun hpatch => ?_⟩
    · exact next_runOp_answers (run.trans (patchAfterFillers_none hno r v))
    · rw [patchAfterFillers_load hpatch] at run
      exact ⟨fun w eload => next_runOp_answers (run.trans (op_bind_ok eload)),
        fun info w eload => next_runOp_faults (run.trans (op_bind_error eload))⟩

/-! ### `beginMidi` -/

/-- A family that is neither is logged and answered by value (60 R144). -/
theorem unsupported_run (s : State) :
    unsupported s = .ok (failResult .unsupportedFamily) (s.emit (.log .error .family)) := rfl

theorem beginMidi_unknown {s u : State} {r : Result} (e : chipInit s = .ok r u) (hf : u.family = .unknown) :
    beginMidi s = unsupported u := by
  refine (op_bind_ok e).trans ((op_get_bind _ u).trans ?_)
  simp only [hf]

/-- Each family has its own table and entry point (44 R102). -/
theorem beginMidi_known {s u : State} {r : Result} {c : Config} {table : List Word} {entry : Word}
    (e : chipInit s = .ok r u) (hc : u.cfg = c)
    (hf : (u.family = .familyA ∧ table = c.tables.midiA ∧ entry = c.midiEntryA) ∨
      (u.family = .familyB ∧ table = c.tables.midiB ∧ entry = c.midiEntryB)) :
    beginMidi s = startMidi table entry u := by
  subst hc
  refine (op_bind_ok e).trans ((op_get_bind _ u).trans ?_)
  rcases hf with ⟨hf, rfl, rfl⟩ | ⟨hf, rfl, rfl⟩ <;> simp only [hf]

/-- What `startMidi` does with the word it has read (44 R102). -/
def judgeMidi (verified : Bool) : Op Result :=
  if verified then do
    modify fun t => { t with mode := .midi }
    return okResult
  else do
    logEvent .midiVerify
    drawMode
    return failResult .midiVerifyFailure

theorem startMidi_run {table : List Word} {entry v : Word} {s w x y : State}
    (eload : loadTable table s = .ok () w) (ewrite : writeNamed .aiAddr entry w = .ok () x)
    (eread : readNamed x.cfg.midiVerifyReg x = .ok v y) :
    startMidi table entry s = judgeMidi (decide (v = x.cfg.midiVerifyVal)) y := by
  refine (op_bind_ok eload).trans ((op_bind_ok ewrite).trans ((op_get_bind _ x).trans ((op_bind_ok eread).trans ?_)))
  simp only [judgeMidi, decide_eq_true_eq]

/-- Settles O33: the verification register answers the known value, so the judgement is Midi mode. -/
theorem beginMidiVerifies : Obligations.BeginMidiVerifies := by
  intro s u w r table entry hb hr einit hf eload hv
  obtain ⟨hready, hcfg⟩ := ready_chipInit ⟨hb, hr⟩ einit
  obtain ⟨hw, hcfgw⟩ := ready_loadTable hready eload
  have run := startMidi_run eload (writeNamed_ready hw .aiAddr entry) (readNamed_ready (ready_wrote hw _ entry) _)
  have hc : (w.wrote (w.regAddr .aiAddr) entry).cfg = s.cfg := hcfgw.trans hcfg
  rw [hc, wrote_regAddr, hv, decide_eq_true rfl] at run
  exact next_runOp_answers ((beginMidi_known einit hcfg hf).trans run)

/-- After an entry operation: the bus is free, nothing hangs that did not, the family is the one initialisation found. -/
structure Entered (s t : State) : Prop where
  calm : t.calm
  waiting : t.waiting = s.waiting
  family : t.family = s.family

theorem Entered.of_loader {s t : State} (hc : t.calm) (hw : t.waiting = s.waiting) (k : KeepsButLoader s t) :
    Entered s t := ⟨hc, hw, by rw [k]⟩

/-- The judgement ends in Midi mode, or in the failure of the verification. -/
theorem judgeMidi_done (verified : Bool) {s : State} (hs : s.calm) :
    (∃ t, judgeMidi verified s = .ok okResult t ∧ Entered s t ∧ t.mode = .midi) ∨
      (∃ t, judgeMidi verified s = .ok (failResult .midiVerifyFailure) t ∧ Entered s t) := by
  cases verified with
  | true => exact .inl ⟨_, rfl, ⟨hs, rfl, rfl⟩, rfl⟩
  | false => exact .inr ⟨_, rfl, ⟨hs, rfl, rfl⟩⟩

/-- From the load on, where every wait ends: verified, not verified, or a malformed table. -/
theorem startMidi_done (table : List Word) (entry : Word) {s : State} (hs : s.calm) :
    (∃ t, startMidi table entry s = .ok okResult t ∧ Entered s t ∧ t.mode = .midi) ∨
      (∃ t, startMidi table entry s = .ok (failResult .midiVerifyFailure) t ∧ Entered s t) ∨
      (∃ i reason t, startMidi table entry s = .error (.raised (.patchMalformed i reason)) t ∧ Entered s t ∧
        t.mode = s.mode ∧ t.fault = some .patchMalformed) := by
  have hf := keepsButLoader_transport.frames
  rcases (settles_loadTable table).run (keepsButLoader_loadTable table) hs with
    ⟨_, w, eload, hload, kload⟩ | ⟨i, reason, t, eload, hload, kload⟩
  · obtain ⟨_, x, ewrite, hwrite, kwrite⟩ :=
      (completes_writeNamed .aiAddr entry).run (keeps_writeNamed hf _ _) hload.calm
    obtain ⟨v, y, eread, hread, kread⟩ :=
      (completes_readNamed x.cfg.midiVerifyReg).run (keeps_readNamed hf _) hwrite.calm
    have run := startMidi_run eload ewrite eread
    have hy : Entered s y := .of_loader hread.calm (hread.waiting.trans (hwrite.waiting.trans hload.waiting))
      (kload.trans (kwrite.trans kread))
    have after {t : State} (h : Entered y t) : Entered s t :=
      ⟨h.calm, h.waiting.trans hy.waiting, h.family.trans hy.family⟩
    rcases judgeMidi_done (decide (v = x.cfg.midiVerifyVal)) hy.calm with ⟨t, e, ht, hm⟩ | ⟨t, e, ht⟩
    · exact .inl ⟨t, run.trans e, after ht, hm⟩
    · exact .inr (.inl ⟨t, run.trans e, after ht⟩)
  · exact .inr (.inr ⟨i, reason, t, op_bind_error eload, .of_loader hload.calm hload.waiting kload, by rw [kload],
      hload.fault⟩)

/-- After initialisation a known family starts MIDI from its table, an unknown one is refused. -/
theorem beginMidi_cases {s u : State} {r : Result} (e : chipInit s = .ok r u) :
    (u.family ≠ .unknown ∧ ∃ table entry, beginMidi s = startMidi table entry u) ∨
      (u.family = .unknown ∧ beginMidi s = unsupported u) := by
  cases hf : u.family with
  | unknown => exact .inr ⟨rfl, beginMidi_unknown e hf⟩
  | familyA => exact .inl ⟨by simp, _, _, beginMidi_known e rfl (.inl ⟨hf, rfl, rfl⟩)⟩
  | familyB => exact .inl ⟨by simp, _, _, beginMidi_known e rfl (.inr ⟨hf, rfl, rfl⟩)⟩

/-- Settles O32: an unknown family ends before the load, a known one in one of the three ways from the load on. -/
theorem beginMidiOutcomes : Obligations.BeginMidiOutcomes := by
  intro s hb hw
  obtain ⟨r, u, einit, hinit⟩ := chipInit_done (s := s) ⟨hb, hw⟩
  have hmode : u.mode = s.mode := by rw [hinit.frame]
  rcases beginMidi_cases einit with ⟨hne, table, entry, run⟩ | ⟨hf, run⟩
  · rcases startMidi_done table entry hinit.calm with ⟨t, e, ht, hm⟩ | ⟨t, e, ht⟩ | ⟨i, reason, t, e, ht, hm, hfault⟩
    · exact ⟨_, next_runOp_answers (run.trans e), ht.waiting.trans hinit.waiting, ht.calm.1,
        .inl ⟨rfl, hm, ht.family.trans_ne hne⟩⟩
    · exact ⟨_, next_runOp_answers (run.trans e), ht.waiting.trans hinit.waiting, ht.calm.1,
        .inr (.inr (.inl ⟨rfl, ht.family.trans_ne hne⟩))⟩
    · exact ⟨_, next_runOp_faults (run.trans e), ht.waiting.trans hinit.waiting, ht.calm.1,
        .inr (.inr (.inr ⟨i, reason, rfl, hm.trans hmode, hfault, ht.family.trans_ne hne⟩))⟩
  · exact ⟨_, next_runOp_answers (run.trans (unsupported_run u)), hinit.waiting, hinit.calm.1,
      .inr (.inl ⟨rfl, hmode, hf⟩)⟩

end Sys2Proof.Machine
end

section
/-!
Capture setup where every wait ends at once (O35, O36).
-/
namespace Sys2Proof.Machine

/-! ### `beginInput` up to the setup of a family -/

section
variable {s u : State} {o : RecOptions} {r : Result} (e : chipInit (s.withOptions o) = .ok r u)
include e

theorem beginInput_unknown (hf : u.family = .unknown) : beginInput o s = unsupported u := by
  refine (op_modify_bind _ _ s).trans ((op_bind_ok e).trans ((op_get_bind _ u).trans ?_))
  simp only [hf]

theorem beginInput_familyA (hf : u.family = .familyA) :
    beginInput o s = (do let r ← inputSetupA; enterInput r : Op Result) u := by
  refine (op_modify_bind _ _ s).trans ((op_bind_ok e).trans ((op_get_bind _ u).trans ?_))
  simp only [hf]

theorem beginInput_familyB (hf : u.family = .familyB) :
    beginInput o s = (do let r ← inputSetupB; enterInput r : Op Result) u := by
  refine (op_modify_bind _ _ s).trans ((op_bind_ok e).trans ((op_get_bind _ u).trans ?_))
  simp only [hf]

end

/-- A successful setup ends in Input mode with the achieved rate as the value (44 R103). -/
theorem enterInput_ok (s : State) :
    enterInput okResult s = .ok (okNum s.recAchieved) { s with chMult := s.recCh, mode := .input } := rfl

/-- A solver miss passes through (60 R147). -/
theorem enterInput_miss (s : State) : enterInput solverMiss s = .ok solverMiss s := rfl

/-! ### Family A -/

theorem multBits_eq_getD (e : MultEnc) (k : Nat) : multBits e k = [e.k0, e.k1, e.k2, e.k3, e.k4, e.k5].getD k e.k6 := by
  match k with
  | 0 => rfl
  | 1 => rfl
  | 2 => rfl
  | 3 => rfl
  | 4 => rfl
  | 5 => rfl
  | _ + 6 => rfl

/-- The registers of Family A capture for one solver point, each wait ending at once (44 R105). -/
theorem programCaptureA_ready {s : State} (h : s.ready) (k div : Nat) :
    programCaptureA k div s = .ok () { (((((s.wrote (s.regAddr .clockf)
        (s.cfg.clockfBaseA ||| multBits s.cfg.multEnc k)).wrote (s.regAddr s.cfg.aDivReg) (BitVec.ofNat 16 div)).wrote
        (s.regAddr s.cfg.aGainReg) (gain1024 s.recGain)).modeBitsSet fun m => withBit m s.cfg.bitRec).wrote
        (s.regAddr .aiAddr) s.cfg.capEntryA) with
      recAchieved := achievedRate s.cfg.baseClock k div } := by
  have h1 := ready_wrote h (s.regAddr .clockf) (s.cfg.clockfBaseA ||| multBits s.cfg.multEnc k)
  have h2 := ready_wrote h1 (s.regAddr s.cfg.aDivReg) (BitVec.ofNat 16 div)
  have h3 := ready_wrote h2 (s.regAddr s.cfg.aGainReg) (gain1024 s.recGain)
  have h4 := ready_modeBitsSet h3 fun m => withBit m s.cfg.bitRec
  exact (op_get_bind _ s).trans ((op_bind_ok (writeNamed_ready h _ _)).trans ((op_bind_ok (writeNamed_ready h1 _ _)).trans
    ((op_bind_ok (writeNamed_ready h2 _ _)).trans ((op_bind_ok (setModeBits_ready h3 _)).trans
      ((op_bind_ok (writeNamed_ready h4 _ _)).trans rfl)))))

section
variable {s w : State} (eload : loadTable s.cfg.tables.capA s = .ok () w)
include eload

/-- The load leaves the rate asked for alone, so the search is for it. -/
theorem solve_loaded :
    solve s.recRate w = .ok (solverPoint w.cfg.baseClock w.recRate) (w.searched w.recRate) := by
  have hrate : w.recRate = s.recRate := by rw [(keepsButLoader_loadTable _).of_ok eload]
  rw [← hrate, solve_run]

theorem inputSetupA_found {k div : Nat} (hp : solverPoint w.cfg.baseClock w.recRate = some (k, div)) :
    inputSetupA s = (do programCaptureA k div; return okResult : Op Result) (w.searched w.recRate) := by
  have hsolve := solve_loaded eload
  rw [hp] at hsolve
  exact (op_get_bind _ s).trans ((op_bind_ok eload).trans (op_bind_ok hsolve))

theorem inputSetupA_missed (hp : solverPoint w.cfg.baseClock w.recRate = none) :
    inputSetupA s = .ok solverMiss ((w.searched w.recRate).emit (.log .error .solver)) := by
  have hsolve := solve_loaded eload
  rw [hp] at hsolve
  exact (op_get_bind _ s).trans ((op_bind_ok eload).trans (op_bind_ok hsolve))

end

/-- Settles O35: what the solver answers decides between the five register writes and none. -/
theorem captureSetupFamilyA : Obligations.CaptureSetupFamilyA := by
  intro s u w o r hb hr einit hf eload
  obtain ⟨hready, hcfg⟩ := ready_chipInit (s := s.withOptions o) ⟨hb, hr⟩ einit
  obtain ⟨hw, hcfgw⟩ := ready_loadTable hready eload
  have hcfg' : u.cfg = s.cfg := hcfg
  rw [← hcfg'] at eload
  rw [← hcfg', ← hcfgw]
  intro v e
  refine ⟨fun k div hp => ?_, fun hp => ?_⟩
  · have hsetup := (inputSetupA_found eload hp).trans (op_bind_ok (programCaptureA_ready (s := v) hw k div))
    rw [multBits_eq_getD] at hsetup
    have run := (beginInput_familyA einit hf).trans ((op_bind_ok hsetup).trans (enterInput_ok _))
    exact next_runOp_answers run
  · exact next_runOp_answers ((beginInput_familyA einit hf).trans
      ((op_bind_ok (inputSetupA_missed eload hp)).trans (enterInput_miss _)))

/-! ### Family B -/

theorem chsel_eq (m : CaptureMapB) (channels : Nat) (source : Source) : chsel m channels source =
    if channels = 1 then (if source = .mic then m.chselMonoMic else m.chselMonoAux)
    else (if source = .mic then m.chselStereoMic else m.chselStereoAux) := by
  by_cases h : channels = 1 <;> cases source <;> simp [chsel, h]

theorem captureBitsB_eq (s : State) : s.captureBitsB = fun m =>
    if s.recSrc = .aux then m ||| (1#16 <<< s.cfg.bitRec.val) ||| (1#16 <<< s.cfg.bitLine.val)
    else m ||| (1#16 <<< s.cfg.bitRec.val) := by
  funext m
  cases h : s.recSrc <;> simp [State.captureBitsB, h, withBit]

/-- The state after the registers and the mode bits of Family B capture, each wait ending at once (44 R106). -/
def State.captureSetB (s : State) : State :=
  ((((s.wrote (s.regAddr s.cfg.captureMapB.rateReg) (BitVec.ofNat 16 s.recRate)).wrote
    (s.regAddr s.cfg.captureMapB.gainReg) (gain1024 s.recGain)).wrote
    (s.regAddr s.cfg.captureMapB.agcReg) (agc65535 s.recAgc)).wrote
    (s.regAddr s.cfg.captureMapB.selReg)
      (chsel s.cfg.captureMapB s.recCh s.recSrc ||| s.cfg.captureMapB.linearPcm)).modeBitsSet s.captureBitsB

theorem ready_captureSetB {s : State} (h : s.ready) : s.captureSetB.ready :=
  ready_modeBitsSet (ready_wrote (ready_wrote (ready_wrote (ready_wrote h _ _) _ _) _ _) _ _) _

/-- The header strip: 22 discarded reads, unless the header is kept (44 R107). -/
theorem skipHeader_ready {s : State} (h : s.ready) (keep : Bool) :
    skipHeader keep s = .ok () (if keep then s else s.didReads (s.regAddr .hdat0) 22) := by
  cases keep with
  | true => rfl
  | false => exact stripHeader_ready h headerWords

theorem inputSetupB_ready {s w x : State} (h : s.ready) (eload : loadTable s.cfg.tables.capB s.captureSetB = .ok () w)
    (eskip : skipHeader s.recKeepHdr w = .ok () x) :
    inputSetupB s = .ok okResult { x with recAchieved := x.recRate } := by
  have h1 := ready_wrote h (s.regAddr s.cfg.captureMapB.rateReg) (BitVec.ofNat 16 s.recRate)
  have h2 := ready_wrote h1 (s.regAddr s.cfg.captureMapB.gainReg) (gain1024 s.recGain)
  have h3 := ready_wrote h2 (s.regAddr s.cfg.captureMapB.agcReg) (agc65535 s.recAgc)
  have h4 := ready_wrote h3 (s.regAddr s.cfg.captureMapB.selReg)
    (chsel s.cfg.captureMapB s.recCh s.recSrc ||| s.cfg.captureMapB.linearPcm)
  exact (op_get_bind _ s).trans ((op_bind_ok (writeNamed_ready h _ _)).trans ((op_bind_ok (writeNamed_ready h1 _ _)).trans
    ((op_bind_ok (writeNamed_ready h2 _ _)).trans ((op_bind_ok (writeNamed_ready h3 _ _)).trans
      ((op_bind_ok (setModeBits_ready h4 _)).trans ((op_bind_ok eload).trans ((op_bind_ok eskip).trans rfl)))))))

/-- Settles O36: the registers and mode bits are those of the setup, and the strip reads 22 words or none. -/
theorem captureSetupFamilyB : Obligations.CaptureSetupFamilyB := by
  intro s u w o r hb hr einit hf
  obtain ⟨hready, hcfg⟩ := ready_chipInit (s := s.withOptions o) ⟨hb, hr⟩ einit
  have hcfg' : u.cfg = s.cfg := hcfg
  have hkeep : u.recKeepHdr = o.keepHeader := by rw [keepsButInit_chipInit.of_ok einit]; rfl
  rw [← hcfg', ← hkeep]
  intro m sel v eload x
  have hsel : sel = chsel m u.recCh u.recSrc := (chsel_eq _ _ _).symm
  have hv : v = u.captureSetB := by
    simp only [v, hsel, ← captureBitsB_eq]
    rfl
  rw [hv] at eload
  have hw : w.ready := (ready_loadTable (ready_captureSetB hready) eload).1
  have hsetup := inputSetupB_ready hready eload (skipHeader_ready hw u.recKeepHdr)
  exact next_runOp_answers ((beginInput_familyB einit hf).trans
    ((op_bind_ok hsetup).trans (enterInput_ok _)))

end Sys2Proof.Machine
end

section
/-!
How `beginInput` ends where every wait ends (O34).
-/
namespace Sys2Proof.Machine

/-- Nothing changes but the loader's registers, the solver's scratch fields, the achieved rate, the transport's own
fields, the result record and the mark of a hang. -/
def KeepsButCapture (s t : State) : Prop :=
  t = { s with recAchieved := t.recAchieved, bestDiff := t.bestDiff, bestK := t.bestK, bestDiv := t.bestDiv,
               bestFound := t.bestFound, pIdx := t.pIdx, pLen := t.pLen, pAddr := t.pAddr, pCnt := t.pCnt,
               pVal := t.pVal, cs := t.cs, dcs := t.dcs, busOwned := t.busOwned, fault := t.fault,
               trace := t.trace, env := t.env, result := t.result, waiting := t.waiting }

theorem KeepsButCapture.trans {s t u : State} (h1 : KeepsButCapture s t) (h2 : KeepsButCapture t u) :
    KeepsButCapture s u := by
  unfold KeepsButCapture at *
  rw [h2, h1]

theorem keepsButCapture_transport : TransportClosed KeepsButCapture where
  refl _ := rfl
  trans _ _ _ := .trans
  move _ _ _ _ _ _ _ _ := rfl

theorem keepsButCapture_inputSetupA : Keeps KeepsButCapture inputSetupA :=
  keeps_inputSetupA keepsButCapture_transport.frames (fun _ _ _ _ _ _ => rfl) (fun _ _ => rfl) fun _ _ _ _ _ => rfl

theorem keepsButCapture_inputSetupB : Keeps KeepsButCapture inputSetupB :=
  keeps_inputSetupB keepsButCapture_transport.frames (fun _ _ _ _ _ _ => rfl) fun _ _ => rfl

/-! ### The two setups end well or with a malformed table -/

theorem completes_programCaptureA (k div : Nat) : Completes (programCaptureA k div) := by
  refine Completes.get.bind fun _ => (completes_writeNamed _ _).bind fun _ => (completes_writeNamed _ _).bind fun _ =>
    (completes_writeNamed _ _).bind fun _ => (completes_setModeBits _).bind fun _ =>
      (completes_writeNamed _ _).bind fun _ => completes_modify fun _ hs => ?_
  exact ⟨hs, rfl, id, rfl⟩

theorem completes_solve (target : Nat) : Completes (solve target) := fun _ hs => ⟨_, _, rfl, hs, rfl, id, rfl⟩

theorem settles_inputSetupA : Settles inputSetupA := by
  refine Completes.get.settles.bind fun s => (settles_loadTable _).bind fun _ =>
    (completes_solve _).settles.bind fun point => ?_
  cases point with
  | some p => exact ((completes_programCaptureA p.1 p.2).bind fun _ => .pure _).settles
  | none => exact ((completes_emit _).bind fun _ => .pure _).settles

theorem settles_inputSetupB : Settles inputSetupB := by
  refine Completes.get.settles.bind fun s => (completes_writeNamed _ _).settles.bind fun _ =>
    (completes_writeNamed _ _).settles.bind fun _ => (completes_writeNamed _ _).settles.bind fun _ =>
      (completes_writeNamed _ _).settles.bind fun _ => (completes_setModeBits _).settles.bind fun _ =>
        (settles_loadTable _).bind fun _ => (completes_skipHeader _).settles.bind fun _ =>
          (Completes.bind (completes_modify fun _ hs => ?_) fun _ => .pure _).settles
  exact ⟨hs, rfl, id, rfl⟩

/-- Where it ends well, Family A's setup answers `(OK)` or a solver miss. -/
theorem inputSetupA_answers {s t : State} {r : Result} (e : inputSetupA s = .ok r t) : r = okResult ∨ r = solverMiss := by
  simp only [inputSetupA, op_get_bind] at e
  obtain ⟨_, _, _, e⟩ := op_bind_ok_inv e
  obtain ⟨point, _, _, e⟩ := op_bind_ok_inv e
  cases point with
  | some p => obtain ⟨_, _, _, e⟩ := op_bind_ok_inv e; cases e; exact .inl rfl
  | none => obtain ⟨_, _, _, e⟩ := op_bind_ok_inv e; cases e; exact .inr rfl

/-- Where it ends well, Family B's setup answers `(OK)`. -/
theorem inputSetupB_answers {s t : State} {r : Result} (e : inputSetupB s = .ok r t) : r = okResult := by
  simp only [inputSetupB, op_get_bind] at e
  iterate 8 obtain ⟨_, _, _, e⟩ := op_bind_ok_inv e
  cases e
  rfl

/-! ### Entering Input mode -/

/-- The recording options are the same (10_state R22). -/
def SameOptions (s t : State) : Prop :=
  t.recRate = s.recRate ∧ t.recCh = s.recCh ∧ t.recGain = s.recGain ∧ t.recAgc = s.recAgc ∧ t.recSrc = s.recSrc ∧
    t.recKeepHdr = s.recKeepHdr

theorem SameOptions.trans {s t u : State} (h1 : SameOptions s t) (h2 : SameOptions t u) : SameOptions s u := by
  unfold SameOptions at *
  simp only [h1, h2, and_self]

theorem KeepsButInit.options {s t : State} (h : KeepsButInit s t) : SameOptions s t := by
  rw [h]
  exact ⟨rfl, rfl, rfl, rfl, rfl, rfl⟩

/-- After the setup of a family: the bus is free, nothing hangs that did not, the family and the options are those the
setup began with. -/
structure CaptureTried (s t : State) : Prop extends Entered s t where
  options : SameOptions s t

theorem CaptureTried.of_setup {s t : State} (hc : t.calm) (hw : t.waiting = s.waiting) (k : KeepsButCapture s t) :
    CaptureTried s t := by
  refine ⟨⟨hc, hw, ?_⟩, ?_⟩ <;> rw [k]
  exact ⟨rfl, rfl, rfl, rfl, rfl, rfl⟩

/-- The three ways a setup and the entry into Input mode end (44 R103): recording, a miss of the solver, a malformed
table. -/
inductive CaptureEnds (setup : Op Result) (s : State) : Prop where
  | recording (t : State) (e : (do let r ← setup; enterInput r : Op Result) s = .ok (okNum t.recAchieved) t)
      (tried : CaptureTried s t) (mode : t.mode = .input) (multiplier : t.chMult = t.recCh)
  | missed (t : State) (esetup : setup s = .ok solverMiss t)
      (e : (do let r ← setup; enterInput r : Op Result) s = .ok solverMiss t)
      (tried : CaptureTried s t) (mode : t.mode = s.mode)
  | malformed (i : Nat) (reason : PatchReason) (t : State)
      (e : (do let r ← setup; enterInput r : Op Result) s = .error (.raised (.patchMalformed i reason)) t)
      (tried : CaptureTried s t) (mode : t.mode = s.mode) (fault : t.fault = some .patchMalformed)

theorem captureEnds {setup : Op Result} (hset : Settles setup) (hk : Keeps KeepsButCapture setup)
    (hans : ∀ {s t : State} {r : Result}, setup s = .ok r t → r = okResult ∨ r = solverMiss) {s : State}
    (hs : s.calm) : CaptureEnds setup s := by
  rcases hset.run hk hs with ⟨r, t, e, ht, k⟩ | ⟨i, reason, t, e, ht, k⟩
  · have tried := CaptureTried.of_setup ht.calm ht.waiting k
    rcases hans e with rfl | rfl
    · exact .recording { t with chMult := t.recCh, mode := .input } ((op_bind_ok e).trans (enterInput_ok t))
        ⟨⟨tried.calm, tried.waiting, tried.family⟩, tried.options⟩ rfl rfl
    · exact .missed t e ((op_bind_ok e).trans (enterInput_miss t)) tried (by rw [k])
  · exact .malformed i reason t (op_bind_error e) (.of_setup ht.calm ht.waiting k) (by rw [k]) ht.fault

/-- After initialisation an unknown family is refused, a known one tries its setup; only Family A's misses. -/
theorem beginInput_cases {s u : State} {o : RecOptions} {r : Result} (e : chipInit (s.withOptions o) = .ok r u)
    (hu : u.calm) :
    (u.family = .unknown ∧ beginInput o s = unsupported u) ∨
      (u.family ≠ .unknown ∧ ∃ setup, beginInput o s = (do let r ← setup; enterInput r : Op Result) u ∧
        CaptureEnds setup u ∧ ∀ t, setup u = .ok solverMiss t → u.family = .familyA) := by
  cases hf : u.family with
  | unknown => exact .inl ⟨rfl, beginInput_unknown e hf⟩
  | familyA =>
    exact .inr ⟨by simp, inputSetupA, beginInput_familyA e hf,
      captureEnds settles_inputSetupA keepsButCapture_inputSetupA inputSetupA_answers hu, fun _ _ => rfl⟩
  | familyB =>
    exact .inr ⟨by simp, inputSetupB, beginInput_familyB e hf,
      captureEnds settles_inputSetupB keepsButCapture_inputSetupB (fun e => .inl (inputSetupB_answers e)) hu,
      fun _ emiss => nomatch inputSetupB_answers emiss⟩

/-- Settles O34: the options are stored before initialisation, which keeps them, and a setup ends in one of three ways. -/
theorem beginInputOutcomes : Obligations.BeginInputOutcomes := by
  intro s o hb hw
  obtain ⟨r, u, einit, hinit⟩ := chipInit_done (s := s.withOptions o) ⟨hb, hw⟩
  have hmode : u.mode = s.mode := by rw [hinit.frame]; rfl
  have hstored : SameOptions (s.withOptions o) u := hinit.frame.options
  rcases beginInput_cases einit hinit.calm with ⟨hf, run⟩ | ⟨hne, setup, run, hends, hmiss⟩
  · obtain ⟨hrate, hch, hgain, hagc, hsrc, hkeep⟩ := hstored
    exact ⟨_, next_runOp_answers (run.trans (unsupported_run u)), hinit.waiting, hinit.calm.1,
      hrate, hch, hgain, hagc, hsrc, hkeep, .inr (.inl ⟨rfl, hmode, hf⟩)⟩
  · rcases hends with ⟨t, e, ht, hm, hmult⟩ | ⟨t, esetup, e, ht, hm⟩ | ⟨i, reason, t, e, ht, hm, hfault⟩
    all_goals obtain ⟨hrate, hch, hgain, hagc, hsrc, hkeep⟩ := hstored.trans ht.options
    · exact ⟨_, next_runOp_answers (run.trans e), ht.waiting.trans hinit.waiting, ht.calm.1,
        hrate, hch, hgain, hagc, hsrc, hkeep, .inl ⟨rfl, hm, hmult, ht.family.trans_ne hne⟩⟩
    · exact ⟨_, next_runOp_answers (run.trans e), ht.waiting.trans hinit.waiting, ht.calm.1,
        hrate, hch, hgain, hagc, hsrc, hkeep,
        .inr (.inr (.inl ⟨rfl, hm.trans hmode, ht.family.trans (hmiss t esetup)⟩))⟩
    · exact ⟨_, next_runOp_faults (run.trans e), ht.waiting.trans hinit.waiting, ht.calm.1,
        hrate, hch, hgain, hagc, hsrc, hkeep, .inr (.inr (.inr ⟨i, reason, rfl, hm.trans hmode, hfault⟩))⟩

end Sys2Proof.Machine
end

section
/-!
SUPPORT. The search of the solver (45 R122): its best is, at every moment, the nearest of the points scanned so far, and a
divider below the target or an exact match shows that the points passed over change nothing.
-/
namespace Sys2Proof.Machine

/-! ### The grid's rates -/

theorem onGrid.div_pos {k div : Nat} (h : onGrid k div) : 0 < div := Nat.lt_of_lt_of_le (by decide) h.2.1

theorem rateLe.refl (k div : Nat) : rateLe k div k div := Nat.le_refl _

theorem rateLe.trans {k div k' div' k'' div'' : Nat} (hd : 0 < div') (h : rateLe k div k' div')
    (h' : rateLe k' div' k'' div'') : rateLe k div k'' div'' := by
  unfold rateLe at *
  refine Nat.le_of_mul_le_mul_right (c := 512 * div') ?_ (by omega)
  calc (k + 4) * (512 * div'') * (512 * div') = (k + 4) * (512 * div') * (512 * div'') := by ring
    _ ≤ (k' + 4) * (512 * div) * (512 * div'') := Nat.mul_le_mul_right _ h
    _ = (k' + 4) * (512 * div'') * (512 * div) := by ring
    _ ≤ (k'' + 4) * (512 * div') * (512 * div) := Nat.mul_le_mul_right _ h'
    _ = (k'' + 4) * (512 * div) * (512 * div') := by ring

section
variable {base target k div k' div' : Nat}

/-- Rates compare as the multiplier and the divider do, where the base clock runs. -/
theorem rateLe_iff (hb : 0 < base) :
    rateLe k div k' div' ↔ (k + 4) * base * (512 * div') ≤ (k' + 4) * base * (512 * div) := by
  unfold rateLe
  rw [Nat.mul_right_comm (k + 4), Nat.mul_right_comm (k' + 4), Nat.mul_le_mul_right_iff hb]

/-- A larger divider gives no larger rate, so it stays below the target (45 R122). -/
theorem rateAtLeast.of_le (h : rateAtLeast base target k div') (hd : div ≤ div') : rateAtLeast base target k div :=
  (Nat.mul_le_mul_left _ (Nat.mul_le_mul_left _ hd)).trans h

theorem rateUnderDouble.of_rateLe (hb : 0 < base) (hd : 0 < div) (h : rateLe k div k' div')
    (hu : rateUnderDouble base target k' div') : rateUnderDouble base target k div := by
  unfold rateUnderDouble at *
  refine Nat.lt_of_mul_lt_mul_right (a := 512 * div') ?_
  calc (k + 4) * base * (512 * div') ≤ (k' + 4) * base * (512 * div) := (rateLe_iff hb).1 h
    _ < 2 * target * (512 * div') * (512 * div) := Nat.mul_lt_mul_of_pos_right hu (by omega)
    _ = 2 * target * (512 * div) * (512 * div') := by ring

/-- No rate at or above the target is below one that meets it (45 R125). -/
theorem rateLe_of_exact (hb : 0 < base) (met : (k + 4) * base = target * (512 * div))
    (h : rateAtLeast base target k' div') : rateLe k div k' div' := by
  rw [rateLe_iff hb, met, Nat.mul_right_comm]
  exact Nat.mul_le_mul_right _ h

theorem fracBelow_solverRate : fracBelow (solverRate base k div) target = true ↔ ¬rateAtLeast base target k div :=
  decide_eq_true_iff.trans Nat.not_le.symm

theorem excess_num_eq_zero (ha : rateAtLeast base target k div) :
    (excess (solverRate base k div) target).num = 0 ↔ (k + 4) * base = target * (512 * div) :=
  Nat.sub_eq_zero_iff_le.trans ⟨fun h => h.antisymm ha, le_of_eq⟩

theorem fracLess_iff {f g : Frac} : fracLess f g = true ↔ f.num * g.den < g.num * f.den := decide_eq_true_iff

/-- Of two rates at or above the target the strictly closer one is the strictly lower one. -/
theorem fracLess_excess (hb : 0 < base) (h : rateAtLeast base target k div) (h' : rateAtLeast base target k' div') :
    fracLess (excess (solverRate base k div) target) (excess (solverRate base k' div') target) = true ↔
      ¬rateLe k' div' k div := by
  have e : target * (512 * div) * (512 * div') = target * (512 * div') * (512 * div) := by ring
  have m : target * (512 * div) * (512 * div') ≤ (k + 4) * base * (512 * div') := Nat.mul_le_mul_right _ h
  have m' : target * (512 * div') * (512 * div) ≤ (k' + 4) * base * (512 * div) := Nat.mul_le_mul_right _ h'
  rw [fracLess_iff, rateLe_iff hb, Nat.not_le]
  simp only [excess, solverRate, Nat.sub_mul]
  omega

/-- A rate at or above the target is closer to it than zero exactly where it is under twice the target (45 R126). -/
theorem fracLess_start (h : rateAtLeast base target k div) :
    fracLess (excess (solverRate base k div) target) { num := target, den := 1 } = true ↔
      rateUnderDouble base target k div := by
  unfold rateAtLeast at h
  rw [fracLess_iff]
  simp only [excess, solverRate, rateUnderDouble, Nat.mul_assoc 2]
  omega

end

/-! ### The nearest of the points scanned -/

/-- The points scanned once the search stands at a multiplier and a divider: scan order goes by the multiplier, then by
the divider (45 R122). -/
def scannedAt (k div k' div' : Nat) : Prop := k' < k ∨ (k' = k ∧ div' < div)

theorem scannedAt_succ {k div k' div' : Nat} :
    scannedAt k (div + 1) k' div' ↔ scannedAt k div k' div' ∨ (k' = k ∧ div' = div) := by
  unfold scannedAt
  omega

/-- A point the search may answer from the points seen: one of them, at or above the target and closer to it than zero, of
which none at or above the target is lower, and the first of its rate (45 R122, R123, R124). -/
structure Nearest (base target : Nat) (seen : Nat → Nat → Prop) (k div : Nat) : Prop where
  grid : onGrid k div
  isSeen : seen k div
  atLeast : rateAtLeast base target k div
  underDouble : rateUnderDouble base target k div
  least : ∀ k' div', onGrid k' div' → seen k' div' → rateAtLeast base target k' div' →
    rateLe k div k' div' ∧ (rateLe k' div' k div → k < k' ∨ (k = k' ∧ div ≤ div'))

/-- What the best holds after the points seen, none of them an exact match: the starting bound where no point answers, else
the nearest of them with its distance. -/
inductive BestOf (base target : Nat) (seen : Nat → Nat → Prop) : SolverBest → Prop where
  | miss (k div : Nat)
      (noPoint : ∀ k' div', onGrid k' div' → seen k' div' →
        ¬(rateAtLeast base target k' div' ∧ rateUnderDouble base target k' div')) :
      BestOf base target seen { diff := { num := target, den := 1 }, k := k, div := div, found := false }
  | hit {k div : Nat} (near : Nearest base target seen k div) (above : target * (512 * div) < (k + 4) * base) :
      BestOf base target seen { diff := excess (solverRate base k div) target, k := k, div := div, found := true }

section
variable {base target k div : Nat} {seen seen' : Nat → Nat → Prop} {b : SolverBest}

/-- Seeing more points that are below the target changes nothing. -/
theorem Nearest.grow (h : Nearest base target seen k div) (keep : ∀ k' div', seen k' div' → seen' k' div')
    (new : ∀ k' div', onGrid k' div' → seen' k' div' → rateAtLeast base target k' div' → seen k' div') :
    Nearest base target seen' k div :=
  ⟨h.grid, keep _ _ h.isSeen, h.atLeast, h.underDouble,
    fun k' div' g sn ha => h.least k' div' g (new k' div' g sn ha) ha⟩

theorem BestOf.grow (h : BestOf base target seen b) (keep : ∀ k' div', seen k' div' → seen' k' div')
    (new : ∀ k' div', onGrid k' div' → seen' k' div' → rateAtLeast base target k' div' → seen k' div') :
    BestOf base target seen' b := by
  cases h with
  | miss k div noPoint => exact .miss k div fun k' div' g sn hr => noPoint k' div' g (new k' div' g sn hr.1) hr
  | hit near above => exact .hit (near.grow keep new) above

/-- A point closer than the best is under twice the target and strictly lower than every point seen. -/
theorem BestOf.lower (h : BestOf base target seen b) (hb : 0 < base) (hg : onGrid k div)
    (ha : rateAtLeast base target k div)
    (less : fracLess (excess (solverRate base k div) target) b.diff = true) :
    rateUnderDouble base target k div ∧
    ∀ k' div', onGrid k' div' → seen k' div' → rateAtLeast base target k' div' → ¬rateLe k' div' k div := by
  cases h with
  | miss k₀ div₀ noPoint =>
    have hu := (fracLess_start ha).1 less
    exact ⟨hu, fun k' div' g sn ha' le => noPoint k' div' g sn ⟨ha', hu.of_rateLe hb g.div_pos le⟩⟩
  | @hit k₀ div₀ near above =>
    have lt : ¬rateLe k₀ div₀ k div := (fracLess_excess hb ha near.atLeast).1 less
    refine ⟨near.underDouble.of_rateLe hb hg.div_pos (Nat.le_of_not_le lt), fun k' div' g sn ha' le => lt ?_⟩
    exact (near.least k' div' g sn ha').1.trans g.div_pos le

/-- A point strictly lower than every one scanned before it is the nearest, where no later one seen is lower. -/
theorem Nearest.of_lower (hg : onGrid k div) (sn : seen k div) (ha : rateAtLeast base target k div)
    (hu : rateUnderDouble base target k div)
    (lower : ∀ k' div', onGrid k' div' → scannedAt k div k' div' → rateAtLeast base target k' div' → ¬rateLe k' div' k div)
    (later : ∀ k' div', seen k' div' → ¬scannedAt k div k' div' → rateAtLeast base target k' div' → rateLe k div k' div') :
    Nearest base target seen k div := by
  refine ⟨hg, sn, ha, hu, fun k' div' g sn' ha' => ?_⟩
  by_cases hs : scannedAt k div k' div'
  · have lt := lower k' div' g hs ha'
    exact ⟨Nat.le_of_not_le lt, fun le => absurd le lt⟩
  · refine ⟨later k' div' sn' hs ha', fun _ => ?_⟩
    unfold scannedAt at hs
    omega

/-- After a point above the target, the best is the nearest with that point among those scanned (45 R122, R124). -/
theorem BestOf.betterOf (h : BestOf base target (scannedAt k div) b) (hg : onGrid k div)
    (above : target * (512 * div) < (k + 4) * base) :
    BestOf base target (scannedAt k (div + 1)) (betterOf b (excess (solverRate base k div) target) k div) := by
  have hb : 0 < base := Nat.pos_of_mul_pos_left (Nat.zero_lt_of_lt above)
  have ha : rateAtLeast base target k div := above.le
  unfold Machine.betterOf
  split
  · next less =>
    obtain ⟨hu, lower⟩ := h.lower hb hg ha less
    refine .hit (.of_lower hg (scannedAt_succ.2 (.inr ⟨rfl, rfl⟩)) ha hu lower fun k' div' sn hs _ => ?_) above
    obtain ⟨rfl, rfl⟩ := (scannedAt_succ.1 sn).resolve_left hs
    exact .refl _ _
  · next less =>
    cases h with
    | miss k₀ div₀ noPoint =>
      refine .miss k₀ div₀ fun k' div' g sn => ?_
      rcases scannedAt_succ.1 sn with hs | ⟨rfl, rfl⟩
      · exact noPoint k' div' g hs
      · exact fun hr => less ((fracLess_start hr.1).2 hr.2)
    | @hit k₀ div₀ near above₀ =>
      have le : rateLe k₀ div₀ k div := not_not.1 fun lt => less ((fracLess_excess hb ha near.atLeast).2 lt)
      have sn₀ : scannedAt k (div + 1) k₀ div₀ := scannedAt_succ.2 (.inl near.isSeen)
      refine .hit ⟨near.grid, sn₀, near.atLeast, near.underDouble, fun k' div' g sn ha' => ?_⟩ above₀
      rcases scannedAt_succ.1 sn with hs | ⟨rfl, rfl⟩
      · exact near.least k' div' g hs ha'
      · exact ⟨le, fun _ => by unfold scannedAt at sn₀; omega⟩

/-- An exact match is the nearest of the whole grid, so it may end the search (45 R122, R125). -/
theorem BestOf.nearest_of_exact (h : BestOf base target (scannedAt k div) b) (hpos : 0 < base ∨ 0 < target)
    (hg : onGrid k div) (met : (k + 4) * base = target * (512 * div)) : Nearest base target (fun _ _ => True) k div := by
  have hd : 0 < 512 * div := Nat.mul_pos (by decide) hg.div_pos
  have ht : 0 < target := by
    rcases hpos with hb | ht
    · exact Nat.pos_of_mul_pos_right (met ▸ Nat.mul_pos (Nat.succ_pos _) hb)
    · exact ht
  have hb : 0 < base := Nat.pos_of_mul_pos_left (met ▸ Nat.mul_pos ht hd)
  have ha : rateAtLeast base target k div := met.ge
  have less : fracLess (excess (solverRate base k div) target) b.diff = true := by
    have : 0 < b.diff.num := by
      cases h with
      | miss => exact ht
      | hit near above => exact Nat.sub_pos_of_lt above
    rw [fracLess_iff, (excess_num_eq_zero ha).2 met, Nat.zero_mul]
    exact Nat.mul_pos this hd
  obtain ⟨hu, lower⟩ := h.lower hb hg ha less
  exact .of_lower hg trivial ha hu lower fun _ _ _ _ => rateLe_of_exact hb met

/-- Where the rest of a row is below the target, the search stands at the next row (45 R122). -/
theorem BestOf.nextRow (h : BestOf base target (scannedAt k div) b)
    (below : ∀ div', div ≤ div' → div' ≤ 126 → ¬rateAtLeast base target k div') :
    BestOf base target (scannedAt (k + 1) 4) b := by
  refine h.grow (by unfold scannedAt; omega) fun k' div' g sn ha => ?_
  by_contra hs
  unfold scannedAt at sn hs
  unfold onGrid at g
  obtain rfl : k' = k := by omega
  exact below div' (by omega) (by omega) ha

end

/-! ### The scan -/

section
variable {base target : Nat} (hpos : 0 < base ∨ 0 < target)
include hpos

/-- A row's scan either ends the search with the nearest point of the grid, or leaves the best of all scanned so far. -/
theorem scanDividers_nearest {k n div : Nat} {b : SolverBest} (hk : k ≤ 6) (hd : 4 ≤ div) (hn : div + n = 127)
    (h : BestOf base target (scannedAt k div) b) :
    (∀ p, (scanDividers base target k n div b).2 = some p → Nearest base target (fun _ _ => True) p.1 p.2) ∧
    ((scanDividers base target k n div b).2 = none →
      BestOf base target (scannedAt (k + 1) 4) (scanDividers base target k n div b).1) := by
  induction n generalizing div b with
  | zero => exact ⟨fun _ e => (nomatch e), fun _ => h.nextRow fun _ _ _ => by omega⟩
  | succ n ih =>
    have hg : onGrid k div := ⟨hk, hd, by omega⟩
    unfold scanDividers
    split
    · next hlow =>
      exact ⟨fun _ e => (nomatch e), fun _ => h.nextRow fun _ le _ ha => fracBelow_solverRate.1 hlow (ha.of_le le)⟩
    next hlow =>
    have ha : rateAtLeast base target k div := not_not.1 (mt fracBelow_solverRate.2 hlow)
    split
    · next met =>
      refine ⟨fun p e => ?_, fun e => nomatch e⟩
      cases e
      exact h.nearest_of_exact hpos hg ((excess_num_eq_zero ha).1 met)
    · next hne =>
      have above := lt_of_le_of_ne ha fun e => hne ((excess_num_eq_zero ha).2 e.symm)
      exact ih (by omega) (by omega) (h.betterOf hg above)

/-- The same for the rows from one on to the last. -/
theorem scanMultipliers_nearest {n k : Nat} {b : SolverBest} (hk : k + n = 7) (h : BestOf base target (scannedAt k 4) b) :
    (∀ p, (scanMultipliers base target n k b).2 = some p → Nearest base target (fun _ _ => True) p.1 p.2) ∧
    ((scanMultipliers base target n k b).2 = none →
      BestOf base target (fun _ _ => True) (scanMultipliers base target n k b).1) := by
  induction n generalizing k b with
  | zero =>
    refine ⟨fun _ e => (nomatch e), fun _ => h.grow (fun _ _ _ => trivial) fun k' _ g _ _ => .inl ?_⟩
    have := g.1
    omega
  | succ n ih =>
    have hd := scanDividers_nearest hpos (k := k) (n := 123) (by omega) (le_refl 4) rfl h
    unfold scanMultipliers
    rcases hx : scanDividers base target k 123 4 b with ⟨x, _ | p⟩ <;> rw [hx] at hd
    · exact ih (by omega) (hd.2 rfl)
    · exact ⟨fun _ e => hd.1 _ e, fun e => nomatch e⟩

/-- The search answers the nearest point of the grid, or there is none (45 R122, R126). -/
theorem solverPoint_cases :
    (∃ k div, solverPoint base target = some (k, div) ∧ Nearest base target (fun _ _ => True) k div) ∨
    (solverPoint base target = none ∧
      ∀ k div, onGrid k div → ¬(rateAtLeast base target k div ∧ rateUnderDouble base target k div)) := by
  obtain ⟨hex, hbest⟩ := scanMultipliers_nearest hpos (n := 7) (k := 0) rfl
    (.miss 0 0 fun k' div' g sn => by unfold scannedAt at sn; unfold onGrid at g; omega)
  unfold solverPoint searchFrom
  rcases hx : scanMultipliers base target 7 0 { diff := { num := target, den := 1 }, k := 0, div := 0, found := false }
    with ⟨x, _ | p⟩ <;> rw [hx] at hex hbest
  · rcases hbest rfl with ⟨k, div, noPoint⟩ | ⟨near, _⟩
    · exact .inr ⟨rfl, fun k' div' g => noPoint k' div' g trivial⟩
    · exact .inl ⟨_, _, rfl, near⟩
  · exact .inl ⟨p.1, p.2, rfl, hex p rfl⟩

theorem solverPoint_nearest {k div : Nat} (e : solverPoint base target = some (k, div)) :
    Nearest base target (fun _ _ => True) k div := by
  rcases solverPoint_cases hpos with ⟨k', div', e', near⟩ | ⟨e', -⟩
  · cases e.symm.trans e'
    exact near
  · cases e.symm.trans e'

end

/-- With base clock 0 and target 0 the first point is an exact match (log 34). -/
theorem solverPoint_zero : solverPoint 0 0 = some (0, 4) := rfl

/-- Settles O41: the answer is the nearest point of the whole grid; base clock 0 finds only the first, for target 0. -/
theorem solverNearestFromAbove : Obligations.SolverNearestFromAbove := by
  intro base target k div e
  by_cases hpos : 0 < base ∨ 0 < target
  · have near := solverPoint_nearest hpos e
    exact ⟨near.grid, near.atLeast, fun _ => near.underDouble, fun _ k' div' g => near.least k' div' g trivial⟩
  · obtain ⟨rfl, rfl⟩ : base = 0 ∧ target = 0 := by omega
    cases solverPoint_zero.symm.trans e
    exact ⟨⟨by omega, by omega, by omega⟩, Nat.le_refl 0, fun hb => absurd hb (Nat.lt_irrefl 0),
      fun hb => absurd hb (Nat.lt_irrefl 0)⟩

/-- Settles O42: an answer is itself a point from the target up to twice the target. -/
theorem solverMissExactly : Obligations.SolverMissExactly := by
  refine ⟨fun base target hpos => ?_, solverPoint_zero⟩
  rcases solverPoint_cases hpos with ⟨k, div, e, near⟩ | ⟨e, noPoint⟩
  · rw [e]
    exact ⟨fun h => (nomatch h), fun noPoint => absurd ⟨near.atLeast, near.underDouble⟩ (noPoint k div near.grid)⟩
  · exact ⟨fun _ => noPoint, fun _ => e⟩

/-! ### The operation -/

theorem exec_solveRate_found {s : State} {target k div : Nat} (e : solverPoint s.cfg.baseClock target = some (k, div)) :
    exec (.solveRate target) s =
      .next ((s.searched target).returns (okNum (((k + 4) * s.cfg.baseClock / (512 * div) : Nat) : Int))) :=
  next_runOp_answers (op_bind_ok ((solve_run target s).trans (by rw [e])))

theorem exec_solveRate_miss {s : State} {target : Nat} (e : solverPoint s.cfg.baseClock target = none) :
    exec (.solveRate target) s = .next ((s.searched target).returns solverMiss) :=
  next_runOp_answers (op_bind_ok ((solve_run target s).trans (by rw [e])))

/-- Settles O43: `solve` answers the solver's point and writes the scratch fields alone. -/
theorem solveRateReports : Obligations.SolveRateReports :=
  fun _ _ => ⟨fun _ _ => exec_solveRate_found, exec_solveRate_miss⟩

/-- The distance the search ends with does not depend on the scratch fields before. -/
theorem searchFrom_diff (base target k div : Nat) :
    (searchFrom base target k div).1.diff = (searchFrom base target 0 0).1.diff :=
  (scanMultipliers_same base target 7 0 { diff := { num := target, den := 1 }, k := k, div := div, found := false }
    { diff := { num := target, den := 1 }, k := 0, div := 0, found := false } ⟨rfl, rfl, fun h => nomatch h⟩).2.1

/-- The reported floor of a rate at or above the target is at or above it too (45 R123, R127). -/
theorem rateAtLeast.le_floor {base target k div : Nat} (h : rateAtLeast base target k div) (hd : 0 < div) :
    target ≤ (k + 4) * base / (512 * div) := (Nat.le_div_iff_mul_le (by omega)).2 h

/-- Settles O44: multiplier 0 at divider 12 meets 8000; any answer is a point at or above its target. -/
theorem solverAtSourceClock : Obligations.SolverAtSourceClock := by
  intro s hclock
  refine ⟨?_, fun target t n e hr => ?_⟩
  · have point : solverPoint s.cfg.baseClock 8000 = some (0, 12) := by rw [hclock]; decide +kernel
    refine ⟨_, exec_solveRate_found point, ?_, ?_⟩
    · simp [hclock]
    · show (searchFrom s.cfg.baseClock 8000 s.bestK s.bestDiv).1.diff.num = 0
      rw [searchFrom_diff, hclock]
      decide +kernel
  · have hb : 0 < s.cfg.baseClock := by omega
    rcases solverPoint_cases (target := target) (.inl hb) with ⟨k, div, p, near⟩ | ⟨p, -⟩
    · cases (exec_solveRate_found p).symm.trans e
      cases hr
      exact_mod_cast near.atLeast.le_floor near.grid.div_pos
    · cases (exec_solveRate_miss p).symm.trans e
      cases hr

end Sys2Proof.Machine
end

section
/-!
The setters where every wait ends at once, and the cached getters (O45, O47, O50).
-/
namespace Sys2Proof.Machine

/-- The two orders of a clamp's bounds agree on a range of any two bounds, as the balance's (46 R136). -/
theorem clamp_eq_max_min_of_le (x : Int) {lo hi : Int} (h : lo ≤ hi) : clamp x lo hi = max lo (min x hi) := by
  unfold clamp
  omega

/-- A setter's write sees the stored value, and the setter ends where its write does. -/
theorem next_setter {w : Op Unit} {g : State → State} {s t : State} (h : w (g s) = .ok () t) :
    (Host.Outcome.next (runOp (do modify g; w; return okResult) s) : Host.Outcome State Fault Refusal) =
      .next (t.returns okResult) :=
  next_runOp_answers ((op_modify_bind g _ s).trans (op_bind_ok h))

/-- The equalizer's write is one frame of the packed word of the stored values (46 R130). -/
theorem writeEq_ready {s : State} (h : s.ready) : writeEq s = .ok () (s.wrote (s.regAddr .bass) s.eqWord) :=
  (op_get_bind _ s).trans (writeNamed_ready h .bass s.eqWord)

/-- The volume's write is one frame of the mapped word of both stored values (46 R135, R136). -/
theorem writeVolume_ready {s : State} (h : s.ready) :
    writeVolume s = .ok () (s.wrote (s.regAddr .vol) (volmap s.volume s.balance)) :=
  (op_get_bind _ s).trans (writeNamed_ready h .vol (volmap s.volume s.balance))

/-- Settles O45: each setter's write is the equalizer's, from the state that holds the new value. -/
theorem equalizerSetters : Obligations.EqualizerSetters := by
  intro s x hb hr
  rw [← clamp_eq_max_min x (by decide), ← clamp_eq_max_min x (by decide)]
  exact ⟨next_setter (writeEq_ready ⟨hb, hr⟩), next_setter (writeEq_ready ⟨hb, hr⟩),
    next_setter (writeEq_ready ⟨hb, hr⟩), next_setter (writeEq_ready ⟨hb, hr⟩),
    fun ta tf ba bf => next_runOp_ok (writeNamed_ready ⟨hb, hr⟩ .bass (packEq ta tf ba bf))⟩

/-- Settles O47: both setters' write is the volume's, from the state that holds the new value. -/
theorem volumeAndBalanceSetters : Obligations.VolumeAndBalanceSetters := by
  intro s x hb hr
  rw [← clamp_eq_max_min_of_le x (by decide), ← clamp_eq_max_min_of_le x (by decide)]
  exact ⟨next_setter (writeVolume_ready ⟨hb, hr⟩), next_setter (writeVolume_ready ⟨hb, hr⟩)⟩

theorem exec_getState (sel : Selector) (s : State) :
    exec (.getState sel) s = .next (s.returns { st := .ok, val := s.selected sel }) :=
  next_runOp_answers (op_get_bind _ s)

/-- Settles O50: each clause is the getter at one selector. -/
theorem getStateReturnsCache : Obligations.GetStateReturnsCache := fun s =>
  ⟨exec_getState .volume s, exec_getState .balance s, exec_getState .bassA s, exec_getState .bassF s,
    exec_getState .trebA s, exec_getState .trebF s, exec_getState .mode s, exec_getState .version s,
    exec_getState .family s, exec_getState .initOk s, exec_getState .recAchieved s, fun _ _ => rfl⟩

end Sys2Proof.Machine
end

section
/-!
The laws of the volume mapping (O48).
-/
namespace Sys2Proof.Machine

/-- At volume 100 the word is the open one where it differs from volume 0's, else its complement (log 18). -/
theorem volmap_hundred (b : Int) :
    volmap 100 b = if volmapBase 100 b = volmapBase 0 b then ~~~volmapBase 100 b else volmapBase 100 b := by
  simp [volmap]

theorem volmap_of_ne {v : Nat} (h : v ≠ 100) (b : Int) : volmap v b = volmapBase v b := if_neg fun hv => h hv.1

/-- A word of two equal bytes, complemented or not, has two equal bytes. -/
theorem volmap_balanced (v : Nat) : ∃ c : Byte, volmap v 0 = joinBytes c c := by
  unfold volmap
  split
  · exact ⟨~~~Config.volFlat 100, BitVec.not_append⟩
  · exact ⟨Config.volFlat v, rfl⟩

/-- Settles O48: a word differs from its complement, and both of volume 100's words are balanced where the open one is. -/
theorem volumeMappingLaws : Obligations.VolumeMappingLaws := by
  refine ⟨fun b => ?_, fun v => ?_⟩
  · rw [volmap_of_ne (by decide), volmap_hundred]
    split
    · next same => rw [same]; exact BitVec.ne_not_self (by decide)
    · next differs => exact Ne.symm differs
  · obtain ⟨c, hc⟩ := volmap_balanced v
    rw [hc]
    exact BitVec.extractLsb'_append_eq_left.trans BitVec.extractLsb'_append_eq_right.symm

end Sys2Proof.Machine
end

section
/-!
The setters where every wait ends (O49).
-/
namespace Sys2Proof.Machine

/-- Whenever the bus is free and every wait ends, the operation completes with the select lines high, and nothing else
changes but the trace and the chip's answers. -/
def CompletesFrame (w : Op Unit) : Prop :=
  ∀ s, s.calm → ∃ tr e, w s = .ok () { s with cs := true, dcs := true, trace := tr, env := e }

/-- A write frame finds the bus free and leaves it free. -/
theorem completesFrame_writeNamed (r : RegName) (v : Word) : CompletesFrame (writeNamed r v) := by
  rintro s ⟨hb, hw⟩
  obtain ⟨n, e, hwait, -⟩ := wait_of_high (s.env.take s.cfg.regMap (s.regAddr r) v)
    ((by simp : _ = s.env.readyAfter).trans hw)
  have released : s.afterWrite (s.regAddr r) v n e = { s with
      cs := true, dcs := true, env := e, trace := s.trace ++ writeFrameEvents s.cs s.dcs (s.regAddr r) v n } := by
    rw [State.afterWrite, ← hb]
  exact ⟨_, e, (writeRegister_done (s.regAddr r) v s hb hwait).trans (by rw [released])⟩

theorem completesFrame_writeEq : CompletesFrame writeEq := fun s => completesFrame_writeNamed .bass s.eqWord s

theorem completesFrame_writeVolume : CompletesFrame writeVolume := fun s =>
  completesFrame_writeNamed .vol (volmap s.volume s.balance) s

/-- A setter with such a write completes, and what holds of its stored value with any trace and answers holds of its next
state. -/
theorem setter_completes {w : Op Unit} (hw : CompletesFrame w) {g : State → State} {s : State} (hs : (g s).calm)
    {P : State → Prop}
    (hP : ∀ tr e, P ({ g s with cs := true, dcs := true, trace := tr, env := e }.returns okResult)) :
    ∃ t, (Host.Outcome.next (runOp (do modify g; w; return okResult) s) : Host.Outcome State Fault Refusal) = .next t ∧
      P t := by
  obtain ⟨tr, e, h⟩ := hw (g s) hs
  exact ⟨_, next_setter h, hP tr e⟩

/-- Settles O49: each setter stores one field and makes one write, which finds the bus free and leaves it free. -/
theorem settersCompleteAndFrame : Obligations.SettersCompleteAndFrame := by
  intro s x hb hw
  have equalizer := @setter_completes _ completesFrame_writeEq
  have volume := @setter_completes _ completesFrame_writeVolume
  exact ⟨equalizer ⟨hb, hw⟩ fun _ _ => ⟨rfl, rfl⟩, equalizer ⟨hb, hw⟩ fun _ _ => ⟨rfl, rfl⟩,
    equalizer ⟨hb, hw⟩ fun _ _ => ⟨rfl, rfl⟩, equalizer ⟨hb, hw⟩ fun _ _ => ⟨rfl, rfl⟩,
    volume ⟨hb, hw⟩ fun _ _ => ⟨rfl, rfl⟩, volume ⟨hb, hw⟩ fun _ _ => ⟨rfl, rfl⟩⟩

end Sys2Proof.Machine
end

section
/-!
Hangs, nested acquisition and the guards of the exception chapter (O6, O8, O21, O38).
-/
namespace Sys2Proof.Machine

/-- Settles O6: opening the frame's own bracket raises the fault before anything else happens. -/
theorem frameInsideBracketFaults : Obligations.FrameInsideBracketFaults := fun s a v hb =>
  ⟨next_runOp_raised (readRegister_owned a s hb), next_runOp_raised (writeRegister_owned a v s hb),
    next_runOp_raised (readRegister_owned a s hb), next_runOp_raised (writeRegister_owned a v s hb)⟩

/-- A next state that hangs with the chip selected for a register frame and the bus owned stays there, one poll per
step. -/
theorem hangs_selected {o : Host.Outcome State Fault Refusal} {t : State} (e : o = .next t) (hw : t.waiting = true)
    (hr : t.result = none) (hb : t.busOwned = true) (hc : t.cs = false) (hd : t.dcs = true) :
    ∃ u, o = .next u ∧ u.waiting = true ∧ u.result = none ∧ u.busOwned = true ∧ u.cs = false ∧ u.dcs = true ∧
      step u = .next { u with
        trace := u.trace ++ [Event.mk (.sampleDreq false) false true, Event.mk .yield false true] } := by
  obtain ⟨-, -, poll⟩ := stepRunsPresented t
  exact ⟨t, e, hw, hr, hb, hc, hd, by rw [poll hw, hc, hd]⟩

/-- Settles O8: neither frame's bytes change what the ready-signal reads, so the wait at the end of the frame hangs. -/
theorem stuckFrameHangs : Obligations.StuckFrameHangs := by
  intro s a v n hb hready hlow
  have writeWaits : (s.env.take s.cfg.regMap a v).wait = (n, none) :=
    wait_low_forever ((take_ready ..).trans hready) ((take_readyAfter ..).trans hlow)
  have readWaits : (s.env.answer s.cfg.regMap a).2.2.wait = (n, none) :=
    wait_low_forever ((answer_ready ..).trans hready) ((answer_readyAfter ..).trans hlow)
  exact ⟨hangs_selected (next_runOp_hung (writeRegister_hangs a v s hb writeWaits)) rfl rfl rfl rfl rfl,
    hangs_selected (next_runOp_hung (readRegister_hangs a s hb readWaits)) rfl rfl rfl rfl rfl⟩

/-- Outside Midi mode a message is one warning and is refused by value (60 R145). -/
theorem sendMidiMessage_outside_midi {n : Byte} (h1 : 1 ≤ n.toNat) (h3 : n.toNat ≤ 3) (b0 b1 b2 : Byte) {s : State}
    (hm : s.mode ≠ .midi) : sendMidiMessage n b0 b1 b2 s =
      .ok (failResult .guardViolation) (s.emit (.log .warning .midiGuard)) := by
  have hn : ¬(n.toNat < 1 ∨ 3 < n.toNat) := by omega
  rw [sendMidiMessage, if_neg hn, op_get_bind, if_neg hm]
  rfl

/-- Settles O21: the guard is reached for every length from 1 to 3, and nothing follows its warning. -/
theorem midiSendGuarded : Obligations.MidiSendGuarded := fun _ _ b0 b1 b2 h1 h3 hm =>
  congrArg Host.Outcome.next (runOp_ok (sendMidiMessage_outside_midi h1 h3 b0 b1 b2 hm))

theorem available_outside_input {s : State} (hm : s.mode ≠ .input) : available s = .ok 0 s :=
  (op_get_bind _ s).trans (by rw [if_neg hm]; rfl)

/-- Settles O38: outside Input mode both operations answer 0 before any register is read. -/
theorem captureReadsGuarded : Obligations.CaptureReadsGuarded := fun _ buf n hm =>
  ⟨next_runOp_ok (f := fun k : Nat => okNum k) (available_outside_input hm),
    next_runOp_ok (f := fun k : Nat => okNum k) (readBytes_outside_input hm buf n)⟩

end Sys2Proof.Machine
end
